-- ==== Sys2Proof/Word.lean ====
section
/-! DEFINITION. The storage word and the double word (spec/00_scope.md R8, R10; spec/42_arithmetic.md R220).
Bits are numbered from the least significant one (R8), as `BitVec` numbers them. Everything that computes with words
stands in the files under Machine/. -/

namespace Sys2Proof

/-- One 36-bit word: the unit of storage, of the GRS and of the instruction stream (R8, R70, R133). -/
abbrev Word := BitVec 36

/-- A 72-bit double word; the first word is the upper half and holds the sign in bit 71 (R220). -/
abbrev DWord := BitVec 72

/-- Negative zero: all ones (R10). -/
abbrev negZero : Word := BitVec.allOnes 36

end Sys2Proof
end

