-- ==== Sys2Proof/Syntax.lean ====
section
/-! DEFINITION. The instructions: one constructor for each row of spec/opcode_table.json, that is of the opcode map of
spec/30_encoding.md R137. The four mnemonics TZ, TNZ, TP and TN name a basic-mode row and an extended-mode row each
(R139); the basic-mode rows have the suffix `Basic` here. A field that the row calls ignored (R136) is no operand. -/

namespace Sys2Proof

/-- The two operating modes; DR.basicMode selects one (R134). -/
inductive Mode where
  | basic | extended
  deriving DecidableEq, Repr

/-- An address specifier (spec/20_memory.md R85): index register, increment flag, indirect flag, and bits [15:0], which
are `u` in basic mode and `b`, `d` in extended mode. -/
structure AddrSpec where
  x : BitVec 4
  h : Bool
  i : Bool
  u : BitVec 16
  deriving DecidableEq, Repr

/-- The instructions. `j` is a partial-word designator, `a` a register number (R135, R136), `m` the address specifier. In
`jgd`, `j` and `a` together name a GRS cell; `d` is the literal operand of HALT (spec/45_system.md R365). -/
inductive Instr where
  -- loads
  | la (j a : BitVec 4) (m : AddrSpec)
  | lna (j a : BitVec 4) (m : AddrSpec)
  | lma (j a : BitVec 4) (m : AddrSpec)
  | lnma (j a : BitVec 4) (m : AddrSpec)
  | lr (j a : BitVec 4) (m : AddrSpec)
  | lx (j a : BitVec 4) (m : AddrSpec)
  | lxm (j a : BitVec 4) (m : AddrSpec)
  | lxi (j a : BitVec 4) (m : AddrSpec)
  -- stores
  | sa (j a : BitVec 4) (m : AddrSpec)
  | sna (j a : BitVec 4) (m : AddrSpec)
  | sma (j a : BitVec 4) (m : AddrSpec)
  | sr (j a : BitVec 4) (m : AddrSpec)
  | sx (j a : BitVec 4) (m : AddrSpec)
  -- double-word loads and stores
  | ds (a : BitVec 4) (m : AddrSpec)
  | dl (a : BitVec 4) (m : AddrSpec)
  | dln (a : BitVec 4) (m : AddrSpec)
  | dlm (a : BitVec 4) (m : AddrSpec)
  -- store constant
  | sz (j : BitVec 4) (m : AddrSpec)
  | snz (j : BitVec 4) (m : AddrSpec)
  | sp1 (j : BitVec 4) (m : AddrSpec)
  | sn1 (j : BitVec 4) (m : AddrSpec)
  | sfs (j : BitVec 4) (m : AddrSpec)
  | sfz (j : BitVec 4) (m : AddrSpec)
  | sas (j : BitVec 4) (m : AddrSpec)
  | saz (j : BitVec 4) (m : AddrSpec)
  -- fixed-point arithmetic
  | aa (j a : BitVec 4) (m : AddrSpec)
  | ana (j a : BitVec 4) (m : AddrSpec)
  | ama (j a : BitVec 4) (m : AddrSpec)
  | anma (j a : BitVec 4) (m : AddrSpec)
  | au (j a : BitVec 4) (m : AddrSpec)
  | anu (j a : BitVec 4) (m : AddrSpec)
  | ax (j a : BitVec 4) (m : AddrSpec)
  | anx (j a : BitVec 4) (m : AddrSpec)
  | mi (j a : BitVec 4) (m : AddrSpec)
  | di (j a : BitVec 4) (m : AddrSpec)
  | dsf (j a : BitVec 4) (m : AddrSpec)
  | df (j a : BitVec 4) (m : AddrSpec)
  | da (a : BitVec 4) (m : AddrSpec)
  | dan (a : BitVec 4) (m : AddrSpec)
  -- the increment family
  | inc (j : BitVec 4) (m : AddrSpec)
  | dec (j : BitVec 4) (m : AddrSpec)
  | inc2 (j : BitVec 4) (m : AddrSpec)
  | dec2 (j : BitVec 4) (m : AddrSpec)
  | enz (j : BitVec 4) (m : AddrSpec)
  | add1 (j : BitVec 4) (m : AddrSpec)
  | sub1 (j : BitVec 4) (m : AddrSpec)
  -- logical
  | or (j a : BitVec 4) (m : AddrSpec)
  | xor (j a : BitVec 4) (m : AddrSpec)
  | and (j a : BitVec 4) (m : AddrSpec)
  | mlu (j a : BitVec 4) (m : AddrSpec)
  -- shifts
  | ssc (a : BitVec 4) (m : AddrSpec)
  | dsc (a : BitVec 4) (m : AddrSpec)
  | ssl (a : BitVec 4) (m : AddrSpec)
  | dsl (a : BitVec 4) (m : AddrSpec)
  | ssa (a : BitVec 4) (m : AddrSpec)
  | dsa (a : BitVec 4) (m : AddrSpec)
  | lssc (a : BitVec 4) (m : AddrSpec)
  | ldsc (a : BitVec 4) (m : AddrSpec)
  | lssl (a : BitVec 4) (m : AddrSpec)
  | ldsl (a : BitVec 4) (m : AddrSpec)
  -- tests of both modes
  | te (j a : BitVec 4) (m : AddrSpec)
  | tne (j a : BitVec 4) (m : AddrSpec)
  | tle (j a : BitVec 4) (m : AddrSpec)
  | tg (j a : BitVec 4) (m : AddrSpec)
  | tw (j a : BitVec 4) (m : AddrSpec)
  | tnw (j a : BitVec 4) (m : AddrSpec)
  -- basic-mode tests
  | tzBasic (j : BitVec 4) (m : AddrSpec)
  | tnzBasic (j : BitVec 4) (m : AddrSpec)
  | tpBasic (j : BitVec 4) (m : AddrSpec)
  | tnBasic (j : BitVec 4) (m : AddrSpec)
  -- extended-mode tests, function 050
  | tnop (j : BitVec 4) (m : AddrSpec)
  | tgz (j : BitVec 4) (m : AddrSpec)
  | tpz (j : BitVec 4) (m : AddrSpec)
  | tp (j : BitVec 4) (m : AddrSpec)
  | tmz (j : BitVec 4) (m : AddrSpec)
  | tmzg (j : BitVec 4) (m : AddrSpec)
  | tz (j : BitVec 4) (m : AddrSpec)
  | tnlz (j : BitVec 4) (m : AddrSpec)
  | tlz (j : BitVec 4) (m : AddrSpec)
  | tnz (j : BitVec 4) (m : AddrSpec)
  | tpzl (j : BitVec 4) (m : AddrSpec)
  | tnmz (j : BitVec 4) (m : AddrSpec)
  | tn (j : BitVec 4) (m : AddrSpec)
  | tnpz (j : BitVec 4) (m : AddrSpec)
  | tngz (j : BitVec 4) (m : AddrSpec)
  | tskp (j : BitVec 4) (m : AddrSpec)
  -- jumps
  | jz (a : BitVec 4) (m : AddrSpec)
  | jnz (a : BitVec 4) (m : AddrSpec)
  | jp (a : BitVec 4) (m : AddrSpec)
  | jn (a : BitVec 4) (m : AddrSpec)
  | j (m : AddrSpec)
  | nop (m : AddrSpec)
  | jmgi (a : BitVec 4) (m : AddrSpec)
  | lmj (a : BitVec 4) (m : AddrSpec)
  | jo (m : AddrSpec)
  | jdf (m : AddrSpec)
  | jno (m : AddrSpec)
  | jndf (m : AddrSpec)
  | jc (m : AddrSpec)
  | jnc (m : AddrSpec)
  | jgd (j a : BitVec 4) (m : AddrSpec)
  | djz (a : BitVec 4) (m : AddrSpec)
  | slj (m : AddrSpec)
  -- synchronisation and system control
  | ts (m : AddrSpec)
  | tss (m : AddrSpec)
  | tcs (m : AddrSpec)
  | halt (d : BitVec 18)
  | ld (m : AddrSpec)
  | sd (m : AddrSpec)
  | ur
  deriving DecidableEq, Repr

end Sys2Proof
end

