-- ==== Sys2Proof/WellFormed.lean ====
section
/-! DEFINITION. What can be said of an instruction as syntax: the modes its row decodes in (spec/30_encoding.md R137,
R139), and the two operand conditions that the rules check (R143; spec/41_load_store.md R206 and
spec/42_arithmetic.md R248). -/

namespace Sys2Proof

/-- The instruction's row decodes in mode `m` (R139): nine rows are basic-only, sixteen are extended-only. -/
def Instr.availableIn (m : Mode) : Instr → Bool
  | .tzBasic .. | .tnzBasic .. | .tpBasic .. | .tnBasic .. => m == .basic
  | .j .. | .nop .. | .jc .. | .jnc .. | .slj .. => m == .basic
  | .tnop .. | .tgz .. | .tpz .. | .tp .. | .tmz .. | .tmzg .. | .tz .. | .tnlz .. => m == .extended
  | .tlz .. | .tnz .. | .tpzl .. | .tnmz .. | .tn .. | .tnpz .. | .tngz .. | .tskp .. => m == .extended
  | _ => true

/-- A register-pair instruction does not name A15 as its first register (R143). -/
def Instr.pairInRange : Instr → Bool
  | .au _ a _ | .anu _ a _ | .mi _ a _ | .di _ a _ | .dsf _ a _ | .df _ a _ => a != 15
  | .dl a _ | .dln a _ | .dlm a _ | .ds a _ | .da a _ | .dan a _ | .djz a _ => a != 15
  | .dsc a _ | .dsl a _ | .dsa a _ | .ldsc a _ | .ldsl a _ => a != 15
  | .tw _ a _ | .tnw _ a _ | .mlu _ a _ | .or _ a _ | .xor _ a _ | .and _ a _ => a != 15
  | _ => true

/-- A designator that names a field of a location: 00 to 015 (R135). -/
def isFieldDesignator (j : BitVec 4) : Bool := j != 14 && j != 15

/-- A store or an increment-family instruction does not have the immediate form, which has no location (R206, R248). -/
def Instr.hasStoreField : Instr → Bool
  | .sa jf _ _ | .sna jf _ _ | .sma jf _ _ | .sr jf _ _ | .sx jf _ _ => isFieldDesignator jf
  | .sz jf _ | .snz jf _ | .sp1 jf _ | .sn1 jf _ | .sfs jf _ | .sfz jf _ | .sas jf _ | .saz jf _ => isFieldDesignator jf
  | .inc jf _ | .dec jf _ | .inc2 jf _ | .dec2 jf _ | .enz jf _ | .add1 jf _ | .sub1 jf _ => isFieldDesignator jf
  | _ => true

/-- A well-formed instruction of mode `m`: it decodes there, and its rule gives its operand fields a meaning. Decoding
needs the first conjunct only (R142: Decode does not validate `j` and `a`). -/
def Instr.wellFormed (m : Mode) (i : Instr) : Bool :=
  i.availableIn m && i.pairInRange && i.hasStoreField

end Sys2Proof
end

