-- ==== Sys2Proof/Decode.lean ====
section
/-! DEFINITION. Decoding and encoding (spec/30_encoding.md R130 to R157). Every instruction is one word (R133); its fields
stand at the same places in both modes (R130), and the mode chooses the rows (R134). A word that matches no row is
rejected by name; what the processor then does is R150's (Machine/Fetch.lean). -/

namespace Sys2Proof

/-- The fields of an instruction word (R130). -/
structure Fields where
  f : BitVec 6
  j : BitVec 4
  a : BitVec 4
  m : AddrSpec
  deriving DecidableEq, Repr

/-- The address-specifier fields of a word, at the positions that instruction words and indirect words share (R85, R99). -/
def specOf (w : Word) : AddrSpec :=
  AddrSpec.mk (w.extractLsb' 18 4) (w.getLsbD 17) (w.getLsbD 16) (w.extractLsb' 0 16)

/-- The fields of an instruction word (R130). -/
def fieldsOf (w : Word) : Fields :=
  Fields.mk (w.extractLsb' 30 6) (w.extractLsb' 26 4) (w.extractLsb' 22 4) (specOf w)

/-- The word with given fields: the format `f j a x h i u` (R131, R132, R156). -/
def Fields.toWord (k : Fields) : Word :=
  k.f ++ k.j ++ k.a ++ k.m.x ++ BitVec.ofBool k.m.h ++ BitVec.ofBool k.m.i ++ k.m.u

/-- The literal operand of HALT, bits [17:0] (spec/45_system.md R365). -/
def literalOf (m : AddrSpec) : BitVec 18 := BitVec.ofBool m.h ++ BitVec.ofBool m.i ++ m.u

/-- The specifier whose bits [17:0] are `d`, with `x` zero. -/
def specOfLiteral (d : BitVec 18) : AddrSpec :=
  AddrSpec.mk 0 (d.getLsbD 17) (d.getLsbD 16) (d.extractLsb' 0 16)

/-- The specifier with every field zero. -/
def AddrSpec.zero : AddrSpec := AddrSpec.mk 0 false false 0

/-- Why Decode rejects a word: its mode and its `f`, `j` and `a` match no row of the opcode map (R141). -/
inductive DecodeReject where
  | unlisted (mode : Mode) (f : BitVec 6) (j a : BitVec 4)
  deriving DecidableEq, Repr

/-- Function 005: the sub-function is `a` (R140). -/
def decode005 (k : Fields) : Option Instr :=
  match k.a.toNat with
  | 0o00 => some (.sz k.j k.m)
  | 0o01 => some (.snz k.j k.m)
  | 0o02 => some (.sp1 k.j k.m)
  | 0o03 => some (.sn1 k.j k.m)
  | 0o04 => some (.sfs k.j k.m)
  | 0o05 => some (.sfz k.j k.m)
  | 0o06 => some (.sas k.j k.m)
  | 0o07 => some (.saz k.j k.m)
  | 0o10 => some (.inc k.j k.m)
  | 0o11 => some (.dec k.j k.m)
  | 0o12 => some (.inc2 k.j k.m)
  | 0o13 => some (.dec2 k.j k.m)
  | 0o14 => some (.enz k.j k.m)
  | 0o15 => some (.add1 k.j k.m)
  | 0o16 => some (.sub1 k.j k.m)
  | _ => none

/-- Function 050: TZ with `a` ignored in basic mode (R139), the sixteen tests selected by `a` in extended mode (R311). -/
def decode050 (mode : Mode) (k : Fields) : Option Instr :=
  match mode with
  | .basic => some (.tzBasic k.j k.m)
  | .extended =>
    match k.a.toNat with
    | 0o00 => some (.tnop k.j k.m)
    | 0o01 => some (.tgz k.j k.m)
    | 0o02 => some (.tpz k.j k.m)
    | 0o03 => some (.tp k.j k.m)
    | 0o04 => some (.tmz k.j k.m)
    | 0o05 => some (.tmzg k.j k.m)
    | 0o06 => some (.tz k.j k.m)
    | 0o07 => some (.tnlz k.j k.m)
    | 0o10 => some (.tlz k.j k.m)
    | 0o11 => some (.tnz k.j k.m)
    | 0o12 => some (.tpzl k.j k.m)
    | 0o13 => some (.tnmz k.j k.m)
    | 0o14 => some (.tn k.j k.m)
    | 0o15 => some (.tnpz k.j k.m)
    | 0o16 => some (.tngz k.j k.m)
    | _ => some (.tskp k.j k.m)

/-- Function 071: the double-word group, selected by `j` (R140). -/
def decode071 (k : Fields) : Option Instr :=
  match k.j.toNat with
  | 0o10 => some (.da k.a k.m)
  | 0o11 => some (.dan k.a k.m)
  | 0o12 => some (.ds k.a k.m)
  | 0o13 => some (.dl k.a k.m)
  | 0o14 => some (.dln k.a k.m)
  | 0o15 => some (.dlm k.a k.m)
  | 0o16 => some (.djz k.a k.m)
  | _ => none

/-- Function 073: shifts by `j`, and under `j` = 015 and 017 the system group by `a` (R140). -/
def decode073 (k : Fields) : Option Instr :=
  match k.j.toNat with
  | 0o00 => some (.ssc k.a k.m)
  | 0o01 => some (.dsc k.a k.m)
  | 0o02 => some (.ssl k.a k.m)
  | 0o03 => some (.dsl k.a k.m)
  | 0o04 => some (.ssa k.a k.m)
  | 0o05 => some (.dsa k.a k.m)
  | 0o10 => some (.lssc k.a k.m)
  | 0o11 => some (.ldsc k.a k.m)
  | 0o12 => some (.lssl k.a k.m)
  | 0o13 => some (.ldsl k.a k.m)
  | 0o15 =>
    match k.a.toNat with
    | 0o11 => some (.ld k.m)
    | 0o12 => some (.sd k.m)
    | 0o13 => some .ur
    | _ => none
  | 0o17 =>
    match k.a.toNat with
    | 0o00 => some (.ts k.m)
    | 0o01 => some (.tss k.m)
    | 0o02 => some (.tcs k.m)
    | 0o06 => some (.halt (literalOf k.m))
    | _ => none
  | _ => none

/-- A row that decodes in basic mode only (R139). -/
def basicOnly (mode : Mode) (i : Instr) : Option Instr :=
  match mode with
  | .basic => some i
  | .extended => none

/-- Function 074: the jumps, selected by `j` and for 04, 014 and 015 by `a` (R140). -/
def decode074 (mode : Mode) (k : Fields) : Option Instr :=
  match k.j.toNat with
  | 0o00 => some (.jz k.a k.m)
  | 0o01 => some (.jnz k.a k.m)
  | 0o02 => some (.jp k.a k.m)
  | 0o03 => some (.jn k.a k.m)
  | 0o04 => if k.a = 0 then basicOnly mode (.j k.m) else none
  | 0o06 => basicOnly mode (.nop k.m)
  | 0o12 => some (.jmgi k.a k.m)
  | 0o13 => some (.lmj k.a k.m)
  | 0o14 =>
    match k.a.toNat with
    | 0o00 => some (.jo k.m)
    | 0o03 => some (.jdf k.m)
    | _ => none
  | 0o15 =>
    match k.a.toNat with
    | 0o00 => some (.jno k.m)
    | 0o03 => some (.jndf k.m)
    | _ => none
  | 0o16 => basicOnly mode (.jc k.m)
  | 0o17 => basicOnly mode (.jnc k.m)
  | _ => none

/-- The row that the fields match in a mode, if any (R137, R141). -/
def rowOf (mode : Mode) (k : Fields) : Option Instr :=
  match k.f.toNat with
  | 0o01 => some (.sa k.j k.a k.m)
  | 0o02 => some (.sna k.j k.a k.m)
  | 0o03 => some (.sma k.j k.a k.m)
  | 0o04 => some (.sr k.j k.a k.m)
  | 0o05 => decode005 k
  | 0o06 => some (.sx k.j k.a k.m)
  | 0o10 => some (.la k.j k.a k.m)
  | 0o11 => some (.lna k.j k.a k.m)
  | 0o12 => some (.lma k.j k.a k.m)
  | 0o13 => some (.lnma k.j k.a k.m)
  | 0o14 => some (.aa k.j k.a k.m)
  | 0o15 => some (.ana k.j k.a k.m)
  | 0o16 => some (.ama k.j k.a k.m)
  | 0o17 => some (.anma k.j k.a k.m)
  | 0o20 => some (.au k.j k.a k.m)
  | 0o21 => some (.anu k.j k.a k.m)
  | 0o23 => some (.lr k.j k.a k.m)
  | 0o24 => some (.ax k.j k.a k.m)
  | 0o25 => some (.anx k.j k.a k.m)
  | 0o26 => some (.lxm k.j k.a k.m)
  | 0o27 => some (.lx k.j k.a k.m)
  | 0o30 => some (.mi k.j k.a k.m)
  | 0o34 => some (.di k.j k.a k.m)
  | 0o35 => some (.dsf k.j k.a k.m)
  | 0o36 => some (.df k.j k.a k.m)
  | 0o40 => some (.or k.j k.a k.m)
  | 0o41 => some (.xor k.j k.a k.m)
  | 0o42 => some (.and k.j k.a k.m)
  | 0o43 => some (.mlu k.j k.a k.m)
  | 0o46 => some (.lxi k.j k.a k.m)
  | 0o50 => decode050 mode k
  | 0o51 => basicOnly mode (.tnzBasic k.j k.m)
  | 0o52 => some (.te k.j k.a k.m)
  | 0o53 => some (.tne k.j k.a k.m)
  | 0o54 => some (.tle k.j k.a k.m)
  | 0o55 => some (.tg k.j k.a k.m)
  | 0o56 => some (.tw k.j k.a k.m)
  | 0o57 => some (.tnw k.j k.a k.m)
  | 0o60 => basicOnly mode (.tpBasic k.j k.m)
  | 0o61 => basicOnly mode (.tnBasic k.j k.m)
  | 0o70 => some (.jgd k.j k.a k.m)
  | 0o71 => decode071 k
  | 0o72 => if k.j = 1 then basicOnly mode (.slj k.m) else none
  | 0o73 => decode073 k
  | 0o74 => decode074 mode k
  | _ => none

/-- Decode (R141): the instruction of the one row that the word matches in the mode, or a rejection by name. -/
def decode (mode : Mode) (w : Word) : Except DecodeReject Instr :=
  match rowOf mode (fieldsOf w) with
  | some i => .ok i
  | none => .error (.unlisted mode (fieldsOf w).f (fieldsOf w).j (fieldsOf w).a)

/-- The fields of an instruction (R137): the row's fixed fields, the operands, and zero in an ignored field. -/
def Instr.fields : Instr → Fields
  | .la jf a m => Fields.mk 0o10 jf a m
  | .lna jf a m => Fields.mk 0o11 jf a m
  | .lma jf a m => Fields.mk 0o12 jf a m
  | .lnma jf a m => Fields.mk 0o13 jf a m
  | .lr jf a m => Fields.mk 0o23 jf a m
  | .lx jf a m => Fields.mk 0o27 jf a m
  | .lxm jf a m => Fields.mk 0o26 jf a m
  | .lxi jf a m => Fields.mk 0o46 jf a m
  | .sa jf a m => Fields.mk 0o01 jf a m
  | .sna jf a m => Fields.mk 0o02 jf a m
  | .sma jf a m => Fields.mk 0o03 jf a m
  | .sr jf a m => Fields.mk 0o04 jf a m
  | .sx jf a m => Fields.mk 0o06 jf a m
  | .ds a m => Fields.mk 0o71 0o12 a m
  | .dl a m => Fields.mk 0o71 0o13 a m
  | .dln a m => Fields.mk 0o71 0o14 a m
  | .dlm a m => Fields.mk 0o71 0o15 a m
  | .sz jf m => Fields.mk 0o05 jf 0o00 m
  | .snz jf m => Fields.mk 0o05 jf 0o01 m
  | .sp1 jf m => Fields.mk 0o05 jf 0o02 m
  | .sn1 jf m => Fields.mk 0o05 jf 0o03 m
  | .sfs jf m => Fields.mk 0o05 jf 0o04 m
  | .sfz jf m => Fields.mk 0o05 jf 0o05 m
  | .sas jf m => Fields.mk 0o05 jf 0o06 m
  | .saz jf m => Fields.mk 0o05 jf 0o07 m
  | .aa jf a m => Fields.mk 0o14 jf a m
  | .ana jf a m => Fields.mk 0o15 jf a m
  | .ama jf a m => Fields.mk 0o16 jf a m
  | .anma jf a m => Fields.mk 0o17 jf a m
  | .au jf a m => Fields.mk 0o20 jf a m
  | .anu jf a m => Fields.mk 0o21 jf a m
  | .ax jf a m => Fields.mk 0o24 jf a m
  | .anx jf a m => Fields.mk 0o25 jf a m
  | .mi jf a m => Fields.mk 0o30 jf a m
  | .di jf a m => Fields.mk 0o34 jf a m
  | .dsf jf a m => Fields.mk 0o35 jf a m
  | .df jf a m => Fields.mk 0o36 jf a m
  | .da a m => Fields.mk 0o71 0o10 a m
  | .dan a m => Fields.mk 0o71 0o11 a m
  | .inc jf m => Fields.mk 0o05 jf 0o10 m
  | .dec jf m => Fields.mk 0o05 jf 0o11 m
  | .inc2 jf m => Fields.mk 0o05 jf 0o12 m
  | .dec2 jf m => Fields.mk 0o05 jf 0o13 m
  | .enz jf m => Fields.mk 0o05 jf 0o14 m
  | .add1 jf m => Fields.mk 0o05 jf 0o15 m
  | .sub1 jf m => Fields.mk 0o05 jf 0o16 m
  | .or jf a m => Fields.mk 0o40 jf a m
  | .xor jf a m => Fields.mk 0o41 jf a m
  | .and jf a m => Fields.mk 0o42 jf a m
  | .mlu jf a m => Fields.mk 0o43 jf a m
  | .ssc a m => Fields.mk 0o73 0o00 a m
  | .dsc a m => Fields.mk 0o73 0o01 a m
  | .ssl a m => Fields.mk 0o73 0o02 a m
  | .dsl a m => Fields.mk 0o73 0o03 a m
  | .ssa a m => Fields.mk 0o73 0o04 a m
  | .dsa a m => Fields.mk 0o73 0o05 a m
  | .lssc a m => Fields.mk 0o73 0o10 a m
  | .ldsc a m => Fields.mk 0o73 0o11 a m
  | .lssl a m => Fields.mk 0o73 0o12 a m
  | .ldsl a m => Fields.mk 0o73 0o13 a m
  | .te jf a m => Fields.mk 0o52 jf a m
  | .tne jf a m => Fields.mk 0o53 jf a m
  | .tle jf a m => Fields.mk 0o54 jf a m
  | .tg jf a m => Fields.mk 0o55 jf a m
  | .tw jf a m => Fields.mk 0o56 jf a m
  | .tnw jf a m => Fields.mk 0o57 jf a m
  | .tzBasic jf m => Fields.mk 0o50 jf 0 m
  | .tnzBasic jf m => Fields.mk 0o51 jf 0 m
  | .tpBasic jf m => Fields.mk 0o60 jf 0 m
  | .tnBasic jf m => Fields.mk 0o61 jf 0 m
  | .tnop jf m => Fields.mk 0o50 jf 0o00 m
  | .tgz jf m => Fields.mk 0o50 jf 0o01 m
  | .tpz jf m => Fields.mk 0o50 jf 0o02 m
  | .tp jf m => Fields.mk 0o50 jf 0o03 m
  | .tmz jf m => Fields.mk 0o50 jf 0o04 m
  | .tmzg jf m => Fields.mk 0o50 jf 0o05 m
  | .tz jf m => Fields.mk 0o50 jf 0o06 m
  | .tnlz jf m => Fields.mk 0o50 jf 0o07 m
  | .tlz jf m => Fields.mk 0o50 jf 0o10 m
  | .tnz jf m => Fields.mk 0o50 jf 0o11 m
  | .tpzl jf m => Fields.mk 0o50 jf 0o12 m
  | .tnmz jf m => Fields.mk 0o50 jf 0o13 m
  | .tn jf m => Fields.mk 0o50 jf 0o14 m
  | .tnpz jf m => Fields.mk 0o50 jf 0o15 m
  | .tngz jf m => Fields.mk 0o50 jf 0o16 m
  | .tskp jf m => Fields.mk 0o50 jf 0o17 m
  | .jz a m => Fields.mk 0o74 0o00 a m
  | .jnz a m => Fields.mk 0o74 0o01 a m
  | .jp a m => Fields.mk 0o74 0o02 a m
  | .jn a m => Fields.mk 0o74 0o03 a m
  | .j m => Fields.mk 0o74 0o04 0o00 m
  | .nop m => Fields.mk 0o74 0o06 0o00 m
  | .jmgi a m => Fields.mk 0o74 0o12 a m
  | .lmj a m => Fields.mk 0o74 0o13 a m
  | .jo m => Fields.mk 0o74 0o14 0o00 m
  | .jdf m => Fields.mk 0o74 0o14 0o03 m
  | .jno m => Fields.mk 0o74 0o15 0o00 m
  | .jndf m => Fields.mk 0o74 0o15 0o03 m
  | .jc m => Fields.mk 0o74 0o16 0o00 m
  | .jnc m => Fields.mk 0o74 0o17 0o00 m
  | .jgd jf a m => Fields.mk 0o70 jf a m
  | .djz a m => Fields.mk 0o71 0o16 a m
  | .slj m => Fields.mk 0o72 0o01 0 m
  | .ts m => Fields.mk 0o73 0o17 0o00 m
  | .tss m => Fields.mk 0o73 0o17 0o01 m
  | .tcs m => Fields.mk 0o73 0o17 0o02 m
  | .halt d => Fields.mk 0o73 0o17 0o06 (specOfLiteral d)
  | .ld m => Fields.mk 0o73 0o15 0o11 m
  | .sd m => Fields.mk 0o73 0o15 0o12 m
  | .ur => Fields.mk 0o73 0o15 0o13 AddrSpec.zero

/-- The word of an instruction (R156). -/
def encode (i : Instr) : Word := i.fields.toWord

/-- The instruction that Decode reads from an instruction word whose bits are `w`, for a reader that gives no mode. The
rows of the two modes share words (R139), so the mode is: extended where the word is an extended-mode instruction, else
basic (notes/assumptions/4.md). Every instruction is one word (R133), so `nbits` is not needed, and a number that is no
36-bit word is no instruction. -/
def decodeTableWord (_nbits w : Nat) : Option Instr :=
  if w < 2 ^ 36 then
    match rowOf .extended (fieldsOf (BitVec.ofNat 36 w)) with
    | some i => some i
    | none => rowOf .basic (fieldsOf (BitVec.ofNat 36 w))
  else none

end Sys2Proof
end

