-- ==== Sys2Proof/Config.lean ====
section
/-! DEFINITION. What one implementation of the block fixes: the implementation parameters of spec/00_scope.md R7, and the
plain types they are stated in (interrupt classes, base-register values, access keys).

R7 says that an OPEN parameter is an argument of the model and that a claim holds for every value it admits. `exec` and
`step` have no argument to spare, so the parameters are one plain-data record that `State` carries and that no step
changes: a claim about every state is a claim about every value of every parameter. A parameter that is a function on a
finite domain is held by its graph, as a list that a lookup reads (notes/assumptions/1.md). -/

namespace Sys2Proof

/-- The interrupt classes (spec/60_exceptions.md R380), in the order of their numbers. The numbers stand in
Machine/Ops.lean. -/
inductive IntClass where
  | hardwareDefault | hardwareCheck | diagnostic
  | referenceViolation | addressingException | terminalAddressingException | rcsGenericStack
  | signal | testAndSet | invalidInstruction | pageException | arithmeticException
  | dataException | operationTrap | breakpoint
  | quantumTimer | pagesZeroed | softwareBreak | jumpHistoryFull | dayclock
  | performanceMonitoring | ipl | upiInitial | upiNormal
  deriving DecidableEq, Repr

/-- A subset of the access kinds execute, read and write (spec/10_state.md R36). -/
structure Perms where
  e : Bool
  r : Bool
  w : Bool
  deriving DecidableEq, Repr

/-- The access key, and the lock it is compared with: a ring 0-3 and a domain 0-65535 (R36, R41). -/
structure AccessKey where
  ring : Fin 4
  domain : Fin 65536
  deriving DecidableEq, Repr

/-- A base-register value (R36). `isVoid` is the spec's field `void`. No rule reads `sizeClass`. -/
structure BaseRegister where
  isVoid : Bool
  base : Nat
  lower : Nat
  upper : Nat
  lock : AccessKey
  gap : Perms
  sap : Perms
  sizeClass : Nat
  deriving DecidableEq, Repr

/-- The four base registers that basic mode selects among, B12 to B15 (R7 `basicSlots`; spec/20_memory.md R92). -/
inductive BasicSlot where
  | b12 | b13 | b14 | b15
  deriving DecidableEq, Repr

/-- One piece of the graph of `basicBankSelect` (R92): relative addresses `lo` to `hi`, at one privilege level and one
value of DR.basicBaseSelect (`none`: at every one), select `slot`. -/
structure BankRange where
  pp : Option (Fin 4)
  baseSelect : Option Bool
  lo : Nat
  hi : Nat
  slot : BasicSlot
  deriving DecidableEq, Repr

/-- One pair of the graph of `decodeBankDescriptor` (R40): the eight words, and the base-register value they denote. -/
structure DescriptorEntry where
  words : Vector Word 8
  value : BaseRegister
  deriving DecidableEq, Repr

/-- One pair of the graph of `entryDR` that differs from its default (spec/60_exceptions.md R400). -/
structure EntryDR where
  before : Word
  cls : IntClass
  after : Word
  deriving DecidableEq, Repr

/-- One pair of the graph of `entryKey` that differs from its default (R400). -/
structure EntryKey where
  before : AccessKey
  cls : IntClass
  after : AccessKey
  deriving DecidableEq, Repr

/-- An encoding outside the opcode table that the processor recognizes (spec/30_encoding.md R150). -/
structure RecognizedCode where
  basic : Bool
  f : BitVec 6
  j : BitVec 4
  a : BitVec 4
  deriving DecidableEq, Repr

/-- A free value: the GRS cell that JGD names when `j` has its high bit set, so that `j` and `a` together make a number past
127 (spec/44_test_jump.md R338 states the cell only for 0 to 127; notes/assumptions/9.md). -/
opaque jgdHighCell (j a : BitVec 4) : Fin 128

/-- The implementation parameters (R7). The fixed ones (36-bit words, 128 GRS cells, 16 base registers, 8 words a
descriptor, a GRS window of 128, 32 vectors, B0 for level 0) are built into the types and rules; `mpOrder` is out of a
model of one IP (notes/assumptions/20.md). -/
structure Params where
  /-- Width of an absolute address. -/
  absAddrBits : Nat
  /-- Words of main storage. -/
  storageSize : Nat
  /-- Most indirect-word fetches in one resolution (R100). -/
  maxIndirect : Nat
  /-- The base register that maps the interrupt control stack (R394). -/
  icsSlot : Fin 16
  /-- The GRS cell that holds the ICS pointer (R394). -/
  icsPointer : Fin 128
  /-- Words in an ICS frame (R399). -/
  icsFrameSize : Nat
  /-- Frames in the ICS (R394). -/
  icsMaxEntries : Nat
  /-- Base register of the bank descriptor table of levels 1 to 7, level 1 first; level 0 is B0 (R39, R397). -/
  bdtSlots : Vector (Fin 16) 7
  /-- The graph of `basicBankSelect`; the first piece that applies gives the slot, and none gives `none` (R92). -/
  basicBanks : List BankRange
  /-- The graph of `decodeBankDescriptor`; eight words with no pair here are an invalid descriptor (R397). -/
  descriptors : List DescriptorEntry
  /-- Where `entryDR` differs from the default of R400. -/
  entryDRs : List EntryDR
  /-- Where `entryKey` differs from the default of R400. -/
  entryKeys : List EntryKey
  /-- The classes that `stopOnInterrupt` holds of (R393). -/
  stopOnInterrupt : List IntClass
  /-- Whether ADD1 and SUB1 skip on a zero result (R246, R247). -/
  add1Skips : Bool
  /-- Whether fixed-point overflow is an arithmetic fault (R240); `false` is the spec's hardware. -/
  overflowIsFault : Bool
  /-- The encodings that `recognized` holds of (R150). -/
  recognized : List RecognizedCode
  deriving DecidableEq, Repr

end Sys2Proof
end

