-- ==== Sys2Proof/Machine/State.lean ====
section
/-! DEFINITION. The state of the machine as plain data (spec/10_state.md), the reasons a step can stop, and the state
after reset (spec/70_reset_and_hazards.md R430). INVENTORY.md lists every field with the rule that names it. -/

namespace Sys2Proof.Machine

/-- Main storage: (absolute address, word) pairs with rising addresses, none of whose words is the one that an unlisted
address reads as (R70; Machine/Ops.lean has the reads, the writes and the form). -/
structure Memory where
  cells : List (Nat × Word)
  deriving DecidableEq, Repr

/-- The stop reasons (spec/40_cycle.md R168). -/
inductive StopReason where
  | normalHalt | externalStop | interruptStop | icsOverflow | icsUnderflow | icsAccessFault | vectorFault
  deriving DecidableEq, Repr

/-- A pending interrupt (R42): its class, its detail word, and the saved PAR, `none` standing for the spec's `current`. -/
structure PendingInt where
  cls : IntClass
  detail : Word
  saved : Option Word
  deriving DecidableEq, Repr

/-- A pending write of the running instruction (R46): a GRS cell, a storage word, or the DR bits under a mask. A DR write
may survive a raise (R165). -/
inductive PendingWrite where
  | grs (n : Fin 128) (v : Word)
  | mem (abs : Nat) (v : Word)
  | dr (mask v : Word) (survives : Bool)
  deriving DecidableEq, Repr

/-- Faults: the machine stops. Raised by the storage accesses of Machine/Ops.lean. -/
inductive Fault where
  /-- An access to an absolute address at or past the end of main storage: the spec gives the IP no step (stuck,
  spec/20_memory.md R76). Safe: the run ends and nothing is claimed after it. -/
  | absentStorage (abs : Nat)
  deriving DecidableEq, Repr

/-- Refusals: the model gives no meaning (R169), each where the spec says `refuse`. Every one is safe: the run ends. -/
inductive Refusal where
  /-- An instruction that has no meaning in this model yet; only `exec`'s own arms answer it. -/
  | notModelled (mnemonic : String)
  /-- An encoding outside the table that the processor recognizes (R150). Raised by Machine/Fetch.lean. -/
  | unspecifiedInstruction
  /-- An extended-mode operand that names base register 0 (R94). Raised by the operand resolver. -/
  | b0Operand
  /-- A GRS cell 0120 to 0177 addressed at a privilege other than 0 (R97, R338). Raised by the resolver and by JGD. -/
  | execGRSFromNonExec
  /-- An extended-mode target with the indirect flag (R109). Raised by the target resolver. -/
  | extendedIndirectTarget
  /-- A double-word operand whose first word is GRS cell 127 (R110). Raised by the operand resolver. -/
  | grsPairOverflow
  /-- A register-pair instruction with `a` = 15 (R143). Raised by the pair instructions. -/
  | pairOverflow
  /-- The immediate form of a store, but for basic mode at a privilege other than 0 (R206). Raised by the stores. -/
  | immediateStore
  /-- The immediate form of an increment-family instruction, likewise (R248). Raised by that family. -/
  | immediateIncrement
  /-- HALT, LD, SD or UR at a privilege other than 0 (R360). Raised by those four. -/
  | privilegedInstruction
  /-- An LD that would change DR.basicMode (R366). Raised by LD. -/
  | modeChangeByLD
  /-- A host call other than `stop`, `post` and `isRunning` while the IP runs (R440). Raised by Machine/HostCalls.lean. -/
  | hostCallWhileRunning
  /-- A post of an unused class number or of a synchronous class (R384). Raised by Machine/HostCalls.lean. -/
  | unpostableClass
  /-- An install of a non-void bank whose lower limit is above its upper limit (R37). Raised by Machine/HostCalls.lean. -/
  | misorderedLimits
  /-- An install of a bank whose base is no absolute address of `absAddrBits` bits (R36). Raised by Machine/HostCalls.lean. -/
  | wideBase
  deriving DecidableEq, Repr

/-- The state of one IP, of the main storage it reads, and the implementation parameters. -/
structure State where
  /-- The general register set (R20). -/
  grs : Vector Word 128
  /-- The designator register (R28). -/
  dr : Word
  /-- The program address register (R33). -/
  par : Word
  /-- The base registers B0 to B15 (R36). -/
  br : Vector BaseRegister 16
  /-- The program bank register PB, hidden (R45). -/
  pb : BaseRegister
  /-- The access key, hidden (R41). -/
  key : AccessKey
  /-- The pending interrupts, one entry a class, by rising class number (R42). -/
  pending : List PendingInt
  /-- Whether the IP runs (R43). -/
  running : Bool
  /-- The last stop's reason (R43). -/
  stopReason : StopReason
  /-- The last stop's detail (R43). -/
  stopDetail : Word
  /-- The host has asked for a stop (R47). -/
  stopRequested : Bool
  /-- The running instruction's pending writes, oldest first (R46); empty between instructions. -/
  pw : List PendingWrite
  /-- Main storage (R70). -/
  memory : Memory
  /-- The implementation parameters (spec/00_scope.md R7); no step changes them. -/
  params : Params
  deriving DecidableEq, Repr

/-- The base-register value that every base register and PB holds at reset: every field zero. DESIGN CHOICE
(notes/assumptions/2.md): R430 gives none, and says that it is not a void bank. -/
def zeroBank : BaseRegister :=
  BaseRegister.mk false 0 0 0 (AccessKey.mk 0 0) (Perms.mk false false false) (Perms.mk false false false) 0

/-- The parameters at reset. DESIGN CHOICE (notes/assumptions/1.md): R7 leaves every one of them OPEN but `add1Skips` and
`overflowIsFault`; the four bank ranges split the 16-bit address by its two high-order bits. -/
def resetParams : Params where
  absAddrBits := 36
  storageSize := 2 ^ 36
  maxIndirect := 1
  icsSlot := 1
  icsPointer := 0
  icsFrameSize := 4
  icsMaxEntries := 1
  bdtSlots := #v[1, 2, 3, 4, 5, 6, 7]
  basicBanks := [BankRange.mk none none 0o000000 0o037777 .b12, BankRange.mk none none 0o040000 0o077777 .b13,
    BankRange.mk none none 0o100000 0o137777 .b14, BankRange.mk none none 0o140000 0o177777 .b15]
  descriptors := []
  entryDRs := []
  entryKeys := []
  stopOnInterrupt := []
  add1Skips := true
  overflowIsFault := false
  recognized := []

/-- The IP after reset (R430): stopped, nothing pending, no stop requested, no pending write. Every register, which R430
leaves unwritten, holds zero, and storage lists nothing. DESIGN CHOICE (notes/assumptions/2.md, 3.md). -/
def State.reset : State where
  grs := Vector.replicate 128 0
  dr := 0
  par := 0
  br := Vector.replicate 16 zeroBank
  pb := zeroBank
  key := AccessKey.mk 0 0
  pending := []
  running := false
  stopReason := .normalHalt
  stopDetail := 0
  stopRequested := false
  pw := []
  memory := Memory.mk []
  params := resetParams

/-- What one step, or one instruction, comes to. -/
abbrev Result := Host.Outcome State Fault Refusal

end Sys2Proof.Machine
end

