-- ==== Sys2Proof/Machine/Ops.lean ====
section
/-! DEFINITION. The named operations over the state: registers and their fields, main storage, pending writes, stopping,
taking an interrupt and returning from one, and how an instruction's outcome ends its step. The rules are those of
spec/10_state.md, spec/20_memory.md part 1, spec/40_cycle.md and spec/60_exceptions.md. -/

namespace Sys2Proof

/-- The class number (spec/60_exceptions.md R380). -/
def IntClass.number : IntClass → Nat
  | .hardwareDefault => 0
  | .hardwareCheck => 1
  | .diagnostic => 2
  | .referenceViolation => 8
  | .addressingException => 9
  | .terminalAddressingException => 10
  | .rcsGenericStack => 11
  | .signal => 12
  | .testAndSet => 13
  | .invalidInstruction => 14
  | .pageException => 15
  | .arithmeticException => 16
  | .dataException => 17
  | .operationTrap => 18
  | .breakpoint => 19
  | .quantumTimer => 20
  | .pagesZeroed => 23
  | .softwareBreak => 24
  | .jumpHistoryFull => 25
  | .dayclock => 27
  | .performanceMonitoring => 28
  | .ipl => 29
  | .upiInitial => 30
  | .upiNormal => 31

/-- The class number as a word: a frame word, or a stop detail (R168, R399). -/
def IntClass.word (c : IntClass) : Word := BitVec.ofNat 36 c.number

/-- A synchronous class: 8 to 19 (R381). -/
def IntClass.isSync (c : IntClass) : Bool := decide (8 ≤ c.number) && decide (c.number ≤ 19)

/-- A deferrable class: 20 to 31 (R385). -/
def IntClass.isDeferrable (c : IntClass) : Bool := decide (20 ≤ c.number)

/-- Every access kind of `p` is in `q` (R115). -/
def Perms.subset (p q : Perms) : Bool := (!p.e || q.e) && (!p.r || q.r) && (!p.w || q.w)

/-- The access sets that the rules ask for (R111). -/
def Perms.exec : Perms := Perms.mk true false false
def Perms.read : Perms := Perms.mk false true false
def Perms.write : Perms := Perms.mk false false true
def Perms.readWrite : Perms := Perms.mk false true true

/-- The permissions of a bank under an access key: the special set where the key's ring is below the lock's or the domains
are equal, else the general set (R115). -/
def BaseRegister.permissions (b : BaseRegister) (key : AccessKey) : Perms :=
  if key.ring < b.lock.ring ∨ key.domain = b.lock.domain then b.sap else b.gap

/-- The relative address is within the bank's limits, both inclusive (R102). -/
def BaseRegister.holds (b : BaseRegister) (rel : Nat) : Bool := decide (b.lower ≤ rel) && decide (rel ≤ b.upper)

/-- A non-void bank's limits are in order (R37). -/
def BaseRegister.limitsOrdered (b : BaseRegister) : Bool := b.isVoid || decide (b.lower ≤ b.upper)

/-- The base is an absolute address of the given width (R36). -/
def BaseRegister.baseFits (b : BaseRegister) (bits : Nat) : Bool := decide (b.base < 2 ^ bits)

/-- A base-register value that a slot or PB may hold: limits in order and a base of the given width (R36, R37). -/
def BaseRegister.legal (b : BaseRegister) (bits : Nat) : Bool := b.limitsOrdered && b.baseFits bits

/-- The number of a basic-mode slot (R92). -/
def BasicSlot.number : BasicSlot → Fin 16
  | .b12 => 12
  | .b13 => 13
  | .b14 => 14
  | .b15 => 15

end Sys2Proof

namespace Sys2Proof.Machine

/-! ### The designator register (R30) -/

def State.basicMode (s : State) : Bool := s.dr.getLsbD 19
def State.execRegisterSet (s : State) : Bool := s.dr.getLsbD 18
def State.ix24 (s : State) : Bool := s.dr.getLsbD 33
def State.deferrableEnabled (s : State) : Bool := s.dr.getLsbD 31
def State.carry (s : State) : Bool := s.dr.getLsbD 17
def State.overflow (s : State) : Bool := s.dr.getLsbD 16
def State.divideCheck (s : State) : Bool := s.dr.getLsbD 13
def State.arithExceptionEnabled (s : State) : Bool := s.dr.getLsbD 6
def State.quarterWord (s : State) : Bool := s.dr.getLsbD 3

/-- The processor privilege of a DR value, 0 (most privileged) to 3 (R31). -/
def ppOf (dr : Word) : Fin 4 := (dr.extractLsb' 20 2).toFin

def State.pp (s : State) : Fin 4 := ppOf s.dr

/-- DR.basicMode as the decoder's mode (R134). -/
def State.mode (s : State) : Mode := if s.basicMode then .basic else .extended

/-- The DR word with only the bits of a list set: the masks of the flag writes. -/
def drMask (bits : List Nat) : Word := bits.foldl (fun m b => m ||| (1#36 <<< b)) 0

/-! ### The program address register (R33, R34) -/

def parLevel (par : Word) : BitVec 3 := par.extractLsb' 33 3
def parBDI (par : Word) : BitVec 15 := par.extractLsb' 18 15
def parOffset (par : Word) : BitVec 18 := par.extractLsb' 0 18

/-- The PAR with another offset; L and BDI are kept (R166). -/
def withOffset (par : Word) (off : BitVec 18) : Word := par.extractLsb' 18 18 ++ off

/-! ### The general register set (R20 to R26) -/

/-- The cell of A(n) in the selected register set (R24). -/
def State.aCell (s : State) (n : BitVec 4) : Fin 128 := Fin.ofNat 128 ((if s.execRegisterSet then 108 else 12) + n.toNat)

/-- The cell of X(n) in the selected register set (R24). -/
def State.xCell (s : State) (n : BitVec 4) : Fin 128 := Fin.ofNat 128 ((if s.execRegisterSet then 96 else 0) + n.toNat)

/-- The cell of R(n) in the selected register set (R24). -/
def State.rCell (s : State) (n : BitVec 4) : Fin 128 := Fin.ofNat 128 ((if s.execRegisterSet then 80 else 64) + n.toNat)

/-- A cell's value after one pending write. -/
def overlayGrs (n : Fin 128) (v : Word) : PendingWrite → Word
  | .grs k w => if k = n then w else v
  | _ => v

/-- The pending-visible value of a GRS cell: the last pending write of it, else the cell (R26). -/
def State.readGrs (s : State) (n : Fin 128) : Word := s.pw.foldl (overlayGrs n) s.grs[n]

/-- Append a pending write (R46). -/
def State.pend (s : State) (w : PendingWrite) : State :=
  { s with pw := s.pw ++ [w] }

/-- A pending write of a GRS cell (R9, R25). -/
def State.writeGrs (s : State) (n : Fin 128) (v : Word) : State := s.pend (.grs n v)

def State.readA (s : State) (n : BitVec 4) : Word := s.readGrs (s.aCell n)
def State.readX (s : State) (n : BitVec 4) : Word := s.readGrs (s.xCell n)
def State.readR (s : State) (n : BitVec 4) : Word := s.readGrs (s.rCell n)
def State.writeA (s : State) (n : BitVec 4) (v : Word) : State := s.writeGrs (s.aCell n) v
def State.writeX (s : State) (n : BitVec 4) (v : Word) : State := s.writeGrs (s.xCell n) v
def State.writeR (s : State) (n : BitVec 4) (v : Word) : State := s.writeGrs (s.rCell n) v

/-- The double word (A(n), A(n+1)), A(n) the upper half (R220). -/
def State.readAA (s : State) (n : BitVec 4) : DWord := s.readA n ++ s.readA (n + 1)

/-- Write the halves of a double word to A(n), A(n+1), in this order. -/
def State.writeAA (s : State) (n : BitVec 4) (d : DWord) : State :=
  (s.writeA n (d.extractLsb' 36 36)).writeA (n + 1) (d.extractLsb' 0 36)

/-! ### Main storage (R70, R78) -/

/-- What an address that nothing has written reads as. DESIGN CHOICE (notes/assumptions/3.md). -/
def unlistedWord : Word := 0

/-- The first listed word at an address. -/
def readCells : List (Nat × Word) → Nat → Word
  | [], _ => unlistedWord
  | (b, v) :: m, a => if b = a then v else readCells m a

/-- Write a word into a rising list, listing no word that an unlisted address reads as. -/
def writeCells : List (Nat × Word) → Nat → Word → List (Nat × Word)
  | [], a, v => if v = unlistedWord then [] else [(a, v)]
  | (b, w) :: m, a, v =>
    if a < b then (if v = unlistedWord then (b, w) :: m else (a, v) :: (b, w) :: m)
    else if a = b then (if v = unlistedWord then m else (a, v) :: m)
    else (b, w) :: writeCells m a v

/-- Storage is in its one canonical form: addresses strictly rise, and no listed word is the unlisted one. -/
abbrev Memory.wf (m : Memory) : Prop :=
  m.cells.Pairwise (fun p q => p.1 < q.1) ∧ ∀ p ∈ m.cells, p.2 ≠ unlistedWord

/-- `MemRead` of one word (R70). -/
def Memory.read (m : Memory) (abs : Nat) : Word := readCells m.cells abs

/-- `MemWrite` of one word (R70). -/
def Memory.write (m : Memory) (abs : Nat) (v : Word) : Memory := Memory.mk (writeCells m.cells abs v)

/-- `MemWrite` of consecutive words from an address on. -/
def Memory.writeList (m : Memory) (abs : Nat) : List Word → Memory
  | [] => m
  | v :: vs => (m.write abs v).writeList (abs + 1) vs

/-! ### Pending writes at Writeback (R165) -/

/-- Perform one pending write. -/
def State.apply (s : State) : PendingWrite → State
  | .grs n v => { s with grs := s.grs.set n v }
  | .mem abs v => { s with memory := s.memory.write abs v }
  | .dr mask v _ => { s with dr := (s.dr &&& ~~~mask) ||| (v &&& mask) }

/-- Perform the pending writes in order and empty the list (R165). -/
def State.commit (s : State) : State :=
  let t := s.pw.foldl State.apply s
  { t with pw := [] }

/-- Only a DR write marked so survives a raise; a storage write is never marked (R165). -/
def PendingWrite.survives : PendingWrite → Bool
  | .dr _ _ k => k
  | _ => false

/-- Keep the pending writes that survive a raise (R165, R173). -/
def State.keepSurvivors (s : State) : State :=
  { s with pw := s.pw.filter PendingWrite.survives }

/-- Drop every pending write. -/
def State.discard (s : State) : State :=
  { s with pw := [] }

/-! ### Stopping (R168) -/

/-- `stop(reason, detail)`: every register, the PAR and `pending` are kept (R168). -/
def State.stopWith (s : State) (r : StopReason) (detail : Word) : State :=
  { s with running := false, stopReason := r, stopDetail := detail }

/-- The end of InterruptCheck: an external stop takes effect at the instruction boundary (R167). -/
def State.honourStop (s : State) : State :=
  if s.running && s.stopRequested then { s with stopRequested := false }.stopWith .externalStop 0 else s

/-! ### Pending interrupts (R42, R384 to R386) -/

/-- Add an entry at its place by class number; a class that is already pending keeps its first entry (R384). -/
def insertPending (e : PendingInt) : List PendingInt → List PendingInt
  | [] => [e]
  | p :: ps =>
    if e.cls = p.cls then p :: ps
    else if e.cls.number < p.cls.number then e :: p :: ps
    else p :: insertPending e ps

def State.addPending (s : State) (e : PendingInt) : State :=
  { s with pending := insertPending e s.pending }

/-- The class is deferred: deferrable, and DR.deferrableEnabled is 0 (R385). -/
def State.isDeferred (s : State) (c : IntClass) : Bool := c.isDeferrable && !s.deferrableEnabled

/-- The entry of the lowest class number, the highest priority (R386). -/
def highestPriority : List PendingInt → Option PendingInt
  | [] => none
  | p :: ps =>
    match highestPriority ps with
    | none => some p
    | some q => if q.cls.number < p.cls.number then some q else some p

/-- The interrupt that InterruptCheck enters: the highest-priority pending one that is not deferred (R167). -/
def State.dueInterrupt (s : State) : Option PendingInt :=
  highestPriority (s.pending.filter fun p => !s.isDeferred p.cls)

/-- Remove a class from the pending interrupts (R392). -/
def State.removePending (s : State) (c : IntClass) : State :=
  { s with pending := s.pending.filter fun p => p.cls != c }

/-! ### The processor's own accesses to storage, for interrupt entry and return -/

/-- What such an access comes to: a value, a fatal stop, or an absent address (R76). It changes no state. -/
inductive Probe (α : Type) where
  | ok (v : α)
  | fails (r : StopReason)
  | stuck (f : Fault)
  deriving DecidableEq, Repr

/-- Go on with the value, if there is one. -/
def Probe.bind {α β : Type} (x : Probe α) (f : α → Probe β) : Probe β :=
  match x with
  | .ok v => f v
  | .fails r => .fails r
  | .stuck e => .stuck e

/-- `MemRead`, stuck at or past the end of storage (R76). -/
def State.probeWord (s : State) (abs : Nat) : Probe Word :=
  if abs < s.params.storageSize then .ok (s.memory.read abs) else .stuck (.absentStorage abs)

/-- `n` consecutive words (R397). -/
def State.probeWords (s : State) (abs : Nat) : (n : Nat) → Probe (Vector Word n)
  | 0 => .ok #v[]
  | n + 1 => (s.probeWords abs n).bind fun ws => (s.probeWord (abs + n)).bind fun w => .ok (ws.push w)

/-- The base register of a level's bank descriptor table: B0 for level 0 (R39, R397). -/
def State.bdtSlot (s : State) (level : BitVec 3) : Fin 16 :=
  if level = 0 then 0 else s.params.bdtSlots[(level.toNat - 1)]?.getD 0

/-- `decodeBankDescriptor`: the value that the parameter's graph pairs with the words; `none` is `invalid` (R40). -/
def State.decodeBankDescriptor (s : State) (ws : Vector Word 8) : Option BaseRegister :=
  (s.params.descriptors.find? fun e => e.words == ws).map (·.value)

/-- `loadPB(L, BDI)`: decode the bank descriptor at relative address 8·BDI of the level's table (R397). -/
def State.loadPB (s : State) (par : Word) : Probe BaseRegister :=
  let t := s.br[s.bdtSlot (parLevel par)]
  let at0 := 8 * (parBDI par).toNat
  if t.isVoid || decide (at0 < t.lower) || decide (t.upper < at0 + 7) then .fails .vectorFault
  else
    (s.probeWords (t.base + at0) 8).bind fun ws =>
      match s.decodeBankDescriptor ws with
      | some b => .ok b
      | none => .fails .vectorFault

/-- `readVector(c)`: the word at relative address `c` of the bank in B0, with no permission check (R396). -/
def State.readVector (s : State) (c : IntClass) : Probe Word :=
  let b := s.br[0]
  if b.isVoid || !b.holds c.number then .fails .vectorFault else s.probeWord (b.base + c.number)

/-- The ICS pointer, bits [17:0] of its cell (R394). -/
def State.icsPointer (s : State) : BitVec 18 := (s.grs[s.params.icsPointer]).extractLsb' 0 18

/-- The cell of the ICS pointer with another pointer; bits [35:18] are kept (R398). -/
def State.withIcsPointer (s : State) (p : Nat) : Word :=
  (s.grs[s.params.icsPointer]).extractLsb' 18 18 ++ BitVec.ofNat 18 p

/-- `checkICS(p, n, acc)`: the words `p` to `p + n - 1` are in the ICS bank and may be accessed; the answer is the
absolute address of the first (R394). -/
def State.checkICS (s : State) (p n : Nat) (acc : Perms) : Probe Nat :=
  let b := s.br[s.params.icsSlot]
  if b.isVoid || decide (p < b.lower) || decide (b.upper + 1 < p + n) || !acc.subset (b.permissions s.key) then
    .fails .icsAccessFault
  else .ok (b.base + p)

/-! ### Taking an interrupt (R392 to R400) -/

/-- The default of `entryDR`: extended mode, exec register set, privilege 0, deferrable classes off, and faultHandling set
by a synchronous class; every other bit is kept (R400). -/
def defaultEntryDR (dr : Word) (c : IntClass) : Word :=
  let d := (dr &&& ~~~(drMask [19, 20, 21, 31])) ||| drMask [18]
  if c.isSync then d ||| drMask [34] else d

/-- `entryDR(DR, c)` (R400). -/
def State.entryDR (s : State) (c : IntClass) : Word :=
  match s.params.entryDRs.find? fun e => e.before == s.dr && e.cls == c with
  | some e => e.after
  | none => defaultEntryDR s.dr c

/-- `entryKey(key, c)`: unchanged by default (R400). -/
def State.entryKey (s : State) (c : IntClass) : AccessKey :=
  match s.params.entryKeys.find? fun e => e.before == s.key && e.cls == c with
  | some e => e.after
  | none => s.key

/-- The frame that entry pushes: saved PAR, DR, class, detail, zeros (R399). -/
def frameWords (size : Nat) (sp dr : Word) (c : IntClass) (detail : Word) : List Word :=
  ([sp, dr, c.word, detail] ++ List.replicate (size - 4) 0).take size

/-- What the checks of an entry find: the vector, the frame's absolute address, and the program bank of an extended-mode
handler (R392). -/
structure Entry where
  vector : Word
  frameAt : Nat
  bank : Option BaseRegister
  deriving DecidableEq, Repr

/-- The words of the frame all lie in storage (R76). -/
def State.probeFrame (s : State) (abs : Nat) : Probe Nat :=
  if abs + s.params.icsFrameSize ≤ s.params.storageSize then .ok abs
  else .stuck (.absentStorage (max abs s.params.storageSize))

/-- The program bank of the handler: none in basic mode, else the bank that the PAR names (R392, R397). -/
def State.bankFor (s : State) (dr par : Word) : Probe (Option BaseRegister) :=
  if dr.getLsbD 19 then .ok none else (s.loadPB par).bind fun b => .ok (some b)

/-- Every check of the entry to a class, in R392's order, before anything is written. -/
def State.entryChecks (s : State) (c : IntClass) : Probe Entry :=
  if c ∈ s.params.stopOnInterrupt then .fails .interruptStop
  else
    (s.readVector c).bind fun vec =>
      let p := s.icsPointer.toNat
      let n := s.params.icsFrameSize
      if p + n > s.params.icsMaxEntries * n then .fails .icsOverflow
      else
        (s.checkICS p n Perms.write).bind fun frameAt =>
          (s.bankFor (s.entryDR c) vec).bind fun bank =>
            (s.probeFrame frameAt).bind fun frameAt => .ok (Entry.mk vec frameAt bank)

/-- The writes of an entry, all of them after its checks (R392, R398, R399). -/
def State.applyEntry (s : State) (p : PendingInt) (e : Entry) : State :=
  { s with
    memory := s.memory.writeList e.frameAt
      (frameWords s.params.icsFrameSize (p.saved.getD s.par) s.dr p.cls p.detail)
    grs := s.grs.set s.params.icsPointer (s.withIcsPointer (s.icsPointer.toNat + s.params.icsFrameSize))
    dr := s.entryDR p.cls
    key := s.entryKey p.cls
    par := e.vector
    pb := e.bank.getD s.pb }

/-- The stop of an entry whose checks fail, with the class number as its detail. A fatal stop keeps every register; the
stop of a class of `stopOnInterrupt` puts the PAR at the instruction of the saved PAR (R392, R393, R395, R403;
notes/assumptions/11.md). -/
def State.stopEntry (s : State) (p : PendingInt) (r : StopReason) : State :=
  { s with par := if p.cls ∈ s.params.stopOnInterrupt then p.saved.getD s.par else s.par }.stopWith r p.cls.word

/-- `enter(c)`: one indivisible transition. A failing check stops the processor, with nothing pushed (R392, R393, R395,
R403). -/
def State.enter (s : State) (p : PendingInt) : Result :=
  let t := s.removePending p.cls
  match t.entryChecks p.cls with
  | .ok e => .next (t.applyEntry p e)
  | .fails r => .next (t.stopEntry p r)
  | .stuck f => .fault f

/-- InterruptCheck: at most one entry, then the external stop (R167). -/
def State.interruptCheck (s : State) : Result :=
  match s.dueInterrupt with
  | none => .next s.honourStop
  | some p =>
    match s.enter p with
    | .next t => .next t.honourStop
    | .fault f => .fault f
    | .refused r => .refused r

/-- A synchronous raise: the class becomes pending with the faulting instruction's PAR, and InterruptCheck follows (R173,
R384, R390). -/
def State.takeSync (s : State) (c : IntClass) (detail : Word) : Result :=
  (s.addPending (PendingInt.mk c detail (some s.par))).interruptCheck

/-! ### How an instruction ends (R160, R164 to R173) -/

/-- How Execute ends (R164). `jumpPar` is UR's jump, which sets the whole PAR (R166). -/
inductive Act where
  | seq
  | skip
  | jump (t : BitVec 18)
  | jumpPar (par : Word)
  | halt (d : BitVec 18)
  deriving DecidableEq, Repr

/-- What a piece of an instruction comes to: a value and the state with its pending writes so far, a synchronous raise, a
fatal stop, a refusal, or an absent storage address. -/
inductive Res (α : Type) where
  | ok (v : α) (s : State)
  | raised (c : IntClass) (detail : Word) (s : State)
  | fatal (r : StopReason) (detail : Word) (s : State)
  | refused (r : Refusal)
  | stuck (f : Fault)
  deriving DecidableEq, Repr

/-- Go on with the value and the state, if there are any; the first condition met ends the instruction (R382). -/
def Res.bind {α β : Type} (x : Res α) (f : α → State → Res β) : Res β :=
  match x with
  | .ok v s => f v s
  | .raised c d s => .raised c d s
  | .fatal r d s => .fatal r d s
  | .refused r => .refused r
  | .stuck e => .stuck e

/-- The PAR after an instruction that completes (R166). -/
def nextPar (par : Word) : Act → Word
  | .seq => withOffset par (parOffset par + 1)
  | .skip => withOffset par (parOffset par + 2)
  | .jump t => withOffset par t
  | .jumpPar p => p
  | .halt _ => withOffset par (parOffset par + 1)

/-- Writeback of an instruction that completes: the pending writes, then the PAR (R160, R165, R166). -/
def State.writeback (s : State) (act : Act) : State :=
  { s.commit with par := nextPar s.par act }

/-- The end of an instruction that completes: Writeback, then the stop of a HALT, which skips InterruptCheck, or else
InterruptCheck (R160, R365). -/
def State.complete (s : State) (act : Act) : Result :=
  match act with
  | .halt d => .next ((s.writeback act).stopWith .normalHalt (d.setWidth 36))
  | _ => (s.writeback act).interruptCheck

/-- Go on with the value and the state to the end of the step, or end the step here: a raise drops the pending writes but
the survivors and takes the interrupt (R160, R173); a fatal stop drops them all (R168, R388). -/
def Res.finishWith {α : Type} (x : Res α) (k : α → State → Result) : Result :=
  match x with
  | .ok v s => k v s
  | .raised c d s => s.keepSurvivors.commit.takeSync c d
  | .fatal r d s => .next (s.discard.stopWith r d)
  | .refused r => .refused r
  | .stuck f => .fault f

/-- The end of an instruction (R160, R173). -/
def Res.finish (x : Res Act) : Result := x.finishWith fun act s => s.complete act

/-- One instruction after Decode: its resolution and Execute on an empty list of pending writes, then its end (R160). -/
def runInstr (body : State → Res Act) (s : State) : Result := (body s.discard).finish

/-- Refuse an instruction at a privilege other than 0 (R360). -/
def State.privileged (s : State) : Res Unit := if s.pp = 0 then .ok () s else .refused .privilegedInstruction

/-- Refuse a register pair that starts at A15 (R143). -/
def State.pair (s : State) (a : BitVec 4) : Res Unit := if a = 15 then .refused .pairOverflow else .ok () s

/-- A probe inside an instruction: a failure is a fatal stop with detail 0 (R168, R368). -/
def State.probed {α : Type} (s : State) : Probe α → Res α
  | .ok v => .ok v s
  | .fails r => .fatal r 0 s
  | .stuck f => .stuck f

/-! ### Returning from an interrupt (R368, R401) -/

/-- UR after its privilege check: pop one frame, restore the PAR and the DR, and reload PB for an extended-mode DR. Every
failure is a fatal stop with detail 0 (R368). -/
def State.returnFromInterrupt (s : State) : Res Act :=
  let p := s.icsPointer.toNat
  let n := s.params.icsFrameSize
  if p < n then .fatal .icsUnderflow 0 s
  else
    (s.probed (s.checkICS (p - n) 2 Perms.read)).bind fun abs s =>
      (s.probed (s.probeWord abs)).bind fun newPar s =>
        (s.probed (s.probeWord (abs + 1))).bind fun newDr s =>
          (s.probed (s.bankFor newDr newPar)).bind fun bank s =>
            .ok (.jumpPar newPar)
              ((({ s with pb := bank.getD s.pb }).writeGrs s.params.icsPointer (s.withIcsPointer (p - n))).pend
                (.dr (BitVec.allOnes 36) newDr false))

end Sys2Proof.Machine
end

