-- ==== Sys2Proof/Machine/Operands.lean ====
section
/-! DEFINITION. Address resolution and the operand forms (spec/20_memory.md part 2): indexing, base selection, the GRS
short-circuit, indirection, limit and permission checks, translation, partial words, immediates, targets and double-word
operands. The resolver writes nothing but the pending index increment (R113). -/

namespace Sys2Proof

/-- The overlay fields of a word (spec/00_scope.md R11), and the whole word. -/
inductive Overlay where
  | w | h1 | h2 | t1 | t2 | t3 | q1 | q2 | q3 | q4 | s1 | s2 | s3 | s4 | s5 | s6
  deriving DecidableEq, Repr

/-- The lowest bit of a field (R11). -/
def Overlay.lo : Overlay → Nat
  | .w => 0
  | .h1 => 18
  | .h2 => 0
  | .t1 => 24
  | .t2 => 12
  | .t3 => 0
  | .q1 => 27
  | .q2 => 18
  | .q3 => 9
  | .q4 => 0
  | .s1 => 30
  | .s2 => 24
  | .s3 => 18
  | .s4 => 12
  | .s5 => 6
  | .s6 => 0

/-- The width of a field (R11). -/
def Overlay.width : Overlay → Nat
  | .w => 36
  | .h1 | .h2 => 18
  | .t1 | .t2 | .t3 => 12
  | .q1 | .q2 | .q3 | .q4 => 9
  | .s1 | .s2 | .s3 | .s4 | .s5 | .s6 => 6

/-- `canon`: a negative zero becomes positive zero (R12). -/
def canon (v : Word) : Word := if v = negZero then 0 else v

/-- A field, extended with zeros to a word. -/
def Overlay.getZ (o : Overlay) (v : Word) : Word := (v.extractLsb' o.lo o.width).setWidth 36

/-- A field, extended with its sign to a word and canonicalised (R12). -/
def Overlay.getS (o : Overlay) (v : Word) : Word := canon ((v.extractLsb' o.lo o.width).signExtend 36)

/-- The bits of a field. -/
def Overlay.mask (o : Overlay) : Word := (BitVec.allOnes o.width).setWidth 36 <<< o.lo

/-- Replace a field by the low bits of `s`, keeping every other bit (R105). -/
def Overlay.put (o : Overlay) (v s : Word) : Word := (v &&& ~~~o.mask) ||| ((s <<< o.lo) &&& o.mask)

/-- The field a partial-word designator names, and whether a read of it extends the sign (R104); 016 and 017 name none. -/
def designated (qw : Bool) (j : BitVec 4) : Option (Overlay × Bool) :=
  match j.toNat with
  | 0o00 => some (.w, false)
  | 0o01 => some (.h2, false)
  | 0o02 => some (.h1, false)
  | 0o03 => some (.h2, true)
  | 0o04 => some (if qw then (.q2, false) else (.h1, true))
  | 0o05 => some (if qw then (.q4, false) else (.t3, true))
  | 0o06 => some (if qw then (.q3, false) else (.t2, true))
  | 0o07 => some (if qw then (.q1, false) else (.t1, true))
  | 0o10 => some (.s6, false)
  | 0o11 => some (.s5, false)
  | 0o12 => some (.s4, false)
  | 0o13 => some (.s3, false)
  | 0o14 => some (.s2, false)
  | 0o15 => some (.s1, false)
  | _ => none

/-- Read a word through a designator (R104). 016 and 017 read no location; for them the word is answered whole. -/
def readField (qw : Bool) (j : BitVec 4) (v : Word) : Word :=
  match designated qw j with
  | some (o, true) => o.getS v
  | some (o, false) => o.getZ v
  | none => v

/-- A word with the designated field replaced (R105). 016 and 017 name no field; for them the word is kept. -/
def mergeField (qw : Bool) (j : BitVec 4) (v s : Word) : Word :=
  match designated qw j with
  | some (o, _) => o.put v s
  | none => v

/-- The access set of a store through a designator: a partial store reads the word it merges into (R111). -/
def storeAccess (j : BitVec 4) : Perms := if j = 0 then Perms.write else Perms.readWrite

/-- The base-register designator of an extended-mode specifier (R130). -/
def AddrSpec.b (m : AddrSpec) : BitVec 4 := m.u.extractLsb' 12 4

/-- The displacement of an extended-mode operand specifier (R130). -/
def AddrSpec.d (m : AddrSpec) : BitVec 12 := m.u.extractLsb' 0 12

end Sys2Proof

namespace Sys2Proof.Machine

/-! ### Index registers (spec/10_state.md R27) -/

/-- The width of the modifier and of a relative address (R27, R87). -/
def State.indexWidth (s : State) : Nat := if s.ix24 then 24 else 18

/-- The modifier Xm of an index word (R27). -/
def State.modifier (s : State) (r : Word) : Nat :=
  if s.ix24 then (r.extractLsb' 0 24).toNat else (r.extractLsb' 0 18).toNat

/-- The increment Xi as a value of the modifier's width; the 12-bit increment is sign-extended to 24 bits (R88). -/
def State.increment (s : State) (r : Word) : Nat :=
  if s.ix24 then ((r.extractLsb' 24 12).signExtend 24).toNat else (r.extractLsb' 18 18).toNat

/-- An index word with another modifier, taken modulo its width; Xi is unchanged (R88). -/
def State.withModifier (s : State) (r : Word) (m : Nat) : Word :=
  if s.ix24 then r.extractLsb' 24 12 ++ BitVec.ofNat 24 m else r.extractLsb' 18 18 ++ BitVec.ofNat 18 m

/-- An index word after one increment: Xm + Xi modulo the width (R88). -/
def State.incremented (s : State) (r : Word) : Word := s.withModifier r (s.modifier r + s.increment r)

/-- The pending increment of X(n) (R88). -/
def State.bump (s : State) (n : BitVec 4) : State := s.writeX n (s.incremented (s.readX n))

/-! ### Step 1: indexing (R86 to R90) -/

/-- The relative address that indexing forms (R87). -/
def State.indexed (s : State) (disp : Nat) (m : AddrSpec) : Nat :=
  if m.x = 0 then disp else (disp + s.modifier (s.readX m.x)) % 2 ^ s.indexWidth

/-- The state after indexing: the post-increment, if the specifier asks for one (R88, R89). -/
def State.afterIndex (s : State) (m : AddrSpec) : State := if m.x ≠ 0 ∧ m.h then s.bump m.x else s

/-- The displacement of an operand: 16 bits in basic mode, 12 in extended mode (R86). -/
def State.operandDisp (s : State) (m : AddrSpec) : Nat := if s.basicMode then m.u.toNat else m.d.toNat

/-! ### Steps 2 and 3: base selection and the GRS short-circuit (R91 to R97) -/

/-- A resolved place before its checks: a GRS cell, or a relative address in a base register's bank (R83). -/
inductive Place where
  | grs (n : Fin 128)
  | mem (slot : Fin 16) (rel : Nat)
  deriving DecidableEq, Repr

/-- A location (R83): a GRS cell, or a checked storage word with its absolute address. -/
inductive Loc where
  | grs (n : Fin 128)
  | mem (slot : Fin 16) (rel abs : Nat)
  deriving DecidableEq, Repr

/-- The detail word of a storage place (spec/60_exceptions.md R383). -/
def memDetail (slot : Fin 16) (rel : Nat) : Word := BitVec.ofNat 36 (slot.val * 2 ^ 32 + rel)

/-- `locDetail` (R383). -/
def locDetail : Loc → Word
  | .grs n => BitVec.ofNat 36 (2 ^ 31 + n.val)
  | .mem slot rel _ => memDetail slot rel

/-- `basicBankSelect(rel, DR)`: the first piece of the parameter's graph that applies. It reads `rel`, DR.pp and
DR.basicBaseSelect, and nothing else (R92). -/
def State.basicBankSelect (s : State) (rel : Nat) : Option BasicSlot :=
  (s.params.basicBanks.find? fun k =>
    decide (k.lo ≤ rel) && decide (rel ≤ k.hi) && k.pp.all (· == s.pp) && k.baseSelect.all (· == s.dr.getLsbD 4)).map (·.slot)

/-- A GRS place: the exec cells are refused at a privilege other than 0 (R97). -/
def State.grsPlace (s : State) (n : Fin 128) : Res Place :=
  if 0o120 ≤ n.val ∧ s.pp ≠ 0 then .refused .execGRSFromNonExec else .ok (.grs n) s

/-- Steps 2 and 3 in basic mode: addresses below 0200 are GRS cells, the others go through `basicBankSelect`, whose `none`
raises (R92, R95, R118). -/
def State.basicPlace (s : State) (rel : Nat) : Res Place :=
  if rel < 0o200 then s.grsPlace (Fin.ofNat 128 rel)
  else
    match s.basicBankSelect rel with
    | some slot => .ok (.mem slot.number rel) s
    | none => .raised .referenceViolation (BitVec.ofNat 36 rel) s

/-- Steps 2 and 3 in extended mode: the unindexed B0 form below 0200 is a GRS cell, any other B0 form is refused, and else
the specifier names the base register (R93, R94, R96). -/
def State.extendedPlace (s : State) (rel : Nat) (m : AddrSpec) : Res Place :=
  if m.x = 0 ∧ m.b = 0 ∧ m.d.toNat < 0o200 then s.grsPlace (Fin.ofNat 128 m.d.toNat)
  else if m.b = 0 then .refused .b0Operand
  else .ok (.mem m.b.toFin rel) s

/-- Steps 2 and 3 (R91). -/
def State.place (s : State) (rel : Nat) (m : AddrSpec) : Res Place :=
  if s.basicMode then s.basicPlace rel else s.extendedPlace rel m

/-! ### Steps 5 and 6: checks and translation (R101 to R106, R115) -/

/-- Check a place for an access set and translate it (R101, R102, R106, R115, R116). An absolute address at or past the end
of storage is stuck (R76). -/
def State.check (s : State) (acc : Perms) : Place → Res Loc
  | .grs n => .ok (.grs n) s
  | .mem slot rel =>
    let b := s.br[slot]
    if b.isVoid then .raised .addressingException (BitVec.ofNat 36 slot.val) s
    else if !b.holds rel then .raised .referenceViolation (memDetail slot rel) s
    else if !acc.subset (b.permissions s.key) then .raised .referenceViolation (memDetail slot rel) s
    else if s.params.storageSize ≤ b.base + rel then .stuck (.absentStorage (b.base + rel))
    else .ok (.mem slot rel (b.base + rel)) s

/-- The word at a location; a GRS cell gives its pending-visible value (R117). -/
def State.readLoc (s : State) : Loc → Word
  | .grs n => s.readGrs n
  | .mem _ _ abs => s.memory.read abs

/-- A pending write of a whole word to a location (R105, R117). -/
def State.writeLoc (s : State) (l : Loc) (v : Word) : State :=
  match l with
  | .grs n => s.writeGrs n v
  | .mem _ _ abs => s.pend (.mem abs v)

/-- Check a place for reading and read its word (R98, R114). -/
def State.readChecked (s : State) (p : Place) : Res Word :=
  (s.check Perms.read p).bind fun l s => .ok (s.readLoc l) s

/-! ### Step 4: indirection, and the operand kind (R98 to R100, R114) -/

/-- The operand kind down to the place it names, with at most `fuel` further indirect words (R114). -/
def resolvePlace : (fuel : Nat) → AddrSpec → State → Res Place
  | fuel, m, s =>
    let rel := s.indexed (s.operandDisp m) m
    ((s.afterIndex m).place rel m).bind fun p s =>
      if !m.i then .ok p s
      else
        match fuel with
        | 0 => .raised .terminalAddressingException (BitVec.ofNat 36 rel) s
        | fuel + 1 => (s.readChecked p).bind fun w s => resolvePlace fuel (specOf w) s

/-- `resolveOperand` for one word (R114). -/
def State.operandLoc (s : State) (acc : Perms) (m : AddrSpec) : Res Loc :=
  (resolvePlace s.params.maxIndirect m s).bind fun p s => s.check acc p

/-- The successor of a place (R110): cell 127 has none, and the successor cell is an exec cell like any other (R97). -/
def State.successor (s : State) : Place → Res Place
  | .grs n => if n = 127 then .refused .grsPairOverflow else s.grsPlace (n + 1)
  | .mem slot rel => .ok (.mem slot (rel + 1)) s

/-- `resolveOperand` for a double word: one resolution, then both words checked (R110, R114). -/
def State.operandLocs (s : State) (acc : Perms) (m : AddrSpec) : Res (Loc × Loc) :=
  (resolvePlace s.params.maxIndirect m s).bind fun p s =>
    (s.check acc p).bind fun l s =>
      (s.successor p).bind fun p2 s =>
        (s.check acc p2).bind fun l2 s => .ok (l, l2) s

/-! ### Immediates (R107) -/

/-- The 18 bits of an immediate operand: the word's low 18 bits, or the low 18 bits of u16 + Xm (R107). -/
def State.immediate18 (s : State) (m : AddrSpec) : BitVec 18 :=
  if m.x = 0 then literalOf m else BitVec.ofNat 18 (s.indexed m.u.toNat m)

/-- The immediate operand: zero-extended for U, sign-extended and canonicalised for XU (R107). -/
def immediateValue (j : BitVec 4) (v : BitVec 18) : Word :=
  if j = 14 then v.setWidth 36 else canon (v.signExtend 36)

/-! ### Operand values and stores (R104, R105, spec/41_load_store.md R180) -/

/-- The operand value U of an `operand R` row whose `j` is a designator: the immediate for 016 and 017, else the location's
word read through `j` (R104, R107, R157). -/
def State.operand (s : State) (j : BitVec 4) (m : AddrSpec) : Res Word :=
  if isFieldDesignator j then
    (s.operandLoc Perms.read m).bind fun l s => .ok (readField s.quarterWord j (s.readLoc l)) s
  else .ok (immediateValue j (s.immediate18 m)) (s.afterIndex m)

/-- The two words of an `operand R double` row (R110). -/
def State.operand2 (s : State) (m : AddrSpec) : Res (Word × Word) :=
  (s.operandLocs Perms.read m).bind fun l s => .ok (s.readLoc l.1, s.readLoc l.2) s

/-- `store(loc, j, v)`: the location's word with the designated field replaced (R105). -/
def State.storeField (s : State) (l : Loc) (j : BitVec 4) (v : Word) : State :=
  s.writeLoc l (mergeField s.quarterWord j (s.readLoc l) v)

/-- The immediate form of a store or of an increment-family instruction: in basic mode at a privilege other than 0 it
raises InvalidInstruction with the instruction word; elsewhere it is refused (R206, R248). -/
def State.immediateForm {α : Type} (s : State) (why : Refusal) (i : Instr) : Res α :=
  if s.basicMode ∧ s.pp ≠ 0 then .raised .invalidInstruction (encode i) s else .refused why

/-- A store through `j`: the location is resolved, then the value is read, so that it sees the pending increment (R105,
R193, R206). -/
def State.store (s : State) (i : Instr) (j : BitVec 4) (m : AddrSpec) (value : State → Word) : Res Act :=
  if isFieldDesignator j then
    (s.operandLoc (storeAccess j) m).bind fun l s => .ok .seq (s.storeField l j (value s))
  else s.immediateForm .immediateStore i

/-! ### Targets (R109) -/

/-- The target kind down to its relative address, with at most `fuel` further indirect words (R109). -/
def resolveTarget : (fuel : Nat) → AddrSpec → State → Res Nat
  | fuel, m, s =>
    let rel := s.indexed m.u.toNat m
    let s := s.afterIndex m
    if !m.i then .ok rel s
    else if !s.basicMode then .refused .extendedIndirectTarget
    else
      match fuel with
      | 0 => .raised .terminalAddressingException (BitVec.ofNat 36 rel) s
      | fuel + 1 =>
        (s.place rel m).bind fun p s => (s.readChecked p).bind fun w s => resolveTarget fuel (specOf w) s

/-- The target of a jump, the count of a shift, and the address of SLJ: 18 bits of the relative address (R109). -/
def State.target (s : State) (m : AddrSpec) : Res (BitVec 18) :=
  (resolveTarget s.params.maxIndirect m s).bind fun rel s => .ok (BitVec.ofNat 18 rel) s

/-- SLJ's location: steps 2, 3, 5 and 6 on a relative address, in basic mode (spec/44_test_jump.md R340). -/
def State.locate (s : State) (t : BitVec 18) (acc : Perms) : Res Loc :=
  (s.basicPlace t.toNat).bind fun p s => s.check acc p

end Sys2Proof.Machine
end

