-- ==== Sys2Proof/Machine/Flags.lean ====
section
/-! DEFINITION. Ones'-complement arithmetic and the flags it writes (spec/42_arithmetic.md section 1, R236, R240;
spec/00_scope.md R9, R10), and the numeric classes of the tests (spec/44_test_jump.md R300, R311). -/

namespace Sys2Proof

/-! ### Values (R9, R10) -/

/-- `isNeg` (R9). -/
def isNeg (v : Word) : Bool := v.msb

/-- `isZero`: either zero (R9). -/
def isZero (v : Word) : Bool := v == 0 || v == negZero

/-- `val`: the integer that a ones'-complement word denotes, at 36 or 72 bits (R9). -/
def val {n : Nat} (v : BitVec n) : Int := if v.msb then -((~~~v).toNat : Int) else (v.toNat : Int)

/-- `enc`: the word of an integer, at 36 or 72 bits; zero is +0 (R9). -/
def enc (n : Nat) (k : Int) : BitVec n :=
  if 0 ≤ k then BitVec.ofNat n k.natAbs else ~~~(BitVec.ofNat n k.natAbs)

/-- The magnitude of a word (R183, R226). -/
def magnitude (v : Word) : Word := if isNeg v then ~~~v else v

/-- The negated magnitude of a word (R184, R227). -/
def negMagnitude (v : Word) : Word := if isNeg v then v else ~~~v

/-- The largest magnitude a word holds (R9, R237). -/
def maxMagnitude : Nat := 2 ^ 35 - 1

/-! ### The adder (R222, R223) -/

/-- What an addition reports. -/
structure Sum (n : Nat) where
  r : BitVec n
  carry : Bool
  ovf : Bool
  deriving DecidableEq, Repr

/-- The raw end-around sum: the binary sum modulo 2^n plus the carry out (R222). -/
def endAround {n : Nat} (p q : BitVec n) : BitVec n :=
  p + q + BitVec.ofNat n (if 2 ^ n ≤ p.toNat + q.toNat then 1 else 0)

/-- A sum is negative zero only for -0 + -0 (R222). -/
def onesSum {n : Nat} (p q : BitVec n) : BitVec n :=
  if endAround p q = BitVec.allOnes n ∧ ¬(p = BitVec.allOnes n ∧ q = BitVec.allOnes n) then 0 else endAround p q

/-- `add36` and `add72`: the sum, the carry out of the sign bit, and the signed overflow (R222, R223). -/
def onesAdd {n : Nat} (p q : BitVec n) : Sum n :=
  Sum.mk (onesSum p q) (decide (2 ^ n ≤ p.toNat + q.toNat)) (p.msb == q.msb && (onesSum p q).msb != p.msb)

def add36 (p q : Word) : Sum 36 := onesAdd p q
def add72 (p q : DWord) : Sum 72 := onesAdd p q

/-! ### The classes of extended-mode function 050 (R311) -/

/-- The mask bit of a word's class: greater than zero, +0, -0, less than zero (R311). -/
def testClass (u : Word) : Nat := if u = 0 then 1 else if u = negZero then 2 else if isNeg u then 3 else 0

end Sys2Proof

namespace Sys2Proof.Machine

/-- The pending write of carry and overflow by one addition, each set or cleared (R221). -/
def State.writeFlags {n : Nat} (s : State) (x : Sum n) (survives : Bool) : State :=
  s.pend (.dr (drMask [17, 16]) ((if x.carry then drMask [17] else 0) ||| (if x.ovf then drMask [16] else 0)) survives)

/-- The pending write of divideCheck (R236, R346). -/
def State.writeDivideCheck (s : State) (on survives : Bool) : State :=
  s.pend (.dr (drMask [13]) (if on then drMask [13] else 0) survives)

/-- The end of an add-family instruction: the sum goes to its destination and both flags are written; overflow never raises
(R221, R240). With the parameter `overflowIsFault`, an overflow raises ArithmeticException with detail 3 and surviving
flags when DR.arithExceptionEnabled is 1, and writes zero to the destination when it is 0 (R240). -/
def State.addEnd {n : Nat} (s : State) (x : Sum n) (write : State → BitVec n → State) (act : Act) : Res Act :=
  if x.ovf && s.params.overflowIsFault then
    if s.arithExceptionEnabled then .raised .arithmeticException 3 (s.writeFlags x true)
    else .ok act ((write s 0).writeFlags x false)
  else .ok act ((write s x.r).writeFlags x false)

/-- The details of a divide check (spec/60_exceptions.md R383). -/
def divideByZero : Word := 1
def quotientOverflow : Word := 2

/-- `divideCheck(kind)`: the flag is set on both paths and survives the raise; with the arithmetic exception disabled both
registers become zero (R236, R389). -/
def State.divideCheckEnd (s : State) (kind : Word) (a : BitVec 4) : Res Act :=
  let t := s.writeDivideCheck true true
  if s.arithExceptionEnabled then .raised .arithmeticException kind t
  else .ok .seq ((t.writeA a 0).writeA (a + 1) 0)

/-- The end of a divide of the integer `d` by the word `u`: the checks of the divisor and of the quotient, which is
truncated toward zero, and then the writes of quotient and remainder (R235 to R238, R250, R251). -/
def State.divideEnd (s : State) (d : Int) (u : Word) (a : BitVec 4) (write : State → (q r : Int) → State) : Res Act :=
  if val u = 0 then s.divideCheckEnd divideByZero a
  else if maxMagnitude < (d.tdiv (val u)).natAbs then s.divideCheckEnd quotientOverflow a
  else .ok .seq (write s (d.tdiv (val u)) (d - d.tdiv (val u) * val u))

/-- The end of a test: skip if the condition holds (R300). -/
def testEnd (cond : Bool) : Act := if cond then .skip else .seq

/-- The end of a jump: to the target if the condition holds (R330). -/
def jumpEnd (cond : Bool) (t : BitVec 18) : Act := if cond then .jump t else .seq

end Sys2Proof.Machine
end

