-- ==== Sys2Proof/Machine/Load.lean ====
section
/-! DEFINITION. Load instructions (spec/41_load_store.md R181 to R188, R194 to R196). The operand is read first, then the register is
written, so a loaded value overrides an index increment of the same cell (spec/40_cycle.md R172). -/

namespace Sys2Proof.Machine

/-- LA, load A (R181). -/
def execLa (j a : BitVec 4) (m : AddrSpec) (s : State) : Result :=
  runInstr (fun s => (s.operand j m).bind fun u s => .ok .seq (s.writeA a u)) s

/-- LNA, load negative A: not canonicalised (R182). -/
def execLna (j a : BitVec 4) (m : AddrSpec) (s : State) : Result :=
  runInstr (fun s => (s.operand j m).bind fun u s => .ok .seq (s.writeA a (~~~u))) s

/-- LMA, load magnitude A (R183). -/
def execLma (j a : BitVec 4) (m : AddrSpec) (s : State) : Result :=
  runInstr (fun s => (s.operand j m).bind fun u s => .ok .seq (s.writeA a (magnitude u))) s

/-- LNMA, load negative magnitude A (R184). -/
def execLnma (j a : BitVec 4) (m : AddrSpec) (s : State) : Result :=
  runInstr (fun s => (s.operand j m).bind fun u s => .ok .seq (s.writeA a (negMagnitude u))) s

/-- LR, load R (R185). -/
def execLr (j a : BitVec 4) (m : AddrSpec) (s : State) : Result :=
  runInstr (fun s => (s.operand j m).bind fun u s => .ok .seq (s.writeR a u)) s

/-- LX, load X (R186). -/
def execLx (j a : BitVec 4) (m : AddrSpec) (s : State) : Result :=
  runInstr (fun s => (s.operand j m).bind fun u s => .ok .seq (s.writeX a u)) s

/-- An index word with bits [17:0] replaced, whatever `ix24` is (R187, spec/44_test_jump.md R339). -/
def withLow18 (r : Word) (v : BitVec 18) : Word := r.extractLsb' 18 18 ++ v

/-- An index word with bits [35:18] replaced, whatever `ix24` is (R188). -/
def withHigh18 (r : Word) (v : BitVec 18) : Word := v ++ r.extractLsb' 0 18

/-- LXM, load X modifier: bits [17:0] only, in 24-bit mode too (R187). -/
def execLxm (j a : BitVec 4) (m : AddrSpec) (s : State) : Result :=
  runInstr (fun s => (s.operand j m).bind fun u s => .ok .seq (s.writeX a (withLow18 (s.readX a) (u.extractLsb' 0 18)))) s

/-- LXI, load X increment: bits [35:18] from U[17:0] (R188). -/
def execLxi (j a : BitVec 4) (m : AddrSpec) (s : State) : Result :=
  runInstr (fun s => (s.operand j m).bind fun u s => .ok .seq (s.writeX a (withHigh18 (s.readX a) (u.extractLsb' 0 18)))) s

/-- A double-word load word by word: both words are checked, then A(a) is written, and then A(a+1) from the second word, whose
read sees the pending write of A(a) if it is that cell (R194, R195, R110, R143; spec/10_state.md R26). -/
def State.loadWords (s : State) (a : BitVec 4) (m : AddrSpec) (f : Word → Word) : Res Act :=
  (s.operandLocs Perms.read m).bind fun l s =>
    (s.pair a).bind fun _ s =>
      let t := s.writeA a (f (s.readLoc l.1))
      .ok .seq (t.writeA (a + 1) (f (t.readLoc l.2)))

/-- A double-word load of a value of both words, which are read before A(a) and A(a+1) are written (R196, R110, R143). -/
def State.loadPair (s : State) (a : BitVec 4) (m : AddrSpec) (f : Word × Word → Word × Word) : Res Act :=
  (s.operand2 m).bind fun w s =>
    (s.pair a).bind fun _ s => .ok .seq ((s.writeA a (f w).1).writeA (a + 1) (f w).2)

/-- The 72-bit magnitude by the sign of the first word (R196). -/
def magnitude2 (w : Word × Word) : Word × Word := if isNeg w.1 then (~~~w.1, ~~~w.2) else w

/-- DL, double load (R194). -/
def execDl (a : BitVec 4) (m : AddrSpec) (s : State) : Result :=
  runInstr (fun s => s.loadWords a m id) s

/-- DLN, double load negative (R195). -/
def execDln (a : BitVec 4) (m : AddrSpec) (s : State) : Result :=
  runInstr (fun s => s.loadWords a m fun v => ~~~v) s

/-- DLM, double load magnitude (R196). -/
def execDlm (a : BitVec 4) (m : AddrSpec) (s : State) : Result :=
  runInstr (fun s => s.loadPair a m magnitude2) s

end Sys2Proof.Machine
end

