-- ==== Sys2Proof/Machine/Store.lean ====
section
/-! DEFINITION. Store instructions and store constants (spec/41_load_store.md R189 to R193, R197 to R206). A store through 016 or 017 has
no location; the instruction word it reports is its encoding (R206). -/

namespace Sys2Proof.Machine

/-- SA, store A (R189). -/
def execSa (j a : BitVec 4) (m : AddrSpec) (s : State) : Result :=
  runInstr (fun s => s.store (.sa j a m) j m fun s => s.readA a) s

/-- SNA, store negative A (R190). -/
def execSna (j a : BitVec 4) (m : AddrSpec) (s : State) : Result :=
  runInstr (fun s => s.store (.sna j a m) j m fun s => ~~~(s.readA a)) s

/-- SMA, store magnitude A (R191). -/
def execSma (j a : BitVec 4) (m : AddrSpec) (s : State) : Result :=
  runInstr (fun s => s.store (.sma j a m) j m fun s => magnitude (s.readA a)) s

/-- SR, store R (R192). -/
def execSr (j a : BitVec 4) (m : AddrSpec) (s : State) : Result :=
  runInstr (fun s => s.store (.sr j a m) j m fun s => s.readR a) s

/-- SX, store X: an increment of X(a) by its own addressing is seen (R193). -/
def execSx (j a : BitVec 4) (m : AddrSpec) (s : State) : Result :=
  runInstr (fun s => s.store (.sx j a m) j m fun s => s.readX a) s

/-- DS, double store: both words are checked before either write is formed, and A(a+1) is read after the first write, so that
it gives A(a) if the first location is its cell (R197; spec/10_state.md R26). -/
def execDs (a : BitVec 4) (m : AddrSpec) (s : State) : Result :=
  runInstr (fun s =>
    (s.operandLocs Perms.write m).bind fun l s =>
      (s.pair a).bind fun _ s =>
        let t := s.writeLoc l.1 (s.readA a)
        .ok .seq (t.writeLoc l.2 (t.readA (a + 1)))) s

/-- SZ, store zero (R198). -/
def execSz (j : BitVec 4) (m : AddrSpec) (s : State) : Result :=
  runInstr (fun s => s.store (.sz j m) j m fun _ => 0) s

/-- SNZ, store negative zero (R199). -/
def execSnz (j : BitVec 4) (m : AddrSpec) (s : State) : Result :=
  runInstr (fun s => s.store (.snz j m) j m fun _ => negZero) s

/-- SP1, store positive one (R200). -/
def execSp1 (j : BitVec 4) (m : AddrSpec) (s : State) : Result :=
  runInstr (fun s => s.store (.sp1 j m) j m fun _ => 1) s

/-- SN1, store negative one (R201). -/
def execSn1 (j : BitVec 4) (m : AddrSpec) (s : State) : Result :=
  runInstr (fun s => s.store (.sn1 j m) j m fun _ => 0o777777777776) s

/-- SFS, store Fieldata spaces (R202). -/
def execSfs (j : BitVec 4) (m : AddrSpec) (s : State) : Result :=
  runInstr (fun s => s.store (.sfs j m) j m fun _ => 0o050505050505) s

/-- SFZ, store Fieldata zeros (R203). -/
def execSfz (j : BitVec 4) (m : AddrSpec) (s : State) : Result :=
  runInstr (fun s => s.store (.sfz j m) j m fun _ => 0o606060606060) s

/-- SAS, store ASCII spaces (R204). -/
def execSas (j : BitVec 4) (m : AddrSpec) (s : State) : Result :=
  runInstr (fun s => s.store (.sas j m) j m fun _ => 0o040040040040) s

/-- SAZ, store ASCII zeros (R205). -/
def execSaz (j : BitVec 4) (m : AddrSpec) (s : State) : Result :=
  runInstr (fun s => s.store (.saz j m) j m fun _ => 0o060060060060) s

end Sys2Proof.Machine
end

