-- ==== Sys2Proof/Machine/Arithmetic.lean ====
section
/-! DEFINITION. Fixed-point arithmetic (spec/42_arithmetic.md sections 2 and 3). -/

namespace Sys2Proof.Machine

/-- An add-family instruction on A: the sum of A(a) and a function of the operand, to A(a) (R224 to R227). -/
def State.addToA (s : State) (j a : BitVec 4) (m : AddrSpec) (f : Word → Word) : Res Act :=
  (s.operand j m).bind fun u s => s.addEnd (add36 (s.readA a) (f u)) (fun s r => s.writeA a r) .seq

/-- An add-upper instruction: the sum goes to A(a+1) and A(a) is kept (R228, R229). -/
def State.addUpper (s : State) (j a : BitVec 4) (m : AddrSpec) (f : Word → Word) : Res Act :=
  (s.operand j m).bind fun u s =>
    (s.pair a).bind fun _ s => s.addEnd (add36 (s.readA a) (f u)) (fun s r => s.writeA (a + 1) r) .seq

/-- An add-family instruction on X: the whole word is added, not the modifier alone (R230, R231). -/
def State.addToX (s : State) (j a : BitVec 4) (m : AddrSpec) (f : Word → Word) : Res Act :=
  (s.operand j m).bind fun u s => s.addEnd (add36 (s.readX a) (f u)) (fun s r => s.writeX a r) .seq

/-- A double add: the 72-bit sum of (A(a), A(a+1)) and a function of the double operand (R232, R233). -/
def State.addPair (s : State) (a : BitVec 4) (m : AddrSpec) (f : DWord → DWord) : Res Act :=
  (s.operand2 m).bind fun w s =>
    (s.pair a).bind fun _ s => s.addEnd (add72 (s.readAA a) (f (w.1 ++ w.2))) (fun s r => s.writeAA a r) .seq

/-- AA, add to A (R224). -/
def execAa (j a : BitVec 4) (m : AddrSpec) (s : State) : Result :=
  runInstr (fun s => s.addToA j a m id) s

/-- ANA, add negative to A (R225). -/
def execAna (j a : BitVec 4) (m : AddrSpec) (s : State) : Result :=
  runInstr (fun s => s.addToA j a m (fun u => ~~~u)) s

/-- AMA, add magnitude to A (R226). -/
def execAma (j a : BitVec 4) (m : AddrSpec) (s : State) : Result :=
  runInstr (fun s => s.addToA j a m magnitude) s

/-- ANMA, add negative magnitude to A (R227). -/
def execAnma (j a : BitVec 4) (m : AddrSpec) (s : State) : Result :=
  runInstr (fun s => s.addToA j a m negMagnitude) s

/-- AU, add upper (R228). -/
def execAu (j a : BitVec 4) (m : AddrSpec) (s : State) : Result :=
  runInstr (fun s => s.addUpper j a m id) s

/-- ANU, add negative upper (R229). -/
def execAnu (j a : BitVec 4) (m : AddrSpec) (s : State) : Result :=
  runInstr (fun s => s.addUpper j a m (fun u => ~~~u)) s

/-- AX, add to X (R230). -/
def execAx (j a : BitVec 4) (m : AddrSpec) (s : State) : Result :=
  runInstr (fun s => s.addToX j a m id) s

/-- ANX, add negative to X (R231). -/
def execAnx (j a : BitVec 4) (m : AddrSpec) (s : State) : Result :=
  runInstr (fun s => s.addToX j a m (fun u => ~~~u)) s

/-- DA, double add (R232). -/
def execDa (a : BitVec 4) (m : AddrSpec) (s : State) : Result :=
  runInstr (fun s => s.addPair a m id) s

/-- DAN, double add negative (R233). -/
def execDan (a : BitVec 4) (m : AddrSpec) (s : State) : Result :=
  runInstr (fun s => s.addPair a m (fun w => ~~~w)) s

/-- MI, multiply integer: the exact 72-bit product, +0 for a zero product (R234, R239). -/
def execMi (j a : BitVec 4) (m : AddrSpec) (s : State) : Result :=
  runInstr (fun s =>
    (s.operand j m).bind fun u s =>
      (s.pair a).bind fun _ s => .ok .seq (s.writeAA a (enc 72 (val (s.readA a) * val u)))) s

/-- DI, divide integer: quotient to A(a), remainder to A(a+1) (R235, R238). -/
def execDi (j a : BitVec 4) (m : AddrSpec) (s : State) : Result :=
  runInstr (fun s =>
    (s.operand j m).bind fun u s =>
      (s.pair a).bind fun _ s =>
        s.divideEnd (val (s.readAA a)) u a fun s q r => (s.writeA a (enc 36 q)).writeA (a + 1) (enc 36 r)) s

/-- DSF, divide single fractional: the dividend is A(a) scaled by 2^35, the quotient goes to A(a+1), and A(a) is kept; a
divide check fills both registers (R250, C12). -/
def execDsf (j a : BitVec 4) (m : AddrSpec) (s : State) : Result :=
  runInstr (fun s =>
    (s.operand j m).bind fun u s =>
      (s.pair a).bind fun _ s =>
        s.divideEnd (val (s.readA a) * 2 ^ 35) u a fun s q _ => s.writeA (a + 1) (enc 36 q)) s

/-- DF, divide fractional: the dividend is halved toward zero first (R251). -/
def execDf (j a : BitVec 4) (m : AddrSpec) (s : State) : Result :=
  runInstr (fun s =>
    (s.operand j m).bind fun u s =>
      (s.pair a).bind fun _ s =>
        s.divideEnd ((val (s.readAA a)).tdiv 2) u a fun s q r => (s.writeA a (enc 36 q)).writeA (a + 1) (enc 36 r)) s

end Sys2Proof.Machine
end

