-- ==== Sys2Proof/Machine/Increment.lean ====
section
/-! DEFINITION. The increment family, function 005 with `a` 010 to 016 (spec/42_arithmetic.md section 4). The skip test is on the 36-bit
result, not on the stored field (R241). -/

namespace Sys2Proof.Machine

/-- Read through `j`, add, store the low bits through `j`, and skip on a zero result; no flag is written (R241 to R245, R248). -/
def State.increase (s : State) (i : Instr) (j : BitVec 4) (m : AddrSpec) (k : Word) : Res Act :=
  if isFieldDesignator j then
    (s.operandLoc Perms.readWrite m).bind fun l s =>
      let r := (add36 (readField s.quarterWord j (s.readLoc l)) k).r
      .ok (testEnd (isZero r)) (s.storeField l j r)
  else s.immediateForm .immediateIncrement i

/-- The same with carry and overflow written, and a skip on a zero result only if `add1Skips` (R246, R247, R248). -/
def State.increaseFlags (s : State) (i : Instr) (j : BitVec 4) (m : AddrSpec) (k : Word) : Res Act :=
  if isFieldDesignator j then
    (s.operandLoc Perms.readWrite m).bind fun l s =>
      let x := add36 (readField s.quarterWord j (s.readLoc l)) k
      s.addEnd x (fun s r => s.storeField l j r) (testEnd (s.params.add1Skips && isZero x.r))
  else s.immediateForm .immediateIncrement i

/-- INC, increment (R241). -/
def execInc (j : BitVec 4) (m : AddrSpec) (s : State) : Result :=
  runInstr (fun s => s.increase (.inc j m) j m 1) s

/-- DEC, decrement (R242). -/
def execDec (j : BitVec 4) (m : AddrSpec) (s : State) : Result :=
  runInstr (fun s => s.increase (.dec j m) j m (~~~1)) s

/-- INC2, increment by two (R243). -/
def execInc2 (j : BitVec 4) (m : AddrSpec) (s : State) : Result :=
  runInstr (fun s => s.increase (.inc2 j m) j m 2) s

/-- DEC2, decrement by two (R244). -/
def execDec2 (j : BitVec 4) (m : AddrSpec) (s : State) : Result :=
  runInstr (fun s => s.increase (.dec2 j m) j m (~~~2)) s

/-- ENZ, increment by negative zero (R245). -/
def execEnz (j : BitVec 4) (m : AddrSpec) (s : State) : Result :=
  runInstr (fun s => s.increase (.enz j m) j m negZero) s

/-- ADD1, add one (R246). -/
def execAdd1 (j : BitVec 4) (m : AddrSpec) (s : State) : Result :=
  runInstr (fun s => s.increaseFlags (.add1 j m) j m 1) s

/-- SUB1, subtract one (R247). -/
def execSub1 (j : BitVec 4) (m : AddrSpec) (s : State) : Result :=
  runInstr (fun s => s.increaseFlags (.sub1 j m) j m (~~~1)) s

end Sys2Proof.Machine
end

