-- ==== Sys2Proof/Machine/Logical.lean ====
section
/-! DEFINITION. Logical instructions (spec/43_logical_shift.md R270 to R274): bitwise, the result to A(a+1), A(a) only read. -/

namespace Sys2Proof.Machine

/-- A logical instruction: a function of A(a) and the operand, to A(a+1) (R270). -/
def State.logical (s : State) (j a : BitVec 4) (m : AddrSpec) (f : State → Word → Word → Word) : Res Act :=
  (s.operand j m).bind fun u s =>
    (s.pair a).bind fun _ s => .ok .seq (s.writeA (a + 1) (f s (s.readA a) u))

/-- OR (R271). -/
def execOr (j a : BitVec 4) (m : AddrSpec) (s : State) : Result :=
  runInstr (fun s => s.logical j a m fun _ v u => v ||| u) s

/-- XOR (R272). -/
def execXor (j a : BitVec 4) (m : AddrSpec) (s : State) : Result :=
  runInstr (fun s => s.logical j a m fun _ v u => v ^^^ u) s

/-- AND (R273). -/
def execAnd (j a : BitVec 4) (m : AddrSpec) (s : State) : Result :=
  runInstr (fun s => s.logical j a m fun _ v u => v &&& u) s

/-- MLU, masked load upper: the mask is R(2) of the selected set (R274). -/
def execMlu (j a : BitVec 4) (m : AddrSpec) (s : State) : Result :=
  runInstr (fun s => s.logical j a m fun s v u => (u &&& s.readR 2) ||| (v &&& ~~~(s.readR 2))) s

end Sys2Proof.Machine
end

