-- ==== Sys2Proof/Machine/Shift.lean ====
section
/-! DEFINITION. Shift instructions (spec/43_logical_shift.md R275 to R285). The count is the low 7 bits of the target, 0 to 127. -/

namespace Sys2Proof.Machine

/-- Right circular shift by `k` places modulo the width (R276, R277). -/
def circularRight {n : Nat} (v : BitVec n) (k : Nat) : BitVec n := (v >>> (k % n)) ||| (v <<< (n - k % n))

/-- Left circular shift by `k` places modulo the width (R282, R283). -/
def circularLeft {n : Nat} (v : BitVec n) (k : Nat) : BitVec n := (v <<< (k % n)) ||| (v >>> (n - k % n))

/-- Right logical shift; zero from the width on (R278, R279). -/
def logicalRight {n : Nat} (v : BitVec n) (k : Nat) : BitVec n := if n ≤ k then 0 else v >>> k

/-- Left logical shift; zero from the width on (R284, R285). -/
def logicalLeft {n : Nat} (v : BitVec n) (k : Nat) : BitVec n := if n ≤ k then 0 else v <<< k

/-- Right algebraic shift: copies of the sign fill from the left; only signs from the width on (R280, R281). -/
def algebraicRight {n : Nat} (v : BitVec n) (k : Nat) : BitVec n :=
  let fill := if v.msb then BitVec.allOnes n else 0
  if n ≤ k then fill else (v >>> k) ||| (fill <<< (n - k))

/-- The shift count of a target (R275). -/
def shiftCount (t : BitVec 18) : Nat := (t.extractLsb' 0 7).toNat

/-- A single shift of A(a) (R275). -/
def State.shiftA (s : State) (a : BitVec 4) (m : AddrSpec) (f : Word → Nat → Word) : Res Act :=
  (s.target m).bind fun t s => .ok .seq (s.writeA a (f (s.readA a) (shiftCount t)))

/-- A double shift of (A(a), A(a+1)) (R275). -/
def State.shiftAA (s : State) (a : BitVec 4) (m : AddrSpec) (f : DWord → Nat → DWord) : Res Act :=
  (s.target m).bind fun t s =>
    (s.pair a).bind fun _ s => .ok .seq (s.writeAA a (f (s.readAA a) (shiftCount t)))

/-- SSC, single shift circular (R276). -/
def execSsc (a : BitVec 4) (m : AddrSpec) (s : State) : Result :=
  runInstr (fun s => s.shiftA a m circularRight) s

/-- DSC, double shift circular (R277). -/
def execDsc (a : BitVec 4) (m : AddrSpec) (s : State) : Result :=
  runInstr (fun s => s.shiftAA a m circularRight) s

/-- SSL, single shift logical (R278). -/
def execSsl (a : BitVec 4) (m : AddrSpec) (s : State) : Result :=
  runInstr (fun s => s.shiftA a m logicalRight) s

/-- DSL, double shift logical (R279). -/
def execDsl (a : BitVec 4) (m : AddrSpec) (s : State) : Result :=
  runInstr (fun s => s.shiftAA a m logicalRight) s

/-- SSA, single shift algebraic (R280). -/
def execSsa (a : BitVec 4) (m : AddrSpec) (s : State) : Result :=
  runInstr (fun s => s.shiftA a m algebraicRight) s

/-- DSA, double shift algebraic (R281). -/
def execDsa (a : BitVec 4) (m : AddrSpec) (s : State) : Result :=
  runInstr (fun s => s.shiftAA a m algebraicRight) s

/-- LSSC, left single shift circular (R282). -/
def execLssc (a : BitVec 4) (m : AddrSpec) (s : State) : Result :=
  runInstr (fun s => s.shiftA a m circularLeft) s

/-- LDSC, left double shift circular (R283). -/
def execLdsc (a : BitVec 4) (m : AddrSpec) (s : State) : Result :=
  runInstr (fun s => s.shiftAA a m circularLeft) s

/-- LSSL, left single shift logical (R284). -/
def execLssl (a : BitVec 4) (m : AddrSpec) (s : State) : Result :=
  runInstr (fun s => s.shiftA a m logicalLeft) s

/-- LDSL, left double shift logical (R285). -/
def execLdsl (a : BitVec 4) (m : AddrSpec) (s : State) : Result :=
  runInstr (fun s => s.shiftAA a m logicalLeft) s

end Sys2Proof.Machine
end

