-- ==== Sys2Proof/Machine/Test.lean ====
section
/-! DEFINITION. Test (skip) instructions (spec/44_test_jump.md section 1). Index increments are committed whether or not the condition
holds (R300). -/

namespace Sys2Proof.Machine

/-- A test of the operand alone (R300). -/
def State.test (s : State) (j : BitVec 4) (m : AddrSpec) (cond : Word → Bool) : Res Act :=
  (s.operand j m).bind fun u s => .ok (testEnd (cond u)) s

/-- A test of the operand against A(a) (R300). -/
def State.testA (s : State) (j a : BitVec 4) (m : AddrSpec) (cond : (u v : Int) → Bool) : Res Act :=
  (s.operand j m).bind fun u s => .ok (testEnd (cond (val u) (val (s.readA a)))) s

/-- A range test of the operand against A(a) and A(a+1) (R305, R306). -/
def State.testRange (s : State) (j a : BitVec 4) (m : AddrSpec) (cond : (u v w : Int) → Bool) : Res Act :=
  (s.operand j m).bind fun u s =>
    (s.pair a).bind fun _ s => .ok (testEnd (cond (val u) (val (s.readA a)) (val (s.readA (a + 1))))) s

/-- An extended-mode test: the bit of the operand's class in the four-bit mask (R311). -/
def State.testMask (s : State) (j : BitVec 4) (m : AddrSpec) (mask : BitVec 4) : Res Act :=
  s.test j m fun u => mask.getLsbD (testClass u)

/-- TE, test equal (R301). -/
def execTe (j a : BitVec 4) (m : AddrSpec) (s : State) : Result :=
  runInstr (fun s => s.testA j a m fun u v => u == v) s

/-- TNE, test not equal (R302). -/
def execTne (j a : BitVec 4) (m : AddrSpec) (s : State) : Result :=
  runInstr (fun s => s.testA j a m fun u v => u != v) s

/-- TLE, test less than or equal (R303). -/
def execTle (j a : BitVec 4) (m : AddrSpec) (s : State) : Result :=
  runInstr (fun s => s.testA j a m fun u v => decide (u ≤ v)) s

/-- TG, test greater (R304). -/
def execTg (j a : BitVec 4) (m : AddrSpec) (s : State) : Result :=
  runInstr (fun s => s.testA j a m fun u v => decide (v < u)) s

/-- TW, test within range (R305). -/
def execTw (j a : BitVec 4) (m : AddrSpec) (s : State) : Result :=
  runInstr (fun s => s.testRange j a m fun u v w => decide (v < u) && decide (u ≤ w)) s

/-- TNW, test not within range (R306). -/
def execTnw (j a : BitVec 4) (m : AddrSpec) (s : State) : Result :=
  runInstr (fun s => s.testRange j a m fun u v w => !(decide (v < u) && decide (u ≤ w))) s

/-- TZ of basic mode, test zero (R307). -/
def execTzBasic (j : BitVec 4) (m : AddrSpec) (s : State) : Result :=
  runInstr (fun s => s.test j m isZero) s

/-- TNZ of basic mode, test nonzero (R308). -/
def execTnzBasic (j : BitVec 4) (m : AddrSpec) (s : State) : Result :=
  runInstr (fun s => s.test j m (fun u => !isZero u)) s

/-- TP of basic mode, test positive: the sign bit (R309). -/
def execTpBasic (j : BitVec 4) (m : AddrSpec) (s : State) : Result :=
  runInstr (fun s => s.test j m (fun u => !isNeg u)) s

/-- TN of basic mode, test negative: the sign bit (R310). -/
def execTnBasic (j : BitVec 4) (m : AddrSpec) (s : State) : Result :=
  runInstr (fun s => s.test j m isNeg) s

/-- TNOP, test no-op: the operand is still resolved (R312). -/
def execTnop (j : BitVec 4) (m : AddrSpec) (s : State) : Result :=
  runInstr (fun s => s.testMask j m 0b0000) s

/-- TGZ, test greater than zero (R313). -/
def execTgz (j : BitVec 4) (m : AddrSpec) (s : State) : Result :=
  runInstr (fun s => s.testMask j m 0b0001) s

/-- TPZ, test positive zero (R314). -/
def execTpz (j : BitVec 4) (m : AddrSpec) (s : State) : Result :=
  runInstr (fun s => s.testMask j m 0b0010) s

/-- TP, test positive (R315). -/
def execTp (j : BitVec 4) (m : AddrSpec) (s : State) : Result :=
  runInstr (fun s => s.testMask j m 0b0011) s

/-- TMZ, test minus zero (R316). -/
def execTmz (j : BitVec 4) (m : AddrSpec) (s : State) : Result :=
  runInstr (fun s => s.testMask j m 0b0100) s

/-- TMZG, test minus zero or greater than zero (R317). -/
def execTmzg (j : BitVec 4) (m : AddrSpec) (s : State) : Result :=
  runInstr (fun s => s.testMask j m 0b0101) s

/-- TZ, test zero (R318). -/
def execTz (j : BitVec 4) (m : AddrSpec) (s : State) : Result :=
  runInstr (fun s => s.testMask j m 0b0110) s

/-- TNLZ, test not less than zero (R319). -/
def execTnlz (j : BitVec 4) (m : AddrSpec) (s : State) : Result :=
  runInstr (fun s => s.testMask j m 0b0111) s

/-- TLZ, test less than zero (R320). -/
def execTlz (j : BitVec 4) (m : AddrSpec) (s : State) : Result :=
  runInstr (fun s => s.testMask j m 0b1000) s

/-- TNZ, test nonzero (R321). -/
def execTnz (j : BitVec 4) (m : AddrSpec) (s : State) : Result :=
  runInstr (fun s => s.testMask j m 0b1001) s

/-- TPZL, test positive zero or less than zero (R322). -/
def execTpzl (j : BitVec 4) (m : AddrSpec) (s : State) : Result :=
  runInstr (fun s => s.testMask j m 0b1010) s

/-- TNMZ, test not minus zero (R323). -/
def execTnmz (j : BitVec 4) (m : AddrSpec) (s : State) : Result :=
  runInstr (fun s => s.testMask j m 0b1011) s

/-- TN, test negative (R324). -/
def execTn (j : BitVec 4) (m : AddrSpec) (s : State) : Result :=
  runInstr (fun s => s.testMask j m 0b1100) s

/-- TNPZ, test not positive zero (R325). -/
def execTnpz (j : BitVec 4) (m : AddrSpec) (s : State) : Result :=
  runInstr (fun s => s.testMask j m 0b1101) s

/-- TNGZ, test not greater than zero (R326). -/
def execTngz (j : BitVec 4) (m : AddrSpec) (s : State) : Result :=
  runInstr (fun s => s.testMask j m 0b1110) s

/-- TSKP, test and always skip: the operand is still resolved (R327). -/
def execTskp (j : BitVec 4) (m : AddrSpec) (s : State) : Result :=
  runInstr (fun s => s.testMask j m 0b1111) s

end Sys2Proof.Machine
end

