-- ==== Sys2Proof/Machine/Jump.lean ====
section
/-! DEFINITION. Jump instructions (spec/44_test_jump.md section 2). Target increments are committed whether or not the jump is taken, and
the target is checked at the Fetch that uses it (R330). -/

namespace Sys2Proof.Machine

/-- A jump on a condition of the state that the target leaves (R330). -/
def State.jumpIf (s : State) (m : AddrSpec) (cond : State → Bool) : Res Act :=
  (s.target m).bind fun t s => .ok (jumpEnd (cond s) t) s

/-- A jump on divideCheck, which is cleared whether or not it jumps (R346, R347). -/
def State.jumpDivide (s : State) (m : AddrSpec) (cond : State → Bool) : Res Act :=
  (s.target m).bind fun t s => .ok (jumpEnd (cond s) t) (s.writeDivideCheck false false)

/-- The offset of the next instruction, which LMJ and SLJ store (R339, R340). -/
def State.nextOffset (s : State) : BitVec 18 := parOffset s.par + 1

/-- JGD's cell: the seven bits of `j` and `a` together, and a free value where they are more than seven (R338;
notes/assumptions/9.md). -/
def jgdCell (j a : BitVec 4) : Fin 128 := if j.toNat < 8 then Fin.ofNat 128 (16 * j.toNat + a.toNat) else jgdHighCell j a

/-- JMGI's condition: the modifier is greater than zero as a signed number of its width (R337). -/
def State.modifierPositive (s : State) (r : Word) : Bool :=
  decide (0 < s.modifier r) && decide (s.modifier r < 2 ^ (s.indexWidth - 1))

/-- JZ, jump zero (R331). -/
def execJz (a : BitVec 4) (m : AddrSpec) (s : State) : Result :=
  runInstr (fun s => s.jumpIf m fun s => isZero (s.readA a)) s

/-- JNZ, jump nonzero (R332). -/
def execJnz (a : BitVec 4) (m : AddrSpec) (s : State) : Result :=
  runInstr (fun s => s.jumpIf m fun s => !isZero (s.readA a)) s

/-- JP, jump positive: the sign bit (R333). -/
def execJp (a : BitVec 4) (m : AddrSpec) (s : State) : Result :=
  runInstr (fun s => s.jumpIf m fun s => !isNeg (s.readA a)) s

/-- JN, jump negative: the sign bit (R334). -/
def execJn (a : BitVec 4) (m : AddrSpec) (s : State) : Result :=
  runInstr (fun s => s.jumpIf m fun s => isNeg (s.readA a)) s

/-- J of basic mode, jump (R335). -/
def execJ (m : AddrSpec) (s : State) : Result :=
  runInstr (fun s => s.jumpIf m fun _ => true) s

/-- NOP of basic mode: the target is developed, with its increment and its indirection, and nothing else happens (R336). -/
def execNop (m : AddrSpec) (s : State) : Result :=
  runInstr (fun s => s.jumpIf m fun _ => false) s

/-- JMGI, jump modifier greater and increment: X(a) is incremented whether or not the jump is taken (R337). -/
def execJmgi (a : BitVec 4) (m : AddrSpec) (s : State) : Result :=
  runInstr (fun s =>
    (s.target m).bind fun t s => .ok (jumpEnd (s.modifierPositive (s.readX a)) t) (s.bump a)) s

/-- LMJ, load modifier and jump (R339). -/
def execLmj (a : BitVec 4) (m : AddrSpec) (s : State) : Result :=
  runInstr (fun s =>
    (s.target m).bind fun t s => .ok (.jump t) (s.writeX a (withLow18 (s.readX a) s.nextOffset))) s

/-- JO, jump overflow (R342). -/
def execJo (m : AddrSpec) (s : State) : Result :=
  runInstr (fun s => s.jumpIf m fun s => s.overflow) s

/-- JDF, jump divide fault (R346). -/
def execJdf (m : AddrSpec) (s : State) : Result :=
  runInstr (fun s => s.jumpDivide m fun s => s.divideCheck) s

/-- JNO, jump no overflow (R343). -/
def execJno (m : AddrSpec) (s : State) : Result :=
  runInstr (fun s => s.jumpIf m fun s => !s.overflow) s

/-- JNDF, jump no divide fault (R347). -/
def execJndf (m : AddrSpec) (s : State) : Result :=
  runInstr (fun s => s.jumpDivide m fun s => !s.divideCheck) s

/-- JC of basic mode, jump carry (R344). -/
def execJc (m : AddrSpec) (s : State) : Result :=
  runInstr (fun s => s.jumpIf m fun s => s.carry) s

/-- JNC of basic mode, jump no carry (R345). -/
def execJnc (m : AddrSpec) (s : State) : Result :=
  runInstr (fun s => s.jumpIf m fun s => !s.carry) s

/-- JGD, jump greater and decrement: an absolute GRS cell, decremented always, with no flags (R338). -/
def execJgd (j a : BitVec 4) (m : AddrSpec) (s : State) : Result :=
  runInstr (fun s =>
    (s.target m).bind fun t s =>
      (s.grsPlace (jgdCell j a)).bind fun _ s =>
        let v := s.readGrs (jgdCell j a)
        .ok (jumpEnd (decide (0 < val v)) t) (s.writeGrs (jgdCell j a) (add36 v (~~~1)).r)) s

/-- DJZ, double jump zero: only the two 72-bit zeros jump (R341). -/
def execDjz (a : BitVec 4) (m : AddrSpec) (s : State) : Result :=
  runInstr (fun s =>
    (s.target m).bind fun t s =>
      (s.pair a).bind fun _ s =>
        .ok (jumpEnd (s.readAA a == 0 || s.readAA a == BitVec.allOnes 72) t) s) s

/-- SLJ of basic mode, store location and jump: the link goes to H2 of the word or GRS cell at the target (R340). -/
def execSlj (m : AddrSpec) (s : State) : Result :=
  runInstr (fun s =>
    (s.target m).bind fun t s =>
      (s.locate t Perms.readWrite).bind fun l s =>
        .ok (.jump (t + 1)) (s.storeField l 1 (s.nextOffset.setWidth 36))) s

end Sys2Proof.Machine
end

