-- ==== Sys2Proof/Machine/System.lean ====
section
/-! DEFINITION. Test-and-set, HALT, designator-register access and the return from an interrupt (spec/45_system.md). -/

namespace Sys2Proof.Machine

/-- The bit that test-and-set works on (R361). -/
def lockBit : Word := 1#36 <<< 30

/-- `MemRMW` on a location: storage is read and written at once, during Execute; a GRS cell is a pending write (R364,
spec/20_memory.md R74). -/
def State.modifyLoc (s : State) (l : Loc) (f : Word → Word) : State :=
  match l with
  | .grs n => s.writeGrs n (f (s.readGrs n))
  | .mem _ _ abs => { s with memory := s.memory.write abs (f (s.memory.read abs)) }

/-- TS, test and set: raises TestAndSet if the bit was set, and storage is then as it was (R361). -/
def execTs (m : AddrSpec) (s : State) : Result :=
  runInstr (fun s =>
    (s.operandLoc Perms.readWrite m).bind fun l s =>
      let t := s.modifyLoc l (· ||| lockBit)
      if (s.readLoc l).getLsbD 30 then .raised .testAndSet (locDetail l) t else .ok .seq t) s

/-- TSS, test and set and skip (R362). -/
def execTss (m : AddrSpec) (s : State) : Result :=
  runInstr (fun s =>
    (s.operandLoc Perms.readWrite m).bind fun l s =>
      .ok (testEnd (!(s.readLoc l).getLsbD 30)) (s.modifyLoc l (· ||| lockBit))) s

/-- TCS, test and clear and skip (R363). -/
def execTcs (m : AddrSpec) (s : State) : Result :=
  runInstr (fun s =>
    (s.operandLoc Perms.readWrite m).bind fun l s =>
      .ok (testEnd ((s.readLoc l).getLsbD 30)) (s.modifyLoc l (· &&& ~~~lockBit))) s

/-- HALT: no address is developed (R365). -/
def execHalt (d : BitVec 18) (s : State) : Result :=
  runInstr (fun s => s.privileged.bind fun _ s => .ok (.halt d) s) s

/-- LD, load designator register: every bit, but a change of basicMode is refused (R366). -/
def execLd (m : AddrSpec) (s : State) : Result :=
  runInstr (fun s =>
    (s.operandLoc Perms.read m).bind fun l s =>
      s.privileged.bind fun _ s =>
        if (s.readLoc l).getLsbD 19 != s.basicMode then .refused .modeChangeByLD
        else .ok .seq (s.pend (.dr (BitVec.allOnes 36) (s.readLoc l) false))) s

/-- SD, store designator register (R367). -/
def execSd (m : AddrSpec) (s : State) : Result :=
  runInstr (fun s =>
    (s.operandLoc Perms.write m).bind fun l s =>
      s.privileged.bind fun _ s => .ok .seq (s.writeLoc l s.dr)) s

/-- UR, user return (R368). -/
def execUr (s : State) : Result :=
  runInstr (fun s => s.privileged.bind fun _ s => s.returnFromInterrupt) s

end Sys2Proof.Machine
end

