-- ==== Sys2Proof/Machine/Dispatch.lean ====
section
/-! DEFINITION. One arm per instruction: a direct call of its meaning. -/

namespace Sys2Proof.Machine

/-- The meaning of an instruction (spec/40_cycle.md R160 from ResolveOperands on, InterruptCheck included). -/
def exec (i : Instr) (s : State) : Host.Outcome State Fault Refusal :=
  match i with
  | .la j a m => Sys2Proof.Machine.execLa j a m s
  | .lna j a m => Sys2Proof.Machine.execLna j a m s
  | .lma j a m => Sys2Proof.Machine.execLma j a m s
  | .lnma j a m => Sys2Proof.Machine.execLnma j a m s
  | .lr j a m => Sys2Proof.Machine.execLr j a m s
  | .lx j a m => Sys2Proof.Machine.execLx j a m s
  | .lxm j a m => Sys2Proof.Machine.execLxm j a m s
  | .lxi j a m => Sys2Proof.Machine.execLxi j a m s
  | .sa j a m => Sys2Proof.Machine.execSa j a m s
  | .sna j a m => Sys2Proof.Machine.execSna j a m s
  | .sma j a m => Sys2Proof.Machine.execSma j a m s
  | .sr j a m => Sys2Proof.Machine.execSr j a m s
  | .sx j a m => Sys2Proof.Machine.execSx j a m s
  | .ds a m => Sys2Proof.Machine.execDs a m s
  | .dl a m => Sys2Proof.Machine.execDl a m s
  | .dln a m => Sys2Proof.Machine.execDln a m s
  | .dlm a m => Sys2Proof.Machine.execDlm a m s
  | .sz j m => Sys2Proof.Machine.execSz j m s
  | .snz j m => Sys2Proof.Machine.execSnz j m s
  | .sp1 j m => Sys2Proof.Machine.execSp1 j m s
  | .sn1 j m => Sys2Proof.Machine.execSn1 j m s
  | .sfs j m => Sys2Proof.Machine.execSfs j m s
  | .sfz j m => Sys2Proof.Machine.execSfz j m s
  | .sas j m => Sys2Proof.Machine.execSas j m s
  | .saz j m => Sys2Proof.Machine.execSaz j m s
  | .aa j a m => Sys2Proof.Machine.execAa j a m s
  | .ana j a m => Sys2Proof.Machine.execAna j a m s
  | .ama j a m => Sys2Proof.Machine.execAma j a m s
  | .anma j a m => Sys2Proof.Machine.execAnma j a m s
  | .au j a m => Sys2Proof.Machine.execAu j a m s
  | .anu j a m => Sys2Proof.Machine.execAnu j a m s
  | .ax j a m => Sys2Proof.Machine.execAx j a m s
  | .anx j a m => Sys2Proof.Machine.execAnx j a m s
  | .mi j a m => Sys2Proof.Machine.execMi j a m s
  | .di j a m => Sys2Proof.Machine.execDi j a m s
  | .dsf j a m => Sys2Proof.Machine.execDsf j a m s
  | .df j a m => Sys2Proof.Machine.execDf j a m s
  | .da a m => Sys2Proof.Machine.execDa a m s
  | .dan a m => Sys2Proof.Machine.execDan a m s
  | .inc j m => Sys2Proof.Machine.execInc j m s
  | .dec j m => Sys2Proof.Machine.execDec j m s
  | .inc2 j m => Sys2Proof.Machine.execInc2 j m s
  | .dec2 j m => Sys2Proof.Machine.execDec2 j m s
  | .enz j m => Sys2Proof.Machine.execEnz j m s
  | .add1 j m => Sys2Proof.Machine.execAdd1 j m s
  | .sub1 j m => Sys2Proof.Machine.execSub1 j m s
  | .or j a m => Sys2Proof.Machine.execOr j a m s
  | .xor j a m => Sys2Proof.Machine.execXor j a m s
  | .and j a m => Sys2Proof.Machine.execAnd j a m s
  | .mlu j a m => Sys2Proof.Machine.execMlu j a m s
  | .ssc a m => Sys2Proof.Machine.execSsc a m s
  | .dsc a m => Sys2Proof.Machine.execDsc a m s
  | .ssl a m => Sys2Proof.Machine.execSsl a m s
  | .dsl a m => Sys2Proof.Machine.execDsl a m s
  | .ssa a m => Sys2Proof.Machine.execSsa a m s
  | .dsa a m => Sys2Proof.Machine.execDsa a m s
  | .lssc a m => Sys2Proof.Machine.execLssc a m s
  | .ldsc a m => Sys2Proof.Machine.execLdsc a m s
  | .lssl a m => Sys2Proof.Machine.execLssl a m s
  | .ldsl a m => Sys2Proof.Machine.execLdsl a m s
  | .te j a m => Sys2Proof.Machine.execTe j a m s
  | .tne j a m => Sys2Proof.Machine.execTne j a m s
  | .tle j a m => Sys2Proof.Machine.execTle j a m s
  | .tg j a m => Sys2Proof.Machine.execTg j a m s
  | .tw j a m => Sys2Proof.Machine.execTw j a m s
  | .tnw j a m => Sys2Proof.Machine.execTnw j a m s
  | .tzBasic j m => Sys2Proof.Machine.execTzBasic j m s
  | .tnzBasic j m => Sys2Proof.Machine.execTnzBasic j m s
  | .tpBasic j m => Sys2Proof.Machine.execTpBasic j m s
  | .tnBasic j m => Sys2Proof.Machine.execTnBasic j m s
  | .tnop j m => Sys2Proof.Machine.execTnop j m s
  | .tgz j m => Sys2Proof.Machine.execTgz j m s
  | .tpz j m => Sys2Proof.Machine.execTpz j m s
  | .tp j m => Sys2Proof.Machine.execTp j m s
  | .tmz j m => Sys2Proof.Machine.execTmz j m s
  | .tmzg j m => Sys2Proof.Machine.execTmzg j m s
  | .tz j m => Sys2Proof.Machine.execTz j m s
  | .tnlz j m => Sys2Proof.Machine.execTnlz j m s
  | .tlz j m => Sys2Proof.Machine.execTlz j m s
  | .tnz j m => Sys2Proof.Machine.execTnz j m s
  | .tpzl j m => Sys2Proof.Machine.execTpzl j m s
  | .tnmz j m => Sys2Proof.Machine.execTnmz j m s
  | .tn j m => Sys2Proof.Machine.execTn j m s
  | .tnpz j m => Sys2Proof.Machine.execTnpz j m s
  | .tngz j m => Sys2Proof.Machine.execTngz j m s
  | .tskp j m => Sys2Proof.Machine.execTskp j m s
  | .jz a m => Sys2Proof.Machine.execJz a m s
  | .jnz a m => Sys2Proof.Machine.execJnz a m s
  | .jp a m => Sys2Proof.Machine.execJp a m s
  | .jn a m => Sys2Proof.Machine.execJn a m s
  | .j m => Sys2Proof.Machine.execJ m s
  | .nop m => Sys2Proof.Machine.execNop m s
  | .jmgi a m => Sys2Proof.Machine.execJmgi a m s
  | .lmj a m => Sys2Proof.Machine.execLmj a m s
  | .jo m => Sys2Proof.Machine.execJo m s
  | .jdf m => Sys2Proof.Machine.execJdf m s
  | .jno m => Sys2Proof.Machine.execJno m s
  | .jndf m => Sys2Proof.Machine.execJndf m s
  | .jc m => Sys2Proof.Machine.execJc m s
  | .jnc m => Sys2Proof.Machine.execJnc m s
  | .jgd j a m => Sys2Proof.Machine.execJgd j a m s
  | .djz a m => Sys2Proof.Machine.execDjz a m s
  | .slj m => Sys2Proof.Machine.execSlj m s
  | .ts m => Sys2Proof.Machine.execTs m s
  | .tss m => Sys2Proof.Machine.execTss m s
  | .tcs m => Sys2Proof.Machine.execTcs m s
  | .halt d => Sys2Proof.Machine.execHalt d s
  | .ld m => Sys2Proof.Machine.execLd m s
  | .sd m => Sys2Proof.Machine.execSd m s
  | .ur => Sys2Proof.Machine.execUr s

end Sys2Proof.Machine
end

