-- ==== Sys2Proof/Machine/Fetch.lean ====
section
/-! DEFINITION. Fetch (spec/40_cycle.md R161), what becomes of a word that Decode rejects (spec/30_encoding.md R150), and
the placing of one word where the next Fetch reads it. -/

namespace Sys2Proof.Machine

/-- The bank that Fetch reads through: the basic-mode slot that the offset selects, or PB (R161). -/
def State.fetchBank (s : State) : Res BaseRegister :=
  if s.basicMode then
    match s.basicBankSelect (parOffset s.par).toNat with
    | some slot => .ok s.br[slot.number] s
    | none => .raised .referenceViolation ((parOffset s.par).setWidth 36) s
  else .ok s.pb s

/-- Fetch through a bank: its checks, the translation, and the read (R161). Neither the GRS window nor indirection applies. -/
def State.fetchFrom (s : State) (b : BaseRegister) : Res Word :=
  let off := (parOffset s.par).toNat
  if b.isVoid then .raised .addressingException s.par s
  else if !b.holds off then .raised .referenceViolation s.par s
  else if !Perms.exec.subset (b.permissions s.key) then .raised .referenceViolation s.par s
  else if s.params.storageSize ≤ b.base + off then .stuck (.absentStorage (b.base + off))
  else .ok (s.memory.read (b.base + off)) s

/-- Fetch (R161). -/
def State.fetch (s : State) : Res Word := s.fetchBank.bind fun b s => s.fetchFrom b

/-- The parameter `recognized` holds of the encoding (R150). -/
def State.recognized (s : State) (k : Fields) : Bool :=
  s.params.recognized.contains (RecognizedCode.mk s.basicMode k.f k.j k.a)

/-- A word that matches no row: refused if the processor recognizes it, else InvalidInstruction with the word (R150). -/
def State.rejectEncoding (s : State) (w : Word) : Result :=
  if s.recognized (fieldsOf w) then .refused .unspecifiedInstruction else s.discard.takeSync .invalidInstruction w

/-! ### Placing one word for the next Fetch (notes/assumptions/4.md) -/

/-- A bank opened for a fetch at an offset under a key: not void, its limits widened to the offset, and execute permission
added to the permission set that the key selects. A bank that allows the fetch already is unchanged. -/
def openBank (b : BaseRegister) (key : AccessKey) (off : Nat) : BaseRegister :=
  let c := { b with isVoid := false, lower := min b.lower off, upper := max b.upper off }
  if key.ring < b.lock.ring ∨ key.domain = b.lock.domain then { c with sap := { b.sap with e := true } }
  else { c with gap := { b.gap with e := true } }

/-- Store a word at an absolute address, in a storage that is at least large enough to hold it. -/
def State.placeWord (s : State) (abs : Nat) (w : Word) : State :=
  { s with
    memory := s.memory.write abs w
    params := { s.params with storageSize := max s.params.storageSize (abs + 1) } }

/-- Place a word for a fetch in basic mode; if no slot holds the offset, B12 is given it. -/
def State.placeBasic (s : State) (w : Word) : State :=
  let off := (parOffset s.par).toNat
  match s.basicBankSelect off with
  | some slot =>
    let b := openBank s.br[slot.number] s.key off
    ({ s with br := s.br.set slot.number b }).placeWord (b.base + off) w
  | none =>
    let b := openBank s.br[12] s.key off
    ({ s with
        br := s.br.set 12 b
        params := { s.params with basicBanks := BankRange.mk none none off off .b12 :: s.params.basicBanks } }).placeWord
      (b.base + off) w

/-- Place a word for a fetch in extended mode. -/
def State.placeExtended (s : State) (w : Word) : State :=
  let off := (parOffset s.par).toNat
  let b := openBank s.pb s.key off
  ({ s with pb := b }).placeWord (b.base + off) w

/-- The DR with the other mode. -/
def State.flipMode (s : State) : State := { s with dr := s.dr ^^^ drMask [19] }

/-- Make a word the next one that the IP fetches: the IP runs, in its own mode if that decodes the word as
`decodeTableWord` does and else in the other one, and the word stands in the bank that Fetch reads through. -/
def State.placeFetch (s : State) (w : Word) : State :=
  let row := decodeTableWord 36 w.toNat
  let t := if row = none ∨ rowOf s.mode (fieldsOf w) = row then s else s.flipMode
  let t := { t with running := true }
  if t.basicMode then t.placeBasic w else t.placeExtended w

end Sys2Proof.Machine
end

