-- ==== Sys2Proof/Machine/Step.lean ====
section
/-! DEFINITION. The step (spec/40_cycle.md R160): Fetch, Decode, and the instruction with its Writeback and InterruptCheck. -/

namespace Sys2Proof.Machine

/-- One step. A stopped IP fetches nothing and stays as it is (R168). A raise in Fetch takes its interrupt like any other
(R161, R173). -/
def step (s : State) : Host.Outcome State Fault Refusal :=
  if s.running then
    s.discard.fetch.finishWith fun w _ =>
      match decode s.mode w with
      | .ok i => exec i s
      | .error _ => s.rejectEncoding w
  else .next s

/-- The state with one instruction word stored where the next step fetches it; every instruction is one word (R133), so
`nbits` is not needed (notes/assumptions/4.md). -/
def State.withFetchWord (s : State) (_nbits w : Nat) : State := s.placeFetch (BitVec.ofNat 36 w)

end Sys2Proof.Machine
end

