-- ==== Sys2Proof/Machine/HostCalls.lean ====
section
/-! DEFINITION. The host's control surface (spec/60_exceptions.md R424, R425; spec/70_reset_and_hazards.md R440). A host
call is no step of the IP: it is the other party's action on the same state. -/

namespace Sys2Proof

/-- The class of a class number; the unused numbers have none (spec/60_exceptions.md R380). -/
def IntClass.ofNumber (n : Nat) : Option IntClass :=
  match n with
  | 0 => some .hardwareDefault
  | 1 => some .hardwareCheck
  | 2 => some .diagnostic
  | 8 => some .referenceViolation
  | 9 => some .addressingException
  | 10 => some .terminalAddressingException
  | 11 => some .rcsGenericStack
  | 12 => some .signal
  | 13 => some .testAndSet
  | 14 => some .invalidInstruction
  | 15 => some .pageException
  | 16 => some .arithmeticException
  | 17 => some .dataException
  | 18 => some .operationTrap
  | 19 => some .breakpoint
  | 20 => some .quantumTimer
  | 23 => some .pagesZeroed
  | 24 => some .softwareBreak
  | 25 => some .jumpHistoryFull
  | 27 => some .dayclock
  | 28 => some .performanceMonitoring
  | 29 => some .ipl
  | 30 => some .upiInitial
  | 31 => some .upiNormal
  | _ => none

end Sys2Proof

namespace Sys2Proof.Machine

/-- The names of GRS cells (spec/10_state.md R21), and a cell number (R424). -/
inductive GrsName where
  | x (n : Fin 16)
  | a (n : Fin 16)
  | r (n : Fin 16)
  | er (n : Fin 16)
  | ex (n : Fin 16)
  | ea (n : Fin 16)
  | cell (n : Fin 128)
  deriving DecidableEq, Repr

/-- The cell that a name denotes (R21); A0-A3 and X12-X15 are the same cells, and so are EA0-EA3 and EX12-EX15 (R22). -/
def GrsName.toCell : GrsName → Fin 128
  | .x n => Fin.ofNat 128 n.val
  | .a n => Fin.ofNat 128 (12 + n.val)
  | .r n => Fin.ofNat 128 (64 + n.val)
  | .er n => Fin.ofNat 128 (80 + n.val)
  | .ex n => Fin.ofNat 128 (96 + n.val)
  | .ea n => Fin.ofNat 128 (108 + n.val)
  | .cell n => n

/-- The host calls that act (R424). -/
inductive HostCall where
  | start
  | stop
  | setGeneralRegister (name : GrsName) (v : Word)
  | setDR (v : Word)
  | setPAR (v : Word)
  | installBaseRegister (slot : Fin 16) (b : BaseRegister)
  | setProgramBank (b : BaseRegister)
  | setKey (k : AccessKey)
  | post (number : Nat) (detail : Word)
  | load (offset : Nat) (words : List Word)
  deriving DecidableEq, Repr

/-- The calls that the host may make while the IP runs (R424, R440). -/
def HostCall.whileRunning : HostCall → Bool
  | .stop | .post .. => true
  | _ => false

/-- `post(c, detail)`: an unused number or a synchronous class is refused; a class that is pending already keeps its first
detail (spec/60_exceptions.md R384). -/
def State.post (s : State) (number : Nat) (detail : Word) : Result :=
  match IntClass.ofNumber number with
  | none => .refused .unpostableClass
  | some c => if c.isSync then .refused .unpostableClass else .next (s.addPending (PendingInt.mk c detail none))

/-- `load(offset, words)`: a bulk store at an absolute address; a word past the end of storage is stuck (spec/20_memory.md
R70, R76). -/
def State.load (s : State) (offset : Nat) (words : List Word) : Result :=
  if offset + words.length ≤ s.params.storageSize then .next { s with memory := s.memory.writeList offset words }
  else .fault (.absentStorage (max offset s.params.storageSize))

/-- A base-register value that the host hands over: limits out of order are refused (R37), and so is a base that is no absolute
address of `absAddrBits` bits (R36; notes/assumptions/27.md). -/
def State.acceptBank (s : State) (b : BaseRegister) (t : State) : Result :=
  if !b.limitsOrdered then .refused .misorderedLimits
  else if !b.baseFits s.params.absAddrBits then .refused .wideBase
  else .next t

/-- `installBaseRegister(slot, value)`: the whole slot is replaced (R37, R38). -/
def State.install (s : State) (slot : Fin 16) (b : BaseRegister) : Result := s.acceptBank b { s with br := s.br.set slot b }

/-- `setProgramBank(value)` (R45), with the checks of an install (notes/assumptions/13.md). -/
def State.setProgramBank (s : State) (b : BaseRegister) : Result := s.acceptBank b { s with pb := b }

/-- The effect of a host call that may be made. It writes the named state and nothing else (R424). -/
def State.hostEffect (s : State) : HostCall → Result
  | .start => .next { s with running := true }
  | .stop => .next (if s.running then { s with stopRequested := true } else s)
  | .setGeneralRegister name v => .next { s with grs := s.grs.set name.toCell v }
  | .setDR v => .next { s with dr := v }
  | .setPAR v => .next { s with par := v }
  | .installBaseRegister slot b => s.install slot b
  | .setProgramBank b => s.setProgramBank b
  | .setKey k => .next { s with key := k }
  | .post n d => s.post n d
  | .load offset words => s.load offset words

/-- A host call; while the IP runs, only `stop` and `post` are allowed (R440). -/
def hostCall (c : HostCall) (s : State) : Result :=
  if s.running && !c.whileRunning then .refused .hostCallWhileRunning else s.hostEffect c

/-- The host calls that only read (R424). -/
inductive HostQuery where
  | isRunning
  | latestStopReason
  | latestStopDetail
  | getGeneralRegister (name : GrsName)
  | getDR
  | getPAR
  deriving DecidableEq, Repr

/-- What such a call answers. -/
inductive HostAnswer where
  | flag (b : Bool)
  | reason (r : StopReason)
  | word (w : Word)
  deriving DecidableEq, Repr

/-- The value that a query reads. -/
def State.queryValue (s : State) : HostQuery → HostAnswer
  | .isRunning => .flag s.running
  | .latestStopReason => .reason s.stopReason
  | .latestStopDetail => .word s.stopDetail
  | .getGeneralRegister name => .word s.grs[name.toCell]
  | .getDR => .word s.dr
  | .getPAR => .word s.par

/-- A query; while the IP runs, only `isRunning` is answered (R440). -/
def hostQuery (q : HostQuery) (s : State) : Except Refusal HostAnswer :=
  if s.running && decide (q ≠ .isRunning) then .error .hostCallWhileRunning else .ok (s.queryValue q)

end Sys2Proof.Machine
end

