-- ==== Sys2Proof/Machine/Drive.lean ====
section
/-! DEFINITION. The IP and its environment together: steps of the IP and host calls, in an order that a list of events
gives. A post or a stop request can come between any two steps (spec/60_exceptions.md R384, R425). -/

namespace Sys2Proof.Machine

/-- One event: a step of the IP, or a host call. -/
inductive Event where
  | tick
  | host (c : HostCall)
  deriving DecidableEq, Repr

/-- What an event does. -/
def drive (e : Event) (s : State) : Result :=
  match e with
  | .tick => step s
  | .host c => hostCall c s

/-- A list of events, up to the first fault or refusal. -/
def driveAll : List Event → State → Result
  | [], s => .next s
  | e :: es, s =>
    match drive e s with
    | .next t => driveAll es t
    | .fault f => .fault f
    | .refused r => .refused r

end Sys2Proof.Machine
end

