-- ==== Sys2Proof/Safety.lean ====
section
/-! DEFINITION. What a sound state and a quiet step are, in the terms that statements use. -/

namespace Sys2Proof

/-- The values that the rules admit for the parameters: each bound of spec/00_scope.md R7's table, a storage that the
absolute addresses cover, a full ICS whose pointer is an 18-bit number (spec/60_exceptions.md R394), and decoded
descriptors that a slot may hold (spec/10_state.md R36, R37). -/
def Params.admissible (p : Params) : Prop :=
  p.icsSlot ≠ 0 ∧ 4 ≤ p.icsFrameSize ∧ 1 ≤ p.icsMaxEntries ∧ 1 ≤ p.maxIndirect ∧ p.storageSize ≤ 2 ^ p.absAddrBits ∧
    p.icsMaxEntries * p.icsFrameSize < 2 ^ 18 ∧ ∀ e ∈ p.descriptors, e.value.legal p.absAddrBits = true

end Sys2Proof

namespace Sys2Proof.Machine

/-- The pending interrupts are a finite map: one entry a class, by rising class number (spec/10_state.md R42). -/
def State.pendingSorted (s : State) : Prop := s.pending.Pairwise fun p q => p.cls.number < q.cls.number

/-- Every base register and PB holds a legal value: the limits of a non-void bank are in order, and the base is an absolute
address of `absAddrBits` bits (spec/10_state.md R36, R37). -/
def State.banksLegal (s : State) : Prop :=
  (∀ k : Fin 16, s.br[k].legal s.params.absAddrBits = true) ∧ s.pb.legal s.params.absAddrBits = true

/-- What every state between two steps satisfies, reached or not: storage in its canonical form, the pending interrupts a
map, the banks legal, no pending write, and admissible parameters. -/
structure State.Sound (s : State) : Prop where
  memory : s.memory.wf
  pending : s.pendingSorted
  banks : s.banksLegal
  writes : s.pw = []
  params : s.params.admissible

/-- Nothing that InterruptCheck would act on: no interrupt is due and no stop is requested (spec/40_cycle.md R167). -/
def State.Quiet (s : State) : Prop := s.dueInterrupt = none ∧ s.stopRequested = false

/-- The DR bits that an instruction's own rule writes: carry and overflow for the add family, divideCheck for the divides
and the two jumps that clear it, every bit for LD and UR, and none else (spec/10_state.md R29). -/
def drBits : Instr → Word
  | .aa .. | .ana .. | .ama .. | .anma .. | .au .. | .anu .. | .ax .. | .anx .. | .da .. | .dan .. => drMask [17, 16]
  | .add1 .. | .sub1 .. => drMask [17, 16]
  | .di .. | .dsf .. | .df .. | .jdf .. | .jndf .. => drMask [13]
  | .ld .. | .ur => BitVec.allOnes 36
  | _ => 0

/-- A step that answers a next state: neither a fault nor a refusal. -/
def completes (r : Result) : Prop := ∃ t, r = .next t

/-! ### The interrupt machine's phases, read off the state (spec/10_state.md R44) -/

/-- Idle: nothing is pending. -/
def State.isIdle (s : State) : Prop := s.pending = []

/-- Recognized(c): the class that InterruptCheck would enter. -/
def State.recognizes (s : State) (c : IntClass) : Prop := ∃ p, s.dueInterrupt = some p ∧ p.cls = c

/-- Deferred: something is pending, and only deferred classes are. -/
def State.onlyDeferred (s : State) : Prop := s.pending ≠ [] ∧ ∀ p ∈ s.pending, s.isDeferred p.cls = true

/-- HandlerRunning: the ICS holds a frame. -/
def State.handlerRunning (s : State) : Prop := s.params.icsFrameSize ≤ s.icsPointer.toNat

end Sys2Proof.Machine
end

