-- ==== Sys2Proof/Certificates/Slice0/Obligations.lean ====
section
/-! DEFINITION. The statements for the provers, and the words they are written in. -/

namespace Sys2Proof.Machine

/-! ### The words of the statements -/

/-- Everything but the GRS, the DR, the PAR and storage is as before, and no write is left pending. -/
structure KeepsRest (s t : State) : Prop where
  br : t.br = s.br
  pb : t.pb = s.pb
  key : t.key = s.key
  pending : t.pending = s.pending
  running : t.running = s.running
  stopReason : t.stopReason = s.stopReason
  stopDetail : t.stopDetail = s.stopDetail
  stopRequested : t.stopRequested = s.stopRequested
  params : t.params = s.params
  pw : t.pw = []

/-- Every storage word reads as before. -/
def SameStorage (s t : State) : Prop := ∀ a, t.memory.read a = s.memory.read a

/-- The PAR that `act` leaves, `before` being the PAR of the instruction: bits [35:18] are kept and the offset is the next one,
the one after it, or the target, modulo 2^18; a jump of the whole PAR gives that (spec/10_state.md R34; spec/40_cycle.md R166). -/
def ParAfter (before after : Word) : Act → Prop
  | .seq | .halt _ =>
    after.extractLsb' 0 18 = before.extractLsb' 0 18 + 1 ∧ after.extractLsb' 18 18 = before.extractLsb' 18 18
  | .skip => after.extractLsb' 0 18 = before.extractLsb' 0 18 + 2 ∧ after.extractLsb' 18 18 = before.extractLsb' 18 18
  | .jump n => after.extractLsb' 0 18 = n ∧ after.extractLsb' 18 18 = before.extractLsb' 18 18
  | .jumpPar p => after = p

/-- The instruction completes with its own effect: a next state whose PAR is the one that `act` leaves, in which the rest is
kept and `P` holds. -/
def Completes (i : Instr) (s : State) (act : Act) (P : State → Prop) : Prop :=
  ∃ t, exec i s = .next t ∧ ParAfter s.par t.par act ∧ KeepsRest s t ∧ P t

/-- Every GRS cell holds what it read as after the resolution, that is, after the index increments. -/
def SetsNone (r t : State) : Prop := ∀ k : Fin 128, t.grs[k] = r.readGrs k

/-- One cell holds `v`, and every other cell what it read as after the resolution. -/
def Sets (r t : State) (n : Fin 128) (v : Word) : Prop := t.grs[n] = v ∧ ∀ k : Fin 128, k ≠ n → t.grs[k] = r.readGrs k

/-- Two cells hold `v` and `w`, and every other cell what it read as after the resolution. -/
def SetsTwo (r t : State) (n : Fin 128) (v : Word) (k : Fin 128) (w : Word) : Prop :=
  t.grs[n] = v ∧ t.grs[k] = w ∧ ∀ c : Fin 128, c ≠ n → c ≠ k → t.grs[c] = r.readGrs c

/-- A location holds `v`; every other cell and every other storage word is as after the resolution. -/
def SetsLoc (s r t : State) (l : Loc) (v : Word) : Prop :=
  match l with
  | .grs n => Sets r t n v ∧ SameStorage s t
  | .mem _ _ a => SetsNone r t ∧ t.memory.read a = v ∧ ∀ b, b ≠ a → t.memory.read b = s.memory.read b

/-- Two locations, a GRS pair or two storage words, hold `v` and `w`; all else is as after the resolution. -/
def SetsLocs (s r t : State) (l : Loc × Loc) (v w : Word) : Prop :=
  match l.1, l.2 with
  | .grs n, .grs k => SetsTwo r t n v k w ∧ SameStorage s t
  | .mem _ _ a, .mem _ _ b =>
    SetsNone r t ∧ t.memory.read a = v ∧ t.memory.read b = w ∧
      ∀ c, c ≠ a → c ≠ b → t.memory.read c = s.memory.read c
  | _, _ => False

/-- A DR word with carry and overflow as an addition reports them and every other bit kept (spec/42_arithmetic.md R221). -/
def FlagsOf {n : Nat} (before after : Word) (x : Sum n) : Prop :=
  after.getLsbD 17 = x.carry ∧ after.getLsbD 16 = x.ovf ∧
    ∀ k, k ≠ 17 → k ≠ 16 → after.getLsbD k = before.getLsbD k

/-- A DR word with divideCheck set or cleared and every other bit kept. -/
def DivideCheckOf (before after : Word) (on : Bool) : Prop :=
  after.getLsbD 13 = on ∧ ∀ k, k ≠ 13 → after.getLsbD k = before.getLsbD k

/-- The states that increments of index registers X1 to X15 lead to, each increment on the state that the last one left. -/
inductive Bumped (s : State) : State → Prop where
  | refl : Bumped s s
  | bump (t : State) (n : BitVec 4) : Bumped s t → n ≠ 0 → Bumped s (t.bump n)

/-- The state `u` at the InterruptCheck of the step that started at `s` (spec/40_cycle.md R160): nothing before it writes these
fields, and `pending` has gained at most one class, saved with the PAR of the step's instruction. -/
structure AtCheck (s u : State) : Prop where
  br : u.br = s.br
  key : u.key = s.key
  running : u.running = s.running
  stopReason : u.stopReason = s.stopReason
  stopDetail : u.stopDetail = s.stopDetail
  stopRequested : u.stopRequested = s.stopRequested
  params : u.params = s.params
  pw : u.pw = []
  pending : u.pending = s.pending ∨ ∃ c d, u.pending = insertPending (PendingInt.mk c d (some s.par)) s.pending

/-- The step that started at `s`, with the outcome `x`, comes to its InterruptCheck at `u`, and this enters the class of `p` and
leaves `t`, the external stop after the entry included. -/
def Enters (x : Result) (s u : State) (p : PendingInt) (t : State) : Prop :=
  AtCheck s u ∧ x = u.interruptCheck ∧ u.dueInterrupt = some p ∧
    ∃ e, (u.removePending p.cls).entryChecks p.cls = .ok e ∧ t = ((u.removePending p.cls).applyEntry p e).honourStop

/-- The word at PAR decodes to an LD or to UR. -/
def RunsLdOrUr (s : State) : Prop :=
  ∃ (w : Word) (r : State) (i : Instr), s.discard.fetch = .ok w r ∧ decode s.mode w = .ok i ∧ ((∃ m, i = .ld m) ∨ i = .ur)

/-- Where `x` raises, is refused or is stuck, `y` does the same, and nothing else. -/
def FailsAs {α β : Type} (x : Res α) (y : Res β) : Prop :=
  (∀ c d r, x = .raised c d r → y = .raised c d r) ∧ (∀ w, x = .refused w → y = .refused w) ∧
    ∀ f, x = .stuck f → y = .stuck f

/-- `y` fails as `x` does, and where `x` answers a value, it is `f` of that value and state. -/
def GoesOn {α β : Type} (x : Res α) (y : Res β) (f : α → State → Res β) : Prop :=
  FailsAs x y ∧ ∀ v r, x = .ok v r → y = f v r

/-- The permissions of a bank under a key (spec/20_memory.md R115). -/
def granted (b : BaseRegister) (key : AccessKey) : Perms :=
  if key.ring < b.lock.ring ∨ key.domain = b.lock.domain then b.sap else b.gap

/-- Every access kind of `acc` is permitted (spec/20_memory.md R115). -/
def Permits (p acc : Perms) : Prop :=
  (acc.e = true → p.e = true) ∧ (acc.r = true → p.r = true) ∧ (acc.w = true → p.w = true)

/-- `x` is the outcome of the checks of a relative address in a slot, in their order, on the state `r`: void, limits,
permissions, end of storage (spec/20_memory.md R101, R102, R106, R115, R116). -/
def BankChecks (r : State) (acc : Perms) (slot : Fin 16) (rel : Nat) (x : Res Loc) : Prop :=
  ∀ b : BaseRegister, b = r.br[slot] →
    (b.isVoid = true → x = .raised .addressingException (BitVec.ofNat 36 slot.val) r) ∧
    (b.isVoid = false → (rel < b.lower ∨ b.upper < rel) →
      x = .raised .referenceViolation (BitVec.ofNat 36 (slot.val * 2 ^ 32 + rel)) r) ∧
    (b.isVoid = false → b.lower ≤ rel → rel ≤ b.upper → ¬Permits (granted b r.key) acc →
      x = .raised .referenceViolation (BitVec.ofNat 36 (slot.val * 2 ^ 32 + rel)) r) ∧
    (b.isVoid = false → b.lower ≤ rel → rel ≤ b.upper → Permits (granted b r.key) acc →
      (r.params.storageSize ≤ b.base + rel → x = .stuck (.absentStorage (b.base + rel))) ∧
      (b.base + rel < r.params.storageSize → x = .ok (.mem slot rel (b.base + rel)) r))

/-- `x` is the outcome of naming a GRS cell in the state `r`: an exec cell is refused at a privilege other than 0
(spec/20_memory.md R97). -/
def CellNamed {α : Type} (r : State) (n : Nat) (x : Res α) (v : Fin 128 → α) : Prop :=
  ∀ c : Fin 128, c.val = n →
    (r.pp = 0 ∨ n < 0o120 → x = .ok (v c) r) ∧ (r.pp ≠ 0 → 0o120 ≤ n → x = .refused .execGRSFromNonExec)

/-- The sign extension of a field to a word, with negative zero canonicalised (spec/00_scope.md R12). -/
def signedField {n : Nat} (x : BitVec n) : Word :=
  if x.signExtend 36 = 0o777777777777 then 0 else x.signExtend 36

/-- Either zero. -/
def zeroWord (v : Word) : Bool := v == 0 || v == 0o777777777777

/-- The two words of a double-word operand, the first the upper half (spec/42_arithmetic.md R220). -/
def wordsAt (r : State) (l : Loc × Loc) : DWord := r.readLoc l.1 ++ r.readLoc l.2

/-- The pair A(a), A(a+1), the first the upper half (R220). -/
def pairOf (r : State) (a : BitVec 4) : DWord := r.readA a ++ r.readA (a + 1)

/-- An outcome without its value. -/
def forget {α : Type} (x : Res α) : Res Unit := x.bind fun _ s => .ok () s

/-- The resolution of a store through `j`: none for the immediate designators. -/
def storeResolution (s : State) (acc : Perms) (j : BitVec 4) (m : AddrSpec) : Res Unit :=
  if isFieldDesignator j then forget (s.operandLoc acc m) else .ok () s

/-- The resolution that an instruction performs (spec/30_encoding.md R137), and JGD's cell and SLJ's location. -/
def resolution : Instr → State → Res Unit
  | .la j _ m, s | .lna j _ m, s | .lma j _ m, s | .lnma j _ m, s => forget (s.operand j m)
  | .lr j _ m, s | .lx j _ m, s | .lxm j _ m, s | .lxi j _ m, s => forget (s.operand j m)
  | .sa j _ m, s | .sna j _ m, s | .sma j _ m, s | .sr j _ m, s | .sx j _ m, s => storeResolution s (storeAccess j) j m
  | .sz j m, s | .snz j m, s | .sp1 j m, s | .sn1 j m, s => storeResolution s (storeAccess j) j m
  | .sfs j m, s | .sfz j m, s | .sas j m, s | .saz j m, s => storeResolution s (storeAccess j) j m
  | .ds _ m, s => forget (s.operandLocs Perms.write m)
  | .dl _ m, s | .dln _ m, s | .dlm _ m, s | .da _ m, s | .dan _ m, s => forget (s.operandLocs Perms.read m)
  | .aa j _ m, s | .ana j _ m, s | .ama j _ m, s | .anma j _ m, s => forget (s.operand j m)
  | .au j _ m, s | .anu j _ m, s | .ax j _ m, s | .anx j _ m, s => forget (s.operand j m)
  | .mi j _ m, s | .di j _ m, s | .dsf j _ m, s | .df j _ m, s => forget (s.operand j m)
  | .inc j m, s | .dec j m, s | .inc2 j m, s | .dec2 j m, s | .enz j m, s | .add1 j m, s | .sub1 j m, s =>
    storeResolution s Perms.readWrite j m
  | .or j _ m, s | .xor j _ m, s | .and j _ m, s | .mlu j _ m, s => forget (s.operand j m)
  | .ssc _ m, s | .dsc _ m, s | .ssl _ m, s | .dsl _ m, s | .ssa _ m, s | .dsa _ m, s => forget (s.target m)
  | .lssc _ m, s | .ldsc _ m, s | .lssl _ m, s | .ldsl _ m, s => forget (s.target m)
  | .te j _ m, s | .tne j _ m, s | .tle j _ m, s | .tg j _ m, s | .tw j _ m, s | .tnw j _ m, s => forget (s.operand j m)
  | .tzBasic j m, s | .tnzBasic j m, s | .tpBasic j m, s | .tnBasic j m, s => forget (s.operand j m)
  | .tnop j m, s | .tgz j m, s | .tpz j m, s | .tp j m, s | .tmz j m, s | .tmzg j m, s => forget (s.operand j m)
  | .tz j m, s | .tnlz j m, s | .tlz j m, s | .tnz j m, s | .tpzl j m, s | .tnmz j m, s => forget (s.operand j m)
  | .tn j m, s | .tnpz j m, s | .tngz j m, s | .tskp j m, s => forget (s.operand j m)
  | .jz _ m, s | .jnz _ m, s | .jp _ m, s | .jn _ m, s | .jmgi _ m, s | .lmj _ m, s | .djz _ m, s => forget (s.target m)
  | .j m, s | .nop m, s | .jo m, s | .jdf m, s | .jno m, s | .jndf m, s | .jc m, s | .jnc m, s => forget (s.target m)
  | .jgd j a m, s => (s.target m).bind fun _ s => forget (s.grsPlace (jgdCell j a))
  | .slj m, s => (s.target m).bind fun t s => forget (s.locate t Perms.readWrite)
  | .ts m, s | .tss m, s | .tcs m, s => forget (s.operandLoc Perms.readWrite m)
  | .halt _, s | .ur, s => .ok () s
  | .ld m, s => forget (s.operandLoc Perms.read m)
  | .sd m, s => forget (s.operandLoc Perms.write m)

/-- The refusal of the immediate form of an instruction: the increment family has one of its own. -/
def immediateRefusal : Instr → Refusal
  | .inc .. | .dec .. | .inc2 .. | .dec2 .. | .enz .. | .add1 .. | .sub1 .. => .immediateIncrement
  | _ => .immediateStore

/-! ### Shapes of results -/

/-- A load: the register `dest` gets `value` of the operand, and nothing else changes but the index increments. -/
def LoadsTo (i : Instr) (j : BitVec 4) (m : AddrSpec) (dest : State → Fin 128) (value : State → Word → Word) : Prop :=
  ∀ s u r, s.Quiet → s.discard.operand j m = .ok u r →
    Completes i s .seq fun t => Sets r t (dest s) (value r u) ∧ t.dr = s.dr ∧ SameStorage s t

/-- A double-word load word by word: where the second location is the cell of A(a), its read sees the pending write of A(a)
(spec/10_state.md R26). -/
def PairLoadsTo (i : Instr) (a : BitVec 4) (m : AddrSpec) (value : Word → Word) : Prop :=
  ∀ s l r, s.Quiet → a ≠ 15 → s.discard.operandLocs Perms.read m = .ok l r →
    Completes i s .seq fun t =>
      SetsTwo r t (s.aCell a) (value (r.readLoc l.1)) (s.aCell (a + 1))
          (value (if l.2 = .grs (s.aCell a) then value (r.readLoc l.1) else r.readLoc l.2)) ∧
        t.dr = s.dr ∧ SameStorage s t

/-- A store through `j`: the designated field of the location gets the low bits of `value`. -/
def StoresTo (i : Instr) (j : BitVec 4) (m : AddrSpec) (value : State → Word) : Prop :=
  ∀ s l r, s.Quiet → s.memory.wf → isFieldDesignator j = true → s.discard.operandLoc (storeAccess j) m = .ok l r →
    Completes i s .seq fun t => SetsLoc s r t l (mergeField s.quarterWord j (r.readLoc l) (value r)) ∧ t.dr = s.dr

/-- An addition to a register, where overflow is no fault. -/
def AddsTo (i : Instr) (j : BitVec 4) (m : AddrSpec) (ok : Prop) (dest : State → Fin 128) (p : State → Word)
    (q : Word → Word) : Prop :=
  ∀ s u r, s.Quiet → ok → s.discard.operand j m = .ok u r →
    (s.params.overflowIsFault = false ∨ (add36 (p r) (q u)).ovf = false) →
      Completes i s .seq fun t =>
        Sets r t (dest s) (add36 (p r) (q u)).r ∧ FlagsOf s.dr t.dr (add36 (p r) (q u)) ∧ SameStorage s t

/-- A 72-bit addition to a register pair, where overflow is no fault. -/
def PairAddsTo (i : Instr) (a : BitVec 4) (m : AddrSpec) (q : DWord → DWord) : Prop :=
  ∀ s l r, s.Quiet → a ≠ 15 → s.discard.operandLocs Perms.read m = .ok l r →
    (s.params.overflowIsFault = false ∨ (add72 (pairOf r a) (q (wordsAt r l))).ovf = false) →
      Completes i s .seq fun t =>
        (∃ v u : Word, v ++ u = (add72 (pairOf r a) (q (wordsAt r l))).r ∧ SetsTwo r t (s.aCell a) v (s.aCell (a + 1)) u) ∧
          FlagsOf s.dr t.dr (add72 (pairOf r a) (q (wordsAt r l))) ∧ SameStorage s t

/-- An addition that overflows, with the parameter `overflowIsFault`: the arithmetic exception with the flags written, or a
completion in which `zeroed` holds. -/
def Overflows {n : Nat} (i : Instr) (s : State) (x : Sum n) (act : Act) (zeroed : State → Prop) : Prop :=
  s.params.overflowIsFault = true → x.ovf = true →
    (s.arithExceptionEnabled = true →
      ∃ d, FlagsOf s.dr d x ∧ exec i s = ({ s.discard with dr := d }).takeSync .arithmeticException 3) ∧
    (s.arithExceptionEnabled = false → s.Quiet → Completes i s act fun t => zeroed t ∧ FlagsOf s.dr t.dr x)

/-- An overflowing addition to a register. -/
def OverflowsTo (i : Instr) (j : BitVec 4) (m : AddrSpec) (ok : Prop) (dest : State → Fin 128) (p : State → Word)
    (q : Word → Word) : Prop :=
  ∀ s u r, ok → s.discard.operand j m = .ok u r →
    Overflows i s (add36 (p r) (q u)) .seq fun t => Sets r t (dest s) 0 ∧ SameStorage s t

/-- An overflowing 72-bit addition to a register pair. -/
def PairOverflowsTo (i : Instr) (a : BitVec 4) (m : AddrSpec) (q : DWord → DWord) : Prop :=
  ∀ s l r, a ≠ 15 → s.discard.operandLocs Perms.read m = .ok l r →
    Overflows i s (add72 (pairOf r a) (q (wordsAt r l))) .seq fun t =>
      SetsTwo r t (s.aCell a) 0 (s.aCell (a + 1)) 0 ∧ SameStorage s t

/-- An overflowing addition in a location. -/
def CountOverflows (i : Instr) (j : BitVec 4) (m : AddrSpec) (k : Word) : Prop :=
  ∀ s l r, s.memory.wf → isFieldDesignator j = true → s.discard.operandLoc Perms.readWrite m = .ok l r →
    Overflows i s (add36 (readField s.quarterWord j (r.readLoc l)) k)
      (if s.params.add1Skips && zeroWord (add36 (readField s.quarterWord j (r.readLoc l)) k).r then .skip else .seq) fun t =>
        SetsLoc s r t l (mergeField s.quarterWord j (r.readLoc l) 0)

/-- A divide check, in a divide whose dividend is `d`. -/
def DivideChecks (i : Instr) (j a : BitVec 4) (m : AddrSpec) (d : State → Int) : Prop :=
  ∀ s u r kind, a ≠ 15 → s.discard.operand j m = .ok u r →
    (val u = 0 ∧ kind = 1 ∨ val u ≠ 0 ∧ 2 ^ 35 - 1 < ((d r).tdiv (val u)).natAbs ∧ kind = 2) →
      (s.arithExceptionEnabled = true →
        ∃ e, DivideCheckOf s.dr e true ∧ exec i s = ({ s.discard with dr := e }).takeSync .arithmeticException kind) ∧
      (s.arithExceptionEnabled = false → s.Quiet →
        Completes i s .seq fun t =>
          SetsTwo r t (s.aCell a) 0 (s.aCell (a + 1)) 0 ∧ DivideCheckOf s.dr t.dr true ∧ SameStorage s t)

/-- A divide with quotient and remainder, of the dividend `d`: no divide check. -/
def DividesTo (i : Instr) (j a : BitVec 4) (m : AddrSpec) (d : State → Int) : Prop :=
  ∀ s u r, s.Quiet → a ≠ 15 → s.discard.operand j m = .ok u r → val u ≠ 0 →
    ((d r).tdiv (val u)).natAbs ≤ 2 ^ 35 - 1 →
      Completes i s .seq fun t =>
        ∃ q e : Word, SetsTwo r t (s.aCell a) q (s.aCell (a + 1)) e ∧
          d r = val q * val u + val e ∧ (val e).natAbs < (val u).natAbs ∧ 0 ≤ val e * d r ∧
          q ≠ negZero ∧ e ≠ negZero ∧ t.dr = s.dr ∧ SameStorage s t

/-- An increment-family instruction without flags. -/
def CountsBy (i : Instr) (j : BitVec 4) (m : AddrSpec) (k : Word) : Prop :=
  ∀ s l r, s.Quiet → s.memory.wf → isFieldDesignator j = true → s.discard.operandLoc Perms.readWrite m = .ok l r →
    Completes i s (if zeroWord (add36 (readField s.quarterWord j (r.readLoc l)) k).r then .skip else .seq) fun t =>
      SetsLoc s r t l (mergeField s.quarterWord j (r.readLoc l) (add36 (readField s.quarterWord j (r.readLoc l)) k).r) ∧
        t.dr = s.dr

/-- An increment-family instruction with flags, where overflow is no fault. -/
def CountsFlaggedBy (i : Instr) (j : BitVec 4) (m : AddrSpec) (k : Word) : Prop :=
  ∀ s l r, s.Quiet → s.memory.wf → isFieldDesignator j = true → s.discard.operandLoc Perms.readWrite m = .ok l r →
    (s.params.overflowIsFault = false ∨ (add36 (readField s.quarterWord j (r.readLoc l)) k).ovf = false) →
      Completes i s
        (if s.params.add1Skips && zeroWord (add36 (readField s.quarterWord j (r.readLoc l)) k).r then .skip else .seq) fun t =>
          SetsLoc s r t l
            (mergeField s.quarterWord j (r.readLoc l) (add36 (readField s.quarterWord j (r.readLoc l)) k).r) ∧
          FlagsOf s.dr t.dr (add36 (readField s.quarterWord j (r.readLoc l)) k)

/-- A logical instruction: `f` of A(a) and the operand goes to A(a+1). -/
def CombinesTo (i : Instr) (j a : BitVec 4) (m : AddrSpec) (f : State → Word → Word → Word) : Prop :=
  ∀ s u r, s.Quiet → a ≠ 15 → s.discard.operand j m = .ok u r →
    Completes i s .seq fun t => Sets r t (s.aCell (a + 1)) (f r (r.readA a) u) ∧ t.dr = s.dr ∧ SameStorage s t

/-- A single shift of A(a) by the low seven bits of the target. -/
def ShiftsTo (i : Instr) (a : BitVec 4) (m : AddrSpec) (f : Word → Nat → Word) : Prop :=
  ∀ s n r, s.Quiet → s.discard.target m = .ok n r →
    Completes i s .seq fun t => Sets r t (s.aCell a) (f (r.readA a) (n.toNat % 128)) ∧ t.dr = s.dr ∧ SameStorage s t

/-- A double shift of (A(a), A(a+1)). -/
def PairShiftsTo (i : Instr) (a : BitVec 4) (m : AddrSpec) (f : DWord → Nat → DWord) : Prop :=
  ∀ s n r, s.Quiet → a ≠ 15 → s.discard.target m = .ok n r →
    Completes i s .seq fun t =>
      (∃ v u : Word, v ++ u = f (pairOf r a) (n.toNat % 128) ∧ SetsTwo r t (s.aCell a) v (s.aCell (a + 1)) u) ∧
        t.dr = s.dr ∧ SameStorage s t

/-- A test: the skip depends on `cond`, and nothing changes but the index increments, whatever `cond` is. -/
def TestsFor (i : Instr) (j : BitVec 4) (m : AddrSpec) (ok : Prop) (cond : State → Word → Prop) : Prop :=
  ∀ s u r, s.Quiet → ok → s.discard.operand j m = .ok u r →
    (cond r u → Completes i s .skip fun t => SetsNone r t ∧ t.dr = s.dr ∧ SameStorage s t) ∧
    (¬cond r u → Completes i s .seq fun t => SetsNone r t ∧ t.dr = s.dr ∧ SameStorage s t)

/-- A jump on `cond`: nothing changes but the PAR and the index increments, whatever `cond` is. -/
def JumpsIf (i : Instr) (m : AddrSpec) (ok : Prop) (cond : State → Prop) : Prop :=
  ∀ s n r, s.Quiet → ok → s.discard.target m = .ok n r →
    (cond r → Completes i s (.jump n) fun t => SetsNone r t ∧ t.dr = s.dr ∧ SameStorage s t) ∧
    (¬cond r → Completes i s .seq fun t => SetsNone r t ∧ t.dr = s.dr ∧ SameStorage s t)

end Sys2Proof.Machine

open Sys2Proof Sys2Proof.Machine

/-! ### Encoding and the cycle -/

/-- Decoding the encoding of an instruction, in a mode that its row decodes in, gives the instruction back, every operand
at every value (spec/30_encoding.md R130, R137). -/
def Obligations.DecodeOfEncode : Prop :=
  ∀ (m : Mode) (i : Instr), i.availableIn m = true → decode m (encode i) = .ok i

/-- Words written out from the encoding tables decode to their instructions: a load with a partial-word designator, a store
constant, a double-word load, a shift, an indexed and indirect jump, JGD, HALT, and the one word that is TZ in basic mode
and TLZ in extended mode (spec/30_encoding.md R137, R139). -/
def Obligations.DecodeWords : Prop :=
  decode .basic 0o101461402000 = .ok (.la 3 3 (AddrSpec.mk 1 true false 0o2000)) ∧
  decode .extended 0o050100010005 = .ok (.sfs 0 (AddrSpec.mk 0 false false 0o10005)) ∧
  decode .extended 0o715420020777 = .ok (.dl 1 (AddrSpec.mk 0 false false 0o20777)) ∧
  decode .basic 0o735000000003 = .ok (.lssl 0 (AddrSpec.mk 0 false false 3)) ∧
  decode .basic 0o742001601500 = .ok (.j (AddrSpec.mk 1 true true 0o1500)) ∧
  decode .extended 0o700300001100 = .ok (.jgd 0 0o14 (AddrSpec.mk 0 false false 0o1100)) ∧
  decode .basic 0o737540000123 = .ok (.halt 0o123) ∧
  decode .basic 0o500200000005 = .ok (.tzBasic 0 (AddrSpec.mk 0 false false 5)) ∧
  decode .extended 0o500200000005 = .ok (.tlz 0 (AddrSpec.mk 0 false false 5))

/-- When the word that Fetch reads decodes, in the state's mode, to an instruction, the step is the meaning of that
instruction on that state (spec/40_cycle.md R160, R162). -/
def Obligations.StepRunsDecoded : Prop :=
  ∀ (s r : State) (w : Word) (i : Instr), s.running = true → s.discard.fetch = .ok w r → decode s.mode w = .ok i →
    step s = exec i s

/-- Fetch: the bank is PB in extended mode and the slot of the offset in basic mode, and the checks come in the order void,
limits, permission, end of storage; an offset that no slot holds is a ReferenceViolation (spec/40_cycle.md R161). -/
def Obligations.FetchOutcomes : Prop :=
  ∀ (s : State) (b : BaseRegister) (off : Nat), off = (s.par.extractLsb' 0 18).toNat →
    (s.basicMode = true → s.basicBankSelect off = none →
      s.fetch = .raised .referenceViolation (BitVec.ofNat 36 off) s) ∧
    ((s.basicMode = true ∧ (∃ k, s.basicBankSelect off = some k ∧ b = s.br[k.number]) ∨ s.basicMode = false ∧ b = s.pb) →
      (b.isVoid = true → s.fetch = .raised .addressingException s.par s) ∧
      (b.isVoid = false → (off < b.lower ∨ b.upper < off) → s.fetch = .raised .referenceViolation s.par s) ∧
      (b.isVoid = false → b.lower ≤ off → off ≤ b.upper → (granted b s.key).e = false →
        s.fetch = .raised .referenceViolation s.par s) ∧
      (b.isVoid = false → b.lower ≤ off → off ≤ b.upper → (granted b s.key).e = true →
        s.params.storageSize ≤ b.base + off → s.fetch = .stuck (.absentStorage (b.base + off))) ∧
      (b.isVoid = false → b.lower ≤ off → off ≤ b.upper → (granted b s.key).e = true →
        b.base + off < s.params.storageSize → s.fetch = .ok (s.memory.read (b.base + off)) s))

/-- A failed Fetch and a word outside the opcode table end the step: the fault of Fetch, and the InvalidInstruction with the
word as its detail, are taken with nothing else changed; a recognized encoding is refused (spec/40_cycle.md R161, R173;
spec/30_encoding.md R150). -/
def Obligations.StepFaults : Prop :=
  ∀ s : State, s.running = true →
    (∀ c d r, s.discard.fetch = .raised c d r → step s = s.discard.takeSync c d) ∧
    (∀ (w : Word) (r : State) (e : DecodeReject), s.discard.fetch = .ok w r → decode s.mode w = .error e →
      (s.recognized (fieldsOf w) = false → step s = s.discard.takeSync .invalidInstruction w) ∧
      (s.recognized (fieldsOf w) = true → step s = .refused .unspecifiedInstruction))

/-- A stopped processor fetches nothing (spec/60_exceptions.md R413). That its step answers the same state is how the model
writes this (notes/assumptions/5.md). -/
def Obligations.StoppedStays : Prop := ∀ s : State, s.running = false → step s = .next s

/-! ### Invariants and rules of the whole machine -/

/-- Every step keeps what a state between two steps satisfies: storage in canonical form, the pending interrupts a map, the
banks legal, no pending write, admissible parameters (spec/10_state.md R36, R37, R42, R46). -/
def Obligations.StepKeepsSound : Prop := ∀ s t : State, s.Sound → step s = .next t → t.Sound

/-- The reset state satisfies it. -/
def Obligations.ResetSound : Prop := State.reset.Sound

/-- So does the state after every host call that is not refused, for parameters as they are. While the IP is stopped, start() and
every setter write the state that they name and nothing else; a bank whose limits are out of order or whose base is no
absolute address is refused (spec/60_exceptions.md R424; spec/40_cycle.md R174; spec/10_state.md R36, R37, R45). That a program
bank is refused like an installed one, and the refusal of a base, are the model's (notes/assumptions/13.md, 27.md). -/
def Obligations.HostCallKeepsSound : Prop :=
  (∀ (c : HostCall) (s t : State), s.Sound → hostCall c s = .next t → t.Sound) ∧
  (∀ s : State, s.running = false →
    hostCall .start s = .next { s with running := true } ∧
    (∀ v, hostCall (.setDR v) s = .next { s with dr := v }) ∧
    (∀ v, hostCall (.setPAR v) s = .next { s with par := v }) ∧
    (∀ k, hostCall (.setKey k) s = .next { s with key := k }) ∧
    (∀ name v, ∃ t, hostCall (.setGeneralRegister name v) s = .next t ∧ t = { s with grs := t.grs } ∧
      t.grs[name.toCell] = v ∧ ∀ k : Fin 128, k ≠ name.toCell → t.grs[k] = s.grs[k]) ∧
    (∀ slot b, (b.isVoid = true ∨ b.lower ≤ b.upper) → b.base < 2 ^ s.params.absAddrBits →
      hostCall (.installBaseRegister slot b) s = .next { s with br := s.br.set slot b } ∧
        hostCall (.setProgramBank b) s = .next { s with pb := b }) ∧
    (∀ slot b, b.isVoid = false → b.upper < b.lower →
      hostCall (.installBaseRegister slot b) s = .refused .misorderedLimits ∧
        hostCall (.setProgramBank b) s = .refused .misorderedLimits) ∧
    (∀ slot b, (b.isVoid = true ∨ b.lower ≤ b.upper) → 2 ^ s.params.absAddrBits ≤ b.base →
      hostCall (.installBaseRegister slot b) s = .refused .wideBase ∧ hostCall (.setProgramBank b) s = .refused .wideBase) ∧
    (∀ offset words, s.memory.wf → offset + words.length ≤ s.params.storageSize →
      ∃ t, hostCall (.load offset words) s = .next t ∧ t = { s with memory := t.memory } ∧
        (∀ k (h : k < words.length), t.memory.read (offset + k) = words[k]) ∧
        ∀ a, a < offset ∨ offset + words.length ≤ a → t.memory.read a = s.memory.read a)) ∧
  (∀ n : Fin 16, (GrsName.x n).toCell.val = n.val ∧ (GrsName.a n).toCell.val = 12 + n.val ∧
    (GrsName.r n).toCell.val = 64 + n.val ∧ (GrsName.er n).toCell.val = 80 + n.val ∧
    (GrsName.ex n).toCell.val = 96 + n.val ∧ (GrsName.ea n).toCell.val = 108 + n.val)

/-- The bits of the DR that an instruction writes are those that its own rule names; where its InterruptCheck enters a class,
this holds of the state at that check, whose DR the entry saves (spec/10_state.md R29; spec/42_arithmetic.md R221;
spec/44_test_jump.md R346, R347). -/
def Obligations.WritesOnlyItsDRBits : Prop :=
  ∀ (i : Instr) (s t : State), exec i s = .next t → t.dr &&& ~~~(drBits i) = s.dr &&& ~~~(drBits i) ∨
    ∃ u p, Enters (exec i s) s u p t ∧ u.dr &&& ~~~(drBits i) = s.dr &&& ~~~(drBits i)

/-- The privilege changes only at privilege 0, by LD or UR, or by the interrupt entry of the step's InterruptCheck, or by the
host's setting of the DR (spec/60_exceptions.md R406). -/
def Obligations.PrivilegeChanges : Prop :=
  (∀ s t : State, step s = .next t → t.pp ≠ s.pp →
    (s.pp = 0 ∧ RunsLdOrUr s) ∨
      ∃ u p, Enters (step s) s u p t ∧ (u.pp = s.pp ∨ s.pp = 0 ∧ RunsLdOrUr s)) ∧
  (∀ (c : HostCall) (s t : State), hostCall c s = .next t → t.pp ≠ s.pp → ∃ v, c = .setDR v)

/-- No step writes a base register, and the only host call that does replaces one slot whole (spec/10_state.md R38). -/
def Obligations.BaseRegistersByInstallOnly : Prop :=
  (∀ s t : State, step s = .next t → t.br = s.br) ∧
  (∀ (c : HostCall) (s t : State), hostCall c s = .next t → t.br ≠ s.br →
    ∃ k b, c = .installBaseRegister k b ∧ t.br = s.br.set k b)

/-- Only an interrupt entry and the host's setter write the access key (spec/10_state.md R41); no step and no host call
changes a parameter. -/
def Obligations.KeyAndParameters : Prop :=
  (∀ s t : State, step s = .next t →
    (t.key = s.key ∨ ∃ u p, Enters (step s) s u p t ∧ t.key = s.entryKey p.cls) ∧ t.params = s.params) ∧
  (∀ (c : HostCall) (s t : State), hostCall c s = .next t → (t.key = s.key ∨ ∃ k, c = .setKey k ∧ t.key = k) ∧
    t.params = s.params)

/-! ### Address resolution -/

/-- The resolver writes nothing but pending increments of index registers X1 to X15, each of them Xm + Xi on the register as
the last increment left it, and the location of SLJ is found without any (spec/20_memory.md R88, R113; spec/44_test_jump.md
R340). -/
def Obligations.ResolverWrites : Prop :=
  ∀ (s t : State) (m : AddrSpec),
    (∀ acc l, s.operandLoc acc m = .ok l t → Bumped s t) ∧
    (∀ acc l, s.operandLocs acc m = .ok l t → Bumped s t) ∧
    (∀ j u, s.operand j m = .ok u t → Bumped s t) ∧
    (∀ n, s.target m = .ok n t → Bumped s t) ∧
    (∀ n acc l, s.locate n acc = .ok l t → t = s)

/-- Step 1 of a resolution. The displacement, the modifier of an index word, and the relative address: the displacement alone
for x = 0, else its sum with the modifier of X(x) modulo the index width. The post-increment, for x other than 0 with h set:
Xm + Xi modulo the width, with Xi kept, as a pending write of that one cell; in 24-bit mode the 12-bit Xi is sign-extended
first (spec/10_state.md R27; spec/20_memory.md R86 to R89). -/
def Obligations.PostIncrement : Prop :=
  (∀ (s : State) (v : Word),
    (s.dr.getLsbD 33 = false → (s.incremented v).extractLsb' 18 18 = v.extractLsb' 18 18 ∧
      (s.incremented v).extractLsb' 0 18 = v.extractLsb' 0 18 + v.extractLsb' 18 18 ∧
      s.modifier v = (v.extractLsb' 0 18).toNat) ∧
    (s.dr.getLsbD 33 = true → (s.incremented v).extractLsb' 24 12 = v.extractLsb' 24 12 ∧
      (s.incremented v).extractLsb' 0 24 = v.extractLsb' 0 24 + (v.extractLsb' 24 12).signExtend 24 ∧
      s.modifier v = (v.extractLsb' 0 24).toNat)) ∧
  (∀ (s : State) (m : AddrSpec) (disp : Nat),
    s.operandDisp m = (if s.dr.getLsbD 19 then m.u.toNat else (m.u.extractLsb' 0 12).toNat) ∧
    (m.x = 0 → s.indexed disp m = disp) ∧
    (m.x ≠ 0 → s.dr.getLsbD 33 = false →
      s.indexed disp m = (disp + ((s.readX m.x).extractLsb' 0 18).toNat) % 2 ^ 18) ∧
    (m.x ≠ 0 → s.dr.getLsbD 33 = true →
      s.indexed disp m = (disp + ((s.readX m.x).extractLsb' 0 24).toNat) % 2 ^ 24)) ∧
  (∀ (s : State) (m : AddrSpec),
    (m.x = 0 ∨ m.h = false → s.afterIndex m = s) ∧ (m.x ≠ 0 → m.h = true → s.afterIndex m = s.bump m.x)) ∧
  (∀ (s : State) (n : BitVec 4),
    s.bump n = { s with pw := s.pw ++ [.grs (s.xCell n) (s.incremented (s.readX n))] } ∧
    (s.bump n).readX n = s.incremented (s.readX n) ∧
    ∀ k : Fin 128, k ≠ s.xCell n → (s.bump n).readGrs k = s.readGrs k)

/-- The immediate operands of 016 and 017, unindexed and indexed: no location is resolved, `i` is ignored when indexed, and
the post-increment applies (spec/20_memory.md R107). -/
def Obligations.ImmediateOperand : Prop :=
  ∀ (s : State) (m : AddrSpec) (v : BitVec 18),
    v = (if m.x = 0 then BitVec.ofBool m.h ++ BitVec.ofBool m.i ++ m.u
      else BitVec.ofNat 18 ((m.u.toNat + s.modifier (s.readX m.x)) % 2 ^ (if s.dr.getLsbD 33 then 24 else 18))) →
    ∃ t, t = (if m.x ≠ 0 ∧ m.h = true then s.bump m.x else s) ∧
      s.operand 14 m = .ok (v.setWidth 36) t ∧ s.operand 15 m = .ok (signedField v) t

/-- The fields of the DR that select, and the cells of the registers that an instruction names, with A0 to A3 the cells of X12
to X15 in both sets (spec/10_state.md R21, R22, R24, R29, R30, R31). The operands that are GRS cells: in basic mode a relative
address below 0200, in extended mode an unindexed `d` below 0200 with `b` zero. The exec cells are refused at a privilege other
than 0 (spec/20_memory.md R95, R96, R97). -/
def Obligations.RegisterOperand : Prop :=
  (∀ s : State,
    s.basicMode = s.dr.getLsbD 19 ∧ s.pp.val = (s.dr.extractLsb' 20 2).toNat ∧ s.ix24 = s.dr.getLsbD 33 ∧
    s.quarterWord = s.dr.getLsbD 3 ∧ s.arithExceptionEnabled = s.dr.getLsbD 6) ∧
  (∀ (s : State) (n k : BitVec 4),
    s.readA n = s.readGrs (s.aCell n) ∧ s.readX n = s.readGrs (s.xCell n) ∧ s.readR n = s.readGrs (s.rCell n) ∧
    (s.aCell n).val = (if s.dr.getLsbD 18 then 108 else 12) + n.toNat ∧
    (s.xCell n).val = (if s.dr.getLsbD 18 then 96 else 0) + n.toNat ∧
    (s.rCell n).val = (if s.dr.getLsbD 18 then 80 else 64) + n.toNat ∧
    (s.aCell n = s.xCell k ↔ k.toNat = 12 + n.toNat)) ∧
  (∀ (s : State) (m : AddrSpec) (acc : Perms) (n : Fin 128), m.i = false →
    (s.basicMode = true ∧ s.indexed m.u.toNat m = n.val ∨
      s.basicMode = false ∧ m.x = 0 ∧ m.b = 0 ∧ m.d.toNat = n.val) →
    (s.pp = 0 ∨ n.val < 0o120 → s.operandLoc acc m = .ok (.grs n) (s.afterIndex m)) ∧
    (s.pp ≠ 0 → 0o120 ≤ n.val → s.operandLoc acc m = .refused .execGRSFromNonExec))

/-- The operands in storage, and the checks of the bank in their order, which are those of `BankChecks`: void, limits,
permissions, end of storage (spec/20_memory.md R92, R93, R101, R102, R106, R115, R116); the access sets, the general and special
permissions, and what the basic-mode selection may depend on (R92, R111, R115). A double-word operand resolves as its first
word does, index increment included, and its second word is the successor, with checks of its own; cell 127 has no successor,
and the successor cell is an exec cell like any other (R110; the last by notes/assumptions/8.md). -/
def Obligations.StorageOperand : Prop :=
  (∀ (s : State) (m : AddrSpec) (acc : Perms) (slot : Fin 16) (rel : Nat), m.i = false →
    (s.basicMode = true ∧ rel = s.indexed m.u.toNat m ∧ 0o200 ≤ rel ∧
        (∃ k, s.basicBankSelect rel = some k ∧ slot = k.number) ∨
      s.basicMode = false ∧ rel = s.indexed m.d.toNat m ∧ m.b ≠ 0 ∧ slot = m.b.toFin) →
    (s.afterIndex m).br = s.br ∧ (s.afterIndex m).key = s.key ∧ (s.afterIndex m).params = s.params ∧
      BankChecks (s.afterIndex m) acc slot rel (s.operandLoc acc m)) ∧
  (∀ (b : BaseRegister) (key : AccessKey) (p acc : Perms),
    b.permissions key = granted b key ∧ (acc.subset p = true ↔ Permits p acc)) ∧
  (Perms.read = Perms.mk false true false ∧ Perms.write = Perms.mk false false true ∧
    Perms.readWrite = Perms.mk false true true) ∧
  (∀ (s t : State) (rel : Nat), t.params = s.params → t.pp = s.pp → t.dr.getLsbD 4 = s.dr.getLsbD 4 →
    t.basicBankSelect rel = s.basicBankSelect rel) ∧
  (∀ m : AddrSpec, m.b = m.u.extractLsb' 12 4 ∧ m.d = m.u.extractLsb' 0 12) ∧
  (BasicSlot.b12.number = 12 ∧ BasicSlot.b13.number = 13 ∧ BasicSlot.b14.number = 14 ∧ BasicSlot.b15.number = 15) ∧
  (∀ (s : State) (m : AddrSpec) (acc : Perms),
    FailsAs (s.operandLoc acc m) (s.operandLocs acc m) ∧
    (∀ n r, s.operandLoc acc m = .ok (.grs n) r →
      (n = 127 → s.operandLocs acc m = .refused .grsPairOverflow) ∧
      (n ≠ 127 → (s.pp = 0 ∨ n.val + 1 < 0o120) → s.operandLocs acc m = .ok (.grs n, .grs (n + 1)) r) ∧
      (n ≠ 127 → s.pp ≠ 0 → 0o120 ≤ n.val + 1 → s.operandLocs acc m = .refused .execGRSFromNonExec)) ∧
    (∀ slot rel abs r, s.operandLoc acc m = .ok (.mem slot rel abs) r →
      abs = s.br[slot].base + rel ∧
      (s.br[slot].upper < rel + 1 →
        s.operandLocs acc m = .raised .referenceViolation (BitVec.ofNat 36 (slot.val * 2 ^ 32 + (rel + 1))) r) ∧
      (rel + 1 ≤ s.br[slot].upper → s.params.storageSize ≤ abs + 1 →
        s.operandLocs acc m = .stuck (.absentStorage (abs + 1))) ∧
      (rel + 1 ≤ s.br[slot].upper → abs + 1 < s.params.storageSize →
        s.operandLocs acc m = .ok (.mem slot rel abs, .mem slot (rel + 1) (abs + 1)) r)))

/-- The operand forms without a bank: a basic-mode address that no slot holds raises ReferenceViolation with the relative
address, and an extended-mode use of base register 0 that is no GRS form is refused; so it is at every level of indirection,
where `place` gives the place (spec/20_memory.md R94, R96, R118). -/
def Obligations.OperandWithoutBank : Prop :=
  ∀ (s : State) (m : AddrSpec) (acc : Perms),
    (s.basicMode = true → 0o200 ≤ s.indexed m.u.toNat m → s.basicBankSelect (s.indexed m.u.toNat m) = none →
      s.operandLoc acc m =
        .raised .referenceViolation (BitVec.ofNat 36 (s.indexed m.u.toNat m)) (s.afterIndex m)) ∧
    (s.basicMode = false → m.b = 0 → (m.x ≠ 0 ∨ 0o200 ≤ m.d.toNat) → s.operandLoc acc m = .refused .b0Operand) ∧
    (∀ rel, s.basicMode = true → 0o200 ≤ rel → s.basicBankSelect rel = none →
      s.place rel m = .raised .referenceViolation (BitVec.ofNat 36 rel) s) ∧
    (∀ rel, s.basicMode = false → m.b = 0 → (m.x ≠ 0 ∨ 0o200 ≤ m.d.toNat) → s.place rel m = .refused .b0Operand)

/-- Indirection. A specifier without it, at any level, is the place or the target that it names itself. An indirect operand, and
in basic mode an indirect target, is the one that the fetched word specifies, with one indirect word fewer allowed, at every
level; where the place of the indirect word or its fetch fails, so does the resolution, with the same outcome. What a place,
the fetch of an indirect word and its fields are. The chain is bounded: with no indirect word left an indirect specifier
raises TerminalAddressingException at its relative address, for an operand once its place is formed; and a specifier that
names itself raises it, whatever `maxIndirect` is, as an operand and, in basic mode, as a target (spec/20_memory.md R91 to R102,
R106, R109, R114, R117). -/
def Obligations.Indirection : Prop :=
  (∀ (s t u : State) (m : AddrSpec) (acc : Perms) (p : Place) (w : Word) (k : Nat), m.i = true →
    s.params.maxIndirect = k + 1 → (s.afterIndex m).place (s.indexed (s.operandDisp m) m) m = .ok p t →
    t.readChecked p = .ok w u →
      s.operandLoc acc m = (resolvePlace k (specOf w) u).bind fun q v => v.check acc q) ∧
  (∀ (s : State) (m : AddrSpec) (rel : Nat) (p : Place) (w : Word), m.i = true → m.x = 0 → rel = s.operandDisp m →
    s.place rel m = .ok p s → s.readChecked p = .ok w s → specOf w = m →
      (∀ acc, s.operandLoc acc m = .raised .terminalAddressingException (BitVec.ofNat 36 rel) s) ∧
      (s.basicMode = true → s.target m = .raised .terminalAddressingException (BitVec.ofNat 36 rel) s)) ∧
  (∀ (s : State) (m : AddrSpec) (k rel : Nat), rel = s.indexed (s.operandDisp m) m →
    (m.i = false → resolvePlace k m s = (s.afterIndex m).place rel m) ∧
    (m.i = true → GoesOn ((s.afterIndex m).place rel m) (resolvePlace 0 m s)
      fun _ t => .raised .terminalAddressingException (BitVec.ofNat 36 rel) t) ∧
    (m.i = true → FailsAs ((s.afterIndex m).place rel m) (resolvePlace (k + 1) m s) ∧
      ∀ p t, (s.afterIndex m).place rel m = .ok p t →
        GoesOn (t.readChecked p) (resolvePlace (k + 1) m s) fun w u => resolvePlace k (specOf w) u)) ∧
  (∀ (s : State) (m : AddrSpec) (k rel : Nat), rel = s.indexed m.u.toNat m →
    (m.i = false → resolveTarget k m s = .ok rel (s.afterIndex m)) ∧
    (m.i = true → s.basicMode = false → resolveTarget k m s = .refused .extendedIndirectTarget) ∧
    (m.i = true → s.basicMode = true →
      resolveTarget 0 m s = .raised .terminalAddressingException (BitVec.ofNat 36 rel) (s.afterIndex m) ∧
      FailsAs ((s.afterIndex m).place rel m) (resolveTarget (k + 1) m s) ∧
      ∀ p t, (s.afterIndex m).place rel m = .ok p t →
        GoesOn (t.readChecked p) (resolveTarget (k + 1) m s) fun w u => resolveTarget k (specOf w) u)) ∧
  (∀ (s : State) (m : AddrSpec),
    (∀ acc, GoesOn (resolvePlace s.params.maxIndirect m s) (s.operandLoc acc m) fun p u => u.check acc p) ∧
    GoesOn (resolveTarget s.params.maxIndirect m s) (s.target m) fun rel u => .ok (BitVec.ofNat 18 rel) u) ∧
  (∀ (s : State) (m : AddrSpec) (rel : Nat),
    (s.basicMode = true → rel < 0o200 → CellNamed s rel (s.place rel m) .grs) ∧
    (s.basicMode = true → 0o200 ≤ rel → ∀ k, s.basicBankSelect rel = some k → s.place rel m = .ok (.mem k.number rel) s) ∧
    (s.basicMode = false → m.x = 0 → m.b = 0 → m.d.toNat < 0o200 → CellNamed s m.d.toNat (s.place rel m) .grs) ∧
    (s.basicMode = false → m.b ≠ 0 → s.place rel m = .ok (.mem m.b.toFin rel) s)) ∧
  (∀ (s : State) (p : Place),
    GoesOn (s.check Perms.read p) (s.readChecked p) fun l u => .ok (u.readLoc l) u) ∧
  (∀ (s : State) (acc : Perms),
    (∀ n, s.check acc (.grs n) = .ok (.grs n) s) ∧
    ∀ slot rel, BankChecks s acc slot rel (s.check acc (.mem slot rel))) ∧
  (∀ w : Word, specOf w = AddrSpec.mk (w.extractLsb' 18 4) (w.getLsbD 17) (w.getLsbD 16) (w.extractLsb' 0 16))

/-- The target of a specifier without indirection is 18 bits of the relative address, in both modes with the 16-bit
displacement; an indirect target is refused in extended mode (spec/20_memory.md R86, R109). -/
def Obligations.DirectTarget : Prop :=
  ∀ (s : State) (m : AddrSpec),
    (m.i = false → s.target m = .ok (BitVec.ofNat 18 (s.indexed m.u.toNat m)) (s.afterIndex m)) ∧
    (m.i = true → s.basicMode = false → s.target m = .refused .extendedIndirectTarget)

/-- A resolution that fails ends the instruction, whichever it is, with no effect of its own: a raise is taken on the state at
Fetch, so the increments already formed are gone; a refusal and a stuck access stop it (spec/20_memory.md R103;
spec/40_cycle.md R171, R173). That a failing resolution comes before the instruction's own refusals is the model's reading
(notes/assumptions/6.md). -/
def Obligations.FailedResolution : Prop :=
  ∀ (i : Instr) (s : State),
    (∀ c d r, resolution i s.discard = .raised c d r → exec i s = s.discard.takeSync c d) ∧
    (∀ w, resolution i s.discard = .refused w → exec i s = .refused w) ∧
    (∀ f, resolution i s.discard = .stuck f → exec i s = .fault f) ∧
    (∀ e d r, resolution i s.discard ≠ .fatal e d r) ∧ s.discard = { s with pw := [] }

/-! ### Operand values -/

/-- The partial-word read table, row by row (spec/20_memory.md R104, with the positions of spec/00_scope.md R11). -/
def fieldTable (qw : Bool) (v : Word) : Nat → Word
  | 0o00 => v
  | 0o01 => (v.extractLsb' 0 18).setWidth 36
  | 0o02 => (v.extractLsb' 18 18).setWidth 36
  | 0o03 => signedField (v.extractLsb' 0 18)
  | 0o04 => if qw then (v.extractLsb' 18 9).setWidth 36 else signedField (v.extractLsb' 18 18)
  | 0o05 => if qw then (v.extractLsb' 0 9).setWidth 36 else signedField (v.extractLsb' 0 12)
  | 0o06 => if qw then (v.extractLsb' 9 9).setWidth 36 else signedField (v.extractLsb' 12 12)
  | 0o07 => if qw then (v.extractLsb' 27 9).setWidth 36 else signedField (v.extractLsb' 24 12)
  | 0o10 => (v.extractLsb' 0 6).setWidth 36
  | 0o11 => (v.extractLsb' 6 6).setWidth 36
  | 0o12 => (v.extractLsb' 12 6).setWidth 36
  | 0o13 => (v.extractLsb' 18 6).setWidth 36
  | 0o14 => (v.extractLsb' 24 6).setWidth 36
  | 0o15 => (v.extractLsb' 30 6).setWidth 36
  | _ => 0

/-- The lowest bit and the width of the field that a designator names (R11, R104). -/
def fieldPlace (qw : Bool) : Nat → Nat × Nat
  | 0o01 | 0o03 => (0, 18)
  | 0o02 => (18, 18)
  | 0o04 => if qw then (18, 9) else (18, 18)
  | 0o05 => if qw then (0, 9) else (0, 12)
  | 0o06 => if qw then (9, 9) else (12, 12)
  | 0o07 => if qw then (27, 9) else (24, 12)
  | 0o10 => (0, 6)
  | 0o11 => (6, 6)
  | 0o12 => (12, 6)
  | 0o13 => (18, 6)
  | 0o14 => (24, 6)
  | 0o15 => (30, 6)
  | _ => (0, 36)

/-- A read through `j` is that of the partial-word table, and a store through `j` writes the bits of its field and keeps the
others (spec/00_scope.md R11; spec/20_memory.md R104, R105). The operand of a field designator is the word of its location
read so, and a resolution that fails is the operand's failure (spec/41_load_store.md R180). A storage location reads as its
word, and a GRS location as its cell with the last pending write of it (spec/20_memory.md R106, R117; spec/10_state.md R26).
A stored field reads back as the low bits stored. -/
def Obligations.FieldStoreRead : Prop :=
  (∀ (o : Overlay) (v x : Word) (k : Nat),
    (k < o.width → (o.put v x).getLsbD (o.lo + k) = x.getLsbD k) ∧
    (k < o.lo ∨ o.lo + o.width ≤ k → (o.put v x).getLsbD k = v.getLsbD k) ∧
    (o.getZ (o.put v x)).getLsbD k = (decide (k < o.width) && x.getLsbD k)) ∧
  (∀ (qw : Bool) (j : BitVec 4) (v x : Word) (k : Nat), j.toNat < 0o16 →
    readField qw j v = fieldTable qw v j.toNat ∧
    (mergeField qw j v x).getLsbD k =
      if (fieldPlace qw j.toNat).1 ≤ k ∧ k < (fieldPlace qw j.toNat).1 + (fieldPlace qw j.toNat).2 then
        x.getLsbD (k - (fieldPlace qw j.toNat).1) else v.getLsbD k) ∧
  (∀ (s : State) (j : BitVec 4) (m : AddrSpec), (isFieldDesignator j = true ↔ j.toNat < 0o16) ∧
    (j.toNat < 0o16 → GoesOn (s.operandLoc Perms.read m) (s.operand j m)
      fun l r => .ok (fieldTable (s.dr.getLsbD 3) (r.readLoc l) j.toNat) r)) ∧
  (∀ s : State,
    (∀ n, s.readLoc (.grs n) = s.readGrs n) ∧ (∀ slot rel abs, s.readLoc (.mem slot rel abs) = s.memory.read abs) ∧
    (s.pw = [] → ∀ n : Fin 128, s.readGrs n = s.grs[n]) ∧
    ∀ (w : PendingWrite) (n : Fin 128), State.readGrs { s with pw := s.pw ++ [w] } n =
      match w with
      | .grs k v => if k = n then v else s.readGrs n
      | _ => s.readGrs n)

/-- No partial-word read and no immediate gives negative zero: a sign-extended field of all ones reads as +0
(spec/00_scope.md R12; spec/20_memory.md R104, R107). -/
def Obligations.NoNegativeZeroRead : Prop :=
  (∀ (qw : Bool) (j : BitVec 4) (v : Word), isFieldDesignator j = true → j ≠ 0 → readField qw j v ≠ negZero) ∧
  (∀ (j : BitVec 4) (v : BitVec 18), isFieldDesignator j = false → immediateValue j v ≠ negZero) ∧
  (∀ o : Overlay, o ≠ .w → o.getS (BitVec.allOnes 36) = 0)

/-! ### Loads and stores -/

/-- The single-word loads LA, LNA, LMA, LNMA, LR, LX, LXM and LXI (spec/41_load_store.md R181 to R188). The index registers
that change besides the destination are those of `ResolverWrites`. -/
def Obligations.LoadResults : Prop :=
  ∀ (j a : BitVec 4) (m : AddrSpec),
    LoadsTo (.la j a m) j m (·.aCell a) (fun _ u => u) ∧
    LoadsTo (.lna j a m) j m (·.aCell a) (fun _ u => ~~~u) ∧
    LoadsTo (.lma j a m) j m (·.aCell a) (fun _ u => if u.msb then ~~~u else u) ∧
    LoadsTo (.lnma j a m) j m (·.aCell a) (fun _ u => if u.msb then u else ~~~u) ∧
    LoadsTo (.lr j a m) j m (·.rCell a) (fun _ u => u) ∧
    LoadsTo (.lx j a m) j m (·.xCell a) (fun _ u => u) ∧
    LoadsTo (.lxm j a m) j m (·.xCell a) (fun r u => (r.readX a).extractLsb' 18 18 ++ u.extractLsb' 0 18) ∧
    LoadsTo (.lxi j a m) j m (·.xCell a) (fun r u => u.extractLsb' 0 18 ++ (r.readX a).extractLsb' 0 18)

/-- The double-word loads DL and DLN, whose second word is read after A(a) is written, DLM, which reads both words first, and the
double-word store DS, which reads A(a+1) after the first location is written (spec/41_load_store.md R194 to R197;
spec/20_memory.md R110, R117; spec/10_state.md R26). -/
def Obligations.PairMoveResults : Prop :=
  ∀ (a : BitVec 4) (m : AddrSpec),
    PairLoadsTo (.dl a m) a m (fun v => v) ∧
    PairLoadsTo (.dln a m) a m (fun v => ~~~v) ∧
    (∀ (s r : State) (l : Loc × Loc) (v w : Word), s.Quiet → a ≠ 15 → s.discard.operandLocs Perms.read m = .ok l r →
      v = r.readLoc l.1 → w = r.readLoc l.2 →
        Completes (.dlm a m) s .seq fun t =>
          SetsTwo r t (s.aCell a) (if v.msb then ~~~v else v) (s.aCell (a + 1)) (if v.msb then ~~~w else w) ∧
            t.dr = s.dr ∧ SameStorage s t) ∧
    (∀ (s r : State) (l : Loc × Loc), s.Quiet → s.memory.wf → a ≠ 15 → s.discard.operandLocs Perms.write m = .ok l r →
      Completes (.ds a m) s .seq fun t =>
        SetsLocs s r t l (r.readA a) (if l.1 = .grs (s.aCell (a + 1)) then r.readA a else r.readA (a + 1)) ∧ t.dr = s.dr)

/-- The stores SA, SNA, SMA, SR and SX, which see their own index increment, and the eight store constants
(spec/41_load_store.md R189 to R193, R198 to R205). A store of a whole word needs write access, and a store of a part of one
needs read and write access (spec/20_memory.md R111). -/
def Obligations.StoreResults : Prop :=
  ∀ (j a : BitVec 4) (m : AddrSpec),
    StoresTo (.sa j a m) j m (fun r => r.readA a) ∧
    StoresTo (.sna j a m) j m (fun r => ~~~(r.readA a)) ∧
    StoresTo (.sma j a m) j m (fun r => if (r.readA a).msb then ~~~(r.readA a) else r.readA a) ∧
    StoresTo (.sr j a m) j m (fun r => r.readR a) ∧
    StoresTo (.sx j a m) j m (fun r => r.readX a) ∧
    StoresTo (.sz j m) j m (fun _ => 0) ∧
    StoresTo (.snz j m) j m (fun _ => 0o777777777777) ∧
    StoresTo (.sp1 j m) j m (fun _ => 1) ∧
    StoresTo (.sn1 j m) j m (fun _ => 0o777777777776) ∧
    StoresTo (.sfs j m) j m (fun _ => 0o050505050505) ∧
    StoresTo (.sfz j m) j m (fun _ => 0o606060606060) ∧
    StoresTo (.sas j m) j m (fun _ => 0o040040040040) ∧
    StoresTo (.saz j m) j m (fun _ => 0o060060060060) ∧
    storeAccess j = Perms.mk false (decide (j ≠ 0)) true

/-- The immediate form of a store or of an increment-family instruction: in basic mode at a privilege other than 0 it takes
InvalidInstruction with the instruction word, and elsewhere it is refused by name (spec/41_load_store.md R206;
spec/42_arithmetic.md R248). That it resolves no operand first is the model's reading (notes/assumptions/7.md). -/
def Obligations.ImmediateForms : Prop :=
  ∀ (i : Instr) (s : State), i.hasStoreField = false →
    (s.basicMode = true → s.pp ≠ 0 → exec i s = s.discard.takeSync .invalidInstruction (encode i)) ∧
    (s.basicMode = false ∨ s.pp = 0 → exec i s = .refused (immediateRefusal i))

/-! ### Arithmetic -/

/-- The end-around sum of unsigned values, at `n` bits: the carry out is added back, and all ones become zero unless both operands
are all ones (spec/42_arithmetic.md R222). -/
def endAroundSum (n p q : Nat) : Nat :=
  if (p + q) % 2 ^ n + (p + q) / 2 ^ n = 2 ^ n - 1 ∧ ¬(p = 2 ^ n - 1 ∧ q = 2 ^ n - 1) then 0
  else (p + q) % 2 ^ n + (p + q) / 2 ^ n

/-- The adder, at 36 and at 72 bits: the sum with its end-around carry, carry as the carry out of the unsigned sum, and overflow
exactly when the operands have one sign and the sum the other; the sum has the value p + q exactly when there is no overflow,
and is negative zero only for -0 and -0; and the value of a word (spec/42_arithmetic.md R222, R223, R249; spec/00_scope.md R9). -/
def Obligations.AdderLaws : Prop :=
  (∀ p q : Word,
    (add36 p q).r.toNat = endAroundSum 36 p.toNat q.toNat ∧
    ((add36 p q).ovf = true ↔ p.msb = q.msb ∧ (add36 p q).r.msb ≠ p.msb) ∧
    (val (add36 p q).r = val p + val q ↔ (add36 p q).ovf = false) ∧
    ((add36 p q).carry = true ↔ 2 ^ 36 ≤ p.toNat + q.toNat) ∧
    ((add36 p q).r = BitVec.allOnes 36 ↔ p = BitVec.allOnes 36 ∧ q = BitVec.allOnes 36) ∧
    add36 p q = add36 q p ∧ (add36 p (~~~p)).r = 0 ∧ (add36 p 0).r = (if p = BitVec.allOnes 36 then 0 else p) ∧
    val p = (if p.getLsbD 35 then (p.toNat : Int) - (2 ^ 36 - 1) else (p.toNat : Int))) ∧
  (∀ p q : DWord,
    (add72 p q).r.toNat = endAroundSum 72 p.toNat q.toNat ∧
    ((add72 p q).ovf = true ↔ p.msb = q.msb ∧ (add72 p q).r.msb ≠ p.msb) ∧
    (val (add72 p q).r = val p + val q ↔ (add72 p q).ovf = false) ∧
    ((add72 p q).carry = true ↔ 2 ^ 72 ≤ p.toNat + q.toNat) ∧
    ((add72 p q).r = BitVec.allOnes 72 ↔ p = BitVec.allOnes 72 ∧ q = BitVec.allOnes 72) ∧
    val p = (if p.getLsbD 71 then (p.toNat : Int) - (2 ^ 72 - 1) else (p.toNat : Int)))

/-- The additions AA, ANA, AMA, ANMA, AU, ANU, AX, ANX, DA and DAN: the sum, both flags, and nothing else of the DR
(spec/42_arithmetic.md R221, R224 to R233). -/
def Obligations.AddResults : Prop :=
  ∀ (j a : BitVec 4) (m : AddrSpec),
    AddsTo (.aa j a m) j m True (·.aCell a) (·.readA a) (fun u => u) ∧
    AddsTo (.ana j a m) j m True (·.aCell a) (·.readA a) (fun u => ~~~u) ∧
    AddsTo (.ama j a m) j m True (·.aCell a) (·.readA a) (fun u => if u.msb then ~~~u else u) ∧
    AddsTo (.anma j a m) j m True (·.aCell a) (·.readA a) (fun u => if u.msb then u else ~~~u) ∧
    AddsTo (.au j a m) j m (a ≠ 15) (·.aCell (a + 1)) (·.readA a) (fun u => u) ∧
    AddsTo (.anu j a m) j m (a ≠ 15) (·.aCell (a + 1)) (·.readA a) (fun u => ~~~u) ∧
    AddsTo (.ax j a m) j m True (·.xCell a) (·.readX a) (fun u => u) ∧
    AddsTo (.anx j a m) j m True (·.xCell a) (·.readX a) (fun u => ~~~u) ∧
    PairAddsTo (.da a m) a m (fun w => w) ∧
    PairAddsTo (.dan a m) a m (fun w => ~~~w)

/-- The other reading of overflow, under the parameter `overflowIsFault`: a raise with detail 3 and surviving flags, or a
zero in the destination (spec/42_arithmetic.md R240; the surviving carry is the model's, notes/assumptions/12.md). -/
def Obligations.OverflowFaults : Prop :=
  ∀ (j a : BitVec 4) (m : AddrSpec),
    OverflowsTo (.aa j a m) j m True (·.aCell a) (·.readA a) (fun u => u) ∧
    OverflowsTo (.ana j a m) j m True (·.aCell a) (·.readA a) (fun u => ~~~u) ∧
    OverflowsTo (.ama j a m) j m True (·.aCell a) (·.readA a) (fun u => if u.msb then ~~~u else u) ∧
    OverflowsTo (.anma j a m) j m True (·.aCell a) (·.readA a) (fun u => if u.msb then u else ~~~u) ∧
    OverflowsTo (.au j a m) j m (a ≠ 15) (·.aCell (a + 1)) (·.readA a) (fun u => u) ∧
    OverflowsTo (.anu j a m) j m (a ≠ 15) (·.aCell (a + 1)) (·.readA a) (fun u => ~~~u) ∧
    OverflowsTo (.ax j a m) j m True (·.xCell a) (·.readX a) (fun u => u) ∧
    OverflowsTo (.anx j a m) j m True (·.xCell a) (·.readX a) (fun u => ~~~u) ∧
    PairOverflowsTo (.da a m) a m (fun w => w) ∧ PairOverflowsTo (.dan a m) a m (fun w => ~~~w) ∧
    CountOverflows (.add1 j m) j m 1 ∧ CountOverflows (.sub1 j m) j m (~~~1)

/-- MI: the pair holds the exact product, and +0 for a zero product (spec/42_arithmetic.md R234, R239). -/
def Obligations.MultiplyResult : Prop :=
  ∀ (j a : BitVec 4) (m : AddrSpec) (s r : State) (u : Word), s.Quiet → a ≠ 15 → s.discard.operand j m = .ok u r →
    Completes (.mi j a m) s .seq fun t =>
      ∃ v w : Word, SetsTwo r t (s.aCell a) v (s.aCell (a + 1)) w ∧
        val (v ++ w) = val (r.readA a) * val u ∧ (val (r.readA a) * val u = 0 → v = 0 ∧ w = 0) ∧
        t.dr = s.dr ∧ SameStorage s t

/-- DI and DF without a divide check: quotient times divisor plus remainder is the dividend, the remainder is smaller than
the divisor and has the dividend's sign, and neither is -0. DSF: the truncated quotient to A(a+1)
(spec/42_arithmetic.md R235, R238, R250, R251). -/
def Obligations.DivideResults : Prop :=
  ∀ (j a : BitVec 4) (m : AddrSpec),
    DividesTo (.di j a m) j a m (fun r => val (pairOf r a)) ∧
    DividesTo (.df j a m) j a m (fun r => (val (pairOf r a)).tdiv 2) ∧
    (∀ (s r : State) (u : Word), s.Quiet → a ≠ 15 → s.discard.operand j m = .ok u r → val u ≠ 0 →
      ((val (r.readA a) * 2 ^ 35).tdiv (val u)).natAbs ≤ 2 ^ 35 - 1 →
        Completes (.dsf j a m) s .seq fun t =>
          ∃ q : Word, Sets r t (s.aCell (a + 1)) q ∧ val q = (val (r.readA a) * 2 ^ 35).tdiv (val u) ∧ q ≠ negZero ∧
            t.dr = s.dr ∧ SameStorage s t)

/-- The divide check of DI, DSF and DF, on both of its paths: the flag is set, and either both registers become zero or the
arithmetic exception is taken with the flag set and the registers kept (spec/42_arithmetic.md R236, R237). -/
def Obligations.DivideCheckPaths : Prop :=
  ∀ (j a : BitVec 4) (m : AddrSpec),
    DivideChecks (.di j a m) j a m (fun r => val (pairOf r a)) ∧
    DivideChecks (.df j a m) j a m (fun r => (val (pairOf r a)).tdiv 2) ∧
    DivideChecks (.dsf j a m) j a m (fun r => val (r.readA a) * 2 ^ 35)

/-- INC, DEC, INC2, DEC2 and ENZ: the sum is stored through `j`, the skip is on the whole sum, and no flag is written
(spec/42_arithmetic.md R241 to R245). -/
def Obligations.IncrementResults : Prop :=
  ∀ (j : BitVec 4) (m : AddrSpec),
    CountsBy (.inc j m) j m 1 ∧ CountsBy (.dec j m) j m (~~~1) ∧ CountsBy (.inc2 j m) j m 2 ∧
    CountsBy (.dec2 j m) j m (~~~2) ∧ CountsBy (.enz j m) j m 0o777777777777

/-- ADD1 and SUB1: as INC and DEC, with both flags written, and the skip under the parameter `add1Skips`
(spec/42_arithmetic.md R222, R246, R247). The carry is R222's also for ADD1 of -1 and SUB1 of 1, where the corner cases of R246
and R247 give another one: the model's reading (notes/assumptions/14.md). -/
def Obligations.CountedAddResults : Prop :=
  ∀ (j : BitVec 4) (m : AddrSpec), CountsFlaggedBy (.add1 j m) j m 1 ∧ CountsFlaggedBy (.sub1 j m) j m (~~~1)

/-! ### Logical and shift instructions -/

/-- OR, XOR, AND and MLU: the result goes to A(a+1), and no flag is written (spec/43_logical_shift.md R271 to R274). -/
def Obligations.LogicalResults : Prop :=
  ∀ (j a : BitVec 4) (m : AddrSpec),
    CombinesTo (.or j a m) j a m (fun _ v u => v ||| u) ∧
    CombinesTo (.xor j a m) j a m (fun _ v u => v ^^^ u) ∧
    CombinesTo (.and j a m) j a m (fun _ v u => v &&& u) ∧
    CombinesTo (.mlu j a m) j a m (fun r v u => (u &&& r.readR 2) ||| (v &&& ~~~(r.readR 2)))

/-- The ten shifts, single and double, by the low seven bits of the target (spec/43_logical_shift.md R275 to R285). -/
def Obligations.ShiftResults : Prop :=
  ∀ (a : BitVec 4) (m : AddrSpec),
    ShiftsTo (.ssc a m) a m circularRight ∧ PairShiftsTo (.dsc a m) a m circularRight ∧
    ShiftsTo (.ssl a m) a m logicalRight ∧ PairShiftsTo (.dsl a m) a m logicalRight ∧
    ShiftsTo (.ssa a m) a m algebraicRight ∧ PairShiftsTo (.dsa a m) a m algebraicRight ∧
    ShiftsTo (.lssc a m) a m circularLeft ∧ PairShiftsTo (.ldsc a m) a m circularLeft ∧
    ShiftsTo (.lssl a m) a m logicalLeft ∧ PairShiftsTo (.ldsl a m) a m logicalLeft

/-- The shifts bit by bit, at 36 and at 72 bits: a circular shift moves every bit, a logical shift fills with zeros, and an
algebraic shift fills with the sign (spec/43_logical_shift.md R276 to R285). -/
def Obligations.ShiftBits : Prop :=
  ∀ n : Nat, n = 36 ∨ n = 72 → ∀ (v : BitVec n) (k b : Nat), b < n →
    (circularRight v k).getLsbD b = v.getLsbD ((b + k) % n) ∧
    (circularLeft v k).getLsbD ((b + k) % n) = v.getLsbD b ∧
    (logicalRight v k).getLsbD b = v.getLsbD (b + k) ∧
    (logicalLeft v k).getLsbD b = (decide (k ≤ b) && v.getLsbD (b - k)) ∧
    (algebraicRight v k).getLsbD b = if b + k < n then v.getLsbD (b + k) else v.msb

/-! ### Tests and jumps -/

/-- TE, TNE, TLE and TG compare the operand with A(a) as numbers, and TW and TNW with A(a) and A(a+1)
(spec/44_test_jump.md R300 to R306). -/
def Obligations.CompareTests : Prop :=
  ∀ (j a : BitVec 4) (m : AddrSpec),
    TestsFor (.te j a m) j m True (fun r u => val u = val (r.readA a)) ∧
    TestsFor (.tne j a m) j m True (fun r u => val u ≠ val (r.readA a)) ∧
    TestsFor (.tle j a m) j m True (fun r u => val u ≤ val (r.readA a)) ∧
    TestsFor (.tg j a m) j m True (fun r u => val u > val (r.readA a)) ∧
    TestsFor (.tw j a m) j m (a ≠ 15) (fun r u => val (r.readA a) < val u ∧ val u ≤ val (r.readA (a + 1))) ∧
    TestsFor (.tnw j a m) j m (a ≠ 15) (fun r u => ¬(val (r.readA a) < val u ∧ val u ≤ val (r.readA (a + 1))))

/-- The basic-mode tests TZ, TNZ, TP and TN: zero is either zero, and the sign is bit 35 (spec/44_test_jump.md R307 to
R310). -/
def Obligations.BasicTests : Prop :=
  ∀ (j : BitVec 4) (m : AddrSpec),
    TestsFor (.tzBasic j m) j m True (fun _ u => u = 0 ∨ u = 0o777777777777) ∧
    TestsFor (.tnzBasic j m) j m True (fun _ u => ¬(u = 0 ∨ u = 0o777777777777)) ∧
    TestsFor (.tpBasic j m) j m True (fun _ u => u.getLsbD 35 = false) ∧
    TestsFor (.tnBasic j m) j m True (fun _ u => u.getLsbD 35 = true)

/-- The sixteen extended-mode tests, each by its own condition (spec/44_test_jump.md R311 to R327). -/
def Obligations.MaskTests : Prop :=
  ∀ (j : BitVec 4) (m : AddrSpec),
    TestsFor (.tnop j m) j m True (fun _ _ => False) ∧
    TestsFor (.tgz j m) j m True (fun _ u => u.getLsbD 35 = false ∧ u ≠ 0) ∧
    TestsFor (.tpz j m) j m True (fun _ u => u = 0) ∧
    TestsFor (.tp j m) j m True (fun _ u => u.getLsbD 35 = false) ∧
    TestsFor (.tmz j m) j m True (fun _ u => u = 0o777777777777) ∧
    TestsFor (.tmzg j m) j m True (fun _ u => u = 0o777777777777 ∨ u.getLsbD 35 = false ∧ u ≠ 0) ∧
    TestsFor (.tz j m) j m True (fun _ u => u = 0 ∨ u = 0o777777777777) ∧
    TestsFor (.tnlz j m) j m True (fun _ u => ¬(u.getLsbD 35 = true ∧ u ≠ 0o777777777777)) ∧
    TestsFor (.tlz j m) j m True (fun _ u => u.getLsbD 35 = true ∧ u ≠ 0o777777777777) ∧
    TestsFor (.tnz j m) j m True (fun _ u => ¬(u = 0 ∨ u = 0o777777777777)) ∧
    TestsFor (.tpzl j m) j m True (fun _ u => u = 0 ∨ u.getLsbD 35 = true ∧ u ≠ 0o777777777777) ∧
    TestsFor (.tnmz j m) j m True (fun _ u => u ≠ 0o777777777777) ∧
    TestsFor (.tn j m) j m True (fun _ u => u.getLsbD 35 = true) ∧
    TestsFor (.tnpz j m) j m True (fun _ u => u ≠ 0) ∧
    TestsFor (.tngz j m) j m True (fun _ u => ¬(u.getLsbD 35 = false ∧ u ≠ 0)) ∧
    TestsFor (.tskp j m) j m True (fun _ _ => True)

/-- JZ, JNZ, JP and JN on A(a), DJZ on the pair, J and NOP, and JO, JNO, JC and JNC on the flags, which none of them writes
(spec/44_test_jump.md R330 to R336, R341 to R345). -/
def Obligations.JumpResults : Prop :=
  ∀ (a : BitVec 4) (m : AddrSpec),
    JumpsIf (.jz a m) m True (fun r => r.readA a = 0 ∨ r.readA a = 0o777777777777) ∧
    JumpsIf (.jnz a m) m True (fun r => ¬(r.readA a = 0 ∨ r.readA a = 0o777777777777)) ∧
    JumpsIf (.jp a m) m True (fun r => (r.readA a).getLsbD 35 = false) ∧
    JumpsIf (.jn a m) m True (fun r => (r.readA a).getLsbD 35 = true) ∧
    JumpsIf (.djz a m) m (a ≠ 15) (fun r => r.readA a = 0 ∧ r.readA (a + 1) = 0 ∨
      r.readA a = 0o777777777777 ∧ r.readA (a + 1) = 0o777777777777) ∧
    JumpsIf (.j m) m True (fun _ => True) ∧
    JumpsIf (.nop m) m True (fun _ => False) ∧
    JumpsIf (.jo m) m True (fun r => r.dr.getLsbD 16 = true) ∧
    JumpsIf (.jno m) m True (fun r => r.dr.getLsbD 16 = false) ∧
    JumpsIf (.jc m) m True (fun r => r.dr.getLsbD 17 = true) ∧
    JumpsIf (.jnc m) m True (fun r => r.dr.getLsbD 17 = false)

/-- JDF and JNDF jump on divideCheck and clear it whether or not they jump (spec/44_test_jump.md R346, R347). -/
def Obligations.DivideFaultJumps : Prop :=
  ∀ (m : AddrSpec) (s r : State) (n : BitVec 18), s.Quiet → s.discard.target m = .ok n r →
    (Completes (.jdf m) s (if s.dr.getLsbD 13 then .jump n else .seq) fun t =>
      SetsNone r t ∧ DivideCheckOf s.dr t.dr false ∧ SameStorage s t) ∧
    (Completes (.jndf m) s (if s.dr.getLsbD 13 then .seq else .jump n) fun t =>
      SetsNone r t ∧ DivideCheckOf s.dr t.dr false ∧ SameStorage s t)

/-- JMGI jumps on a modifier greater than zero, as a signed number of its width, and increments X(a) always; LMJ puts the
next offset into bits [17:0] of X(a) and jumps (spec/44_test_jump.md R337, R339). -/
def Obligations.IndexJumps : Prop :=
  ∀ (a : BitVec 4) (m : AddrSpec) (s r : State) (n : BitVec 18), s.Quiet → s.discard.target m = .ok n r →
    (∃ g : Bool, (g = true ↔ 0 < r.modifier (r.readX a) ∧ r.modifier (r.readX a) < 2 ^ (if s.dr.getLsbD 33 then 23 else 17)) ∧
      Completes (.jmgi a m) s (if g then .jump n else .seq) fun t =>
        Sets r t (s.xCell a) (s.incremented (r.readX a)) ∧ t.dr = s.dr ∧ SameStorage s t) ∧
    (Completes (.lmj a m) s (.jump n) fun t =>
      Sets r t (s.xCell a) ((r.readX a).extractLsb' 18 18 ++ (s.par.extractLsb' 0 18 + 1)) ∧ t.dr = s.dr ∧ SameStorage s t)

/-- JGD jumps when the cell is greater than zero and decrements it always, with no flags; the cell is 16j + a where that is a
cell number, and an exec cell is refused at a privilege other than 0 (spec/44_test_jump.md R338). -/
def Obligations.CountJump : Prop :=
  ∀ (j a : BitVec 4) (m : AddrSpec) (s r : State) (n : BitVec 18), s.discard.target m = .ok n r →
    (j.toNat < 8 → (jgdCell j a).val = 16 * j.toNat + a.toNat) ∧
    (s.pp ≠ 0 → 0o120 ≤ (jgdCell j a).val → exec (.jgd j a m) s = .refused .execGRSFromNonExec) ∧
    (s.Quiet → (s.pp = 0 ∨ (jgdCell j a).val < 0o120) →
      Completes (.jgd j a m) s (if 0 < val (r.readGrs (jgdCell j a)) then .jump n else .seq) fun t =>
        Sets r t (jgdCell j a) (add36 (r.readGrs (jgdCell j a)) (~~~1)).r ∧ t.dr = s.dr ∧ SameStorage s t)

/-- SLJ stores the next offset into H2 of the location at the target and jumps past it. The location is the GRS cell of that
number below 0200, and else the word at the target in the slot that the target selects, with the checks in their order; no
slot is a ReferenceViolation (spec/44_test_jump.md R340; spec/20_memory.md R92, R95, R97, R101, R102, R106, R115, R118). -/
def Obligations.StoreLocationJump : Prop :=
  (∀ (m : AddrSpec) (s q r : State) (n : BitVec 18) (l : Loc), s.Quiet → s.memory.wf → s.discard.target m = .ok n q →
    q.locate n Perms.readWrite = .ok l r →
      Completes (.slj m) s (.jump (n + 1)) fun t =>
        SetsLoc s r t l ((r.readLoc l).extractLsb' 18 18 ++ (s.par.extractLsb' 0 18 + 1)) ∧ t.dr = s.dr) ∧
  (∀ (s : State) (n : BitVec 18) (acc : Perms),
    (n.toNat < 0o200 → CellNamed s n.toNat (s.locate n acc) .grs) ∧
    (0o200 ≤ n.toNat → s.basicBankSelect n.toNat = none →
      s.locate n acc = .raised .referenceViolation (BitVec.ofNat 36 n.toNat) s) ∧
    (0o200 ≤ n.toNat → ∀ k, s.basicBankSelect n.toNat = some k → BankChecks s acc k.number n.toNat (s.locate n acc)))

/-! ### System instructions -/

/-- TS, TSS and TCS: bit 30 of the location is tested, and set or cleared with every other bit kept. TS on a set bit takes
TestAndSet with the detail of the location, with everything else as at Fetch (spec/45_system.md R361 to R363;
spec/60_exceptions.md R383). -/
def Obligations.TestAndSetResults : Prop :=
  ∀ (m : AddrSpec) (s r : State) (l : Loc), s.memory.wf → s.discard.operandLoc Perms.readWrite m = .ok l r →
    ((r.readLoc l).getLsbD 30 = true → exec (.ts m) s = s.discard.takeSync .testAndSet (locDetail l)) ∧
    (s.Quiet → (r.readLoc l).getLsbD 30 = false →
      Completes (.ts m) s .seq fun t => SetsLoc s r t l (r.readLoc l ||| 0o010000000000) ∧ t.dr = s.dr) ∧
    (s.Quiet → Completes (.tss m) s (if (r.readLoc l).getLsbD 30 then .seq else .skip) fun t =>
      SetsLoc s r t l (r.readLoc l ||| 0o010000000000) ∧ t.dr = s.dr) ∧
    (s.Quiet → Completes (.tcs m) s (if (r.readLoc l).getLsbD 30 then .skip else .seq) fun t =>
      SetsLoc s r t l (r.readLoc l &&& 0o767777777777) ∧ t.dr = s.dr) ∧
    locDetail l =
      match l with
      | .grs n => BitVec.ofNat 36 (2 ^ 31 + n.val)
      | .mem slot rel _ => BitVec.ofNat 36 (slot.val * 2 ^ 32 + rel)

/-- HALT at privilege 0 stops the IP with its literal, at the next instruction, whatever is pending; at another privilege it
is refused (spec/45_system.md R360, R365). -/
def Obligations.HaltResult : Prop :=
  ∀ (d : BitVec 18) (s : State),
    (s.pp = 0 → exec (.halt d) s = .next
      { s with
        par := s.par.extractLsb' 18 18 ++ (s.par.extractLsb' 0 18 + 1)
        running := false, stopReason := .normalHalt, stopDetail := d.setWidth 36, pw := [] }) ∧
    (s.pp ≠ 0 → exec (.halt d) s = .refused .privilegedInstruction)

/-- LD at privilege 0 loads every bit of the DR from a word of the same mode, and SD stores the DR. At another privilege both
are refused, and so is an LD of the other mode (spec/45_system.md R360, R366, R367). -/
def Obligations.DesignatorAccess : Prop :=
  ∀ (m : AddrSpec) (s r : State) (l : Loc),
    (s.discard.operandLoc Perms.read m = .ok l r →
      (s.pp ≠ 0 → exec (.ld m) s = .refused .privilegedInstruction) ∧
      (s.pp = 0 → (r.readLoc l).getLsbD 19 ≠ s.basicMode → exec (.ld m) s = .refused .modeChangeByLD) ∧
      (s.pp = 0 → (r.readLoc l).getLsbD 19 = s.basicMode → s.pending = [] → s.stopRequested = false →
        Completes (.ld m) s .seq fun t => SetsNone r t ∧ t.dr = r.readLoc l ∧ SameStorage s t)) ∧
    (s.discard.operandLoc Perms.write m = .ok l r →
      (s.pp ≠ 0 → exec (.sd m) s = .refused .privilegedInstruction) ∧
      (s.pp = 0 → s.Quiet → s.memory.wf → Completes (.sd m) s .seq fun t => SetsLoc s r t l s.dr ∧ t.dr = s.dr))

/-- UR at privilege 0 pops one frame, which is one frame size below the pointer in the ICS bank: the PAR and the DR come from
its first two words, PB is reloaded for an extended-mode DR, the pointer goes down by one frame, and nothing else changes; at
another privilege it is refused (spec/45_system.md R360, R368). -/
def Obligations.ReturnResult : Prop :=
  ∀ s : State,
    (s.pp ≠ 0 → exec .ur s = .refused .privilegedInstruction) ∧
    ∀ (b pb : BaseRegister) (q p a : Nat), b = s.br[s.params.icsSlot] →
      q = (s.grs[s.params.icsPointer].extractLsb' 0 18).toNat → p + s.params.icsFrameSize = q → a = b.base + p →
      s.pp = 0 → s.pending = [] → s.stopRequested = false → b.isVoid = false → b.lower ≤ p → p + 1 ≤ b.upper →
      (granted b s.key).r = true → a + 1 < s.params.storageSize →
      (if (s.memory.read (a + 1)).getLsbD 19 then pb = s.pb else s.loadPB (s.memory.read a) = .ok pb) →
        exec .ur s = .next
          { s with
            par := s.memory.read a, dr := s.memory.read (a + 1), pb := pb, pw := []
            grs := s.grs.set s.params.icsPointer (s.grs[s.params.icsPointer].extractLsb' 18 18 ++ BitVec.ofNat 18 p) }

/-- The fatal stops of UR, each with detail 0 and everything else kept: an empty stack, a frame outside the ICS bank or not
readable, and a PB that cannot be reloaded (spec/45_system.md R368). That such a stop runs no InterruptCheck and moves no PAR is
the model's reading (notes/assumptions/10.md). -/
def Obligations.ReturnStops : Prop :=
  ∀ (s : State) (b : BaseRegister) (q : Nat), b = s.br[s.params.icsSlot] →
    q = (s.grs[s.params.icsPointer].extractLsb' 0 18).toNat → s.pp = 0 →
      (q < s.params.icsFrameSize → exec .ur s = .next
        { s with running := false, stopReason := .icsUnderflow, stopDetail := 0, pw := [] }) ∧
      ∀ p a, p + s.params.icsFrameSize = q → a = b.base + p →
        ((b.isVoid = true ∨ p < b.lower ∨ b.upper < p + 1 ∨ (granted b s.key).r = false) → exec .ur s = .next
          { s with running := false, stopReason := .icsAccessFault, stopDetail := 0, pw := [] }) ∧
        (b.isVoid = false → b.lower ≤ p → p + 1 ≤ b.upper → (granted b s.key).r = true → a + 1 < s.params.storageSize →
          (s.memory.read (a + 1)).getLsbD 19 = false → s.loadPB (s.memory.read a) = .fails .vectorFault → exec .ur s = .next
            { s with running := false, stopReason := .vectorFault, stopDetail := 0, pw := [] })

/-- The register pairs that start at A15: every instruction that uses A(a+1) is refused with `a` = 15, once its resolution
has succeeded (spec/30_encoding.md R143). -/
def Obligations.PairRefused : Prop :=
  ∀ (i : Instr) (s r : State), i.pairInRange = false → resolution i s.discard = .ok () r →
    exec i s = .refused .pairOverflow

/-! ### Interrupts and the host -/

/-- InterruptCheck enters the pending class of the lowest number that is not deferred, and every other class stays pending; the
deferred ones are those from 20 on while DR.deferrableEnabled is 0 (spec/60_exceptions.md R385, R386; spec/40_cycle.md R167). -/
def Obligations.PriorityAndDeferral : Prop :=
  ∀ (s : State) (p : PendingInt), s.pendingSorted →
    (s.dueInterrupt = some p ↔
      p ∈ s.pending ∧ (p.cls.number < 20 ∨ s.dr.getLsbD 31 = true) ∧
        ∀ q ∈ s.pending, (q.cls.number < 20 ∨ s.dr.getLsbD 31 = true) → p.cls.number ≤ q.cls.number) ∧
    (s.dueInterrupt = some p → ∀ t, s.interruptCheck = .next t → t.pending = s.pending.filter (fun q => q.cls != p.cls)) ∧
    (s.dueInterrupt = none → s.interruptCheck = .next s.honourStop ∧ s.honourStop.pending = s.pending)

/-- An entry whose checks pass: the class leaves `pending`; the frame, at the pointer in the ICS bank, holds the saved PAR,
the DR before entry, the class number, the detail and zeros; the pointer goes up by one frame; the DR and the key are those of
entry, the PAR is the vector, PB is the handler's bank; every other cell and storage word is kept (spec/60_exceptions.md R392,
R398, R399). -/
def Obligations.EntryEffect : Prop :=
  ∀ (s : State) (p : PendingInt) (e : Entry), s.Sound → s.stopRequested = false → s.dueInterrupt = some p →
    (s.removePending p.cls).entryChecks p.cls = .ok e →
      e.frameAt = s.br[s.params.icsSlot].base + s.icsPointer.toNat ∧
      e.vector = s.memory.read (s.br[0].base + p.cls.number) ∧ s.bankFor (s.entryDR p.cls) e.vector = .ok e.bank ∧
      (if (s.entryDR p.cls).getLsbD 19 then e.bank = none else ∃ b, e.bank = some b ∧ s.loadPB e.vector = .ok b) ∧
      s.icsPointer = s.grs[s.params.icsPointer].extractLsb' 0 18 ∧
      ∃ t, s.interruptCheck = .next t ∧
        t.memory.read e.frameAt = p.saved.getD s.par ∧ t.memory.read (e.frameAt + 1) = s.dr ∧
        t.memory.read (e.frameAt + 2) = BitVec.ofNat 36 p.cls.number ∧ t.memory.read (e.frameAt + 3) = p.detail ∧
        (∀ k, 4 ≤ k → k < s.params.icsFrameSize → t.memory.read (e.frameAt + k) = 0) ∧
        (∀ b, b < e.frameAt ∨ e.frameAt + s.params.icsFrameSize ≤ b → t.memory.read b = s.memory.read b) ∧
        t.icsPointer.toNat = s.icsPointer.toNat + s.params.icsFrameSize ∧
        t.grs[s.params.icsPointer].extractLsb' 18 18 = s.grs[s.params.icsPointer].extractLsb' 18 18 ∧
        (∀ k : Fin 128, k ≠ s.params.icsPointer → t.grs[k] = s.grs[k]) ∧
        t.dr = s.entryDR p.cls ∧ t.key = s.entryKey p.cls ∧ t.par = e.vector ∧ t.pb = e.bank.getD s.pb ∧
        t.pending = s.pending.filter (fun q => q.cls != p.cls) ∧
        t.br = s.br ∧ t.running = s.running ∧ t.stopReason = s.stopReason ∧ t.stopDetail = s.stopDetail ∧
        t.stopRequested = s.stopRequested ∧ t.pw = s.pw ∧ t.params = s.params ∧
        t = (s.removePending p.cls).applyEntry p e

/-- The handler's DR and key where the parameters have no pair for the state's DR or key and the class: extended mode, exec
register set, privilege 0, deferrable classes off, fault handling on for a synchronous class, every other bit kept, and the
key unchanged. Where the parameters have pairs for them that agree, they give the DR and the key (spec/60_exceptions.md
R400). -/
def Obligations.EntryDesignator : Prop :=
  ∀ (s : State) (c : IntClass),
    (∀ k, (∃ e ∈ s.params.entryKeys, e.before = s.key ∧ e.cls = c) →
      (∀ e ∈ s.params.entryKeys, e.before = s.key → e.cls = c → e.after = k) → s.entryKey c = k) ∧
    (∀ d, (∃ e ∈ s.params.entryDRs, e.before = s.dr ∧ e.cls = c) →
      (∀ e ∈ s.params.entryDRs, e.before = s.dr → e.cls = c → e.after = d) → s.entryDR c = d) ∧
    ((∀ e ∈ s.params.entryKeys, e.before = s.key → e.cls ≠ c) → s.entryKey c = s.key) ∧
    ((∀ e ∈ s.params.entryDRs, e.before = s.dr → e.cls ≠ c) →
    (s.entryDR c).getLsbD 19 = false ∧ (s.entryDR c).getLsbD 18 = true ∧ (s.entryDR c).getLsbD 21 = false ∧
    (s.entryDR c).getLsbD 20 = false ∧ (s.entryDR c).getLsbD 31 = false ∧
    (s.entryDR c).getLsbD 34 = (decide (8 ≤ c.number ∧ c.number ≤ 19) || s.dr.getLsbD 34) ∧
    ∀ k, k ∉ [18, 19, 20, 21, 31, 34] → (s.entryDR c).getLsbD k = s.dr.getLsbD k)

/-- An entry that fails a check stops with the class number as its detail. It changes nothing but `pending` and the run
state, and for a class of `stopOnInterrupt` the PAR, which is put at the instruction of the saved PAR. The reasons in their
order, to the reload of a handler's PB, and everything that the reload can come to (spec/60_exceptions.md R392, R393, R395 to
R397, R403). That R393's PAR wins over R392, which writes none, is the model's reading (notes/assumptions/11.md); the stuck
reload is that of notes/assumptions/15.md. -/
def Obligations.EntryStops : Prop :=
  (∀ (s : State) (p : PendingInt),
    (∀ r, (s.removePending p.cls).entryChecks p.cls = .fails r → s.enter p = .next
      { s with
        pending := s.pending.filter (fun q => q.cls != p.cls), running := false, stopReason := r
        par := if p.cls ∈ s.params.stopOnInterrupt then p.saved.getD s.par else s.par
        stopDetail := BitVec.ofNat 36 p.cls.number }) ∧
    (p.cls ∈ s.params.stopOnInterrupt → s.entryChecks p.cls = .fails .interruptStop) ∧
    (p.cls ∉ s.params.stopOnInterrupt →
      (s.br[0].isVoid = true ∨ p.cls.number < s.br[0].lower ∨ s.br[0].upper < p.cls.number →
        s.entryChecks p.cls = .fails .vectorFault) ∧
      (∀ v, s.readVector p.cls = .ok v →
        (s.params.icsMaxEntries * s.params.icsFrameSize < s.icsPointer.toNat + s.params.icsFrameSize →
          s.entryChecks p.cls = .fails .icsOverflow) ∧
        (s.icsPointer.toNat + s.params.icsFrameSize ≤ s.params.icsMaxEntries * s.params.icsFrameSize →
          (s.br[s.params.icsSlot].isVoid = true ∨ s.icsPointer.toNat < s.br[s.params.icsSlot].lower ∨
            s.br[s.params.icsSlot].upper + 1 < s.icsPointer.toNat + s.params.icsFrameSize ∨
            (granted s.br[s.params.icsSlot] s.key).w = false) →
          s.entryChecks p.cls = .fails .icsAccessFault) ∧
        (∀ a, s.icsPointer.toNat + s.params.icsFrameSize ≤ s.params.icsMaxEntries * s.params.icsFrameSize →
          s.checkICS s.icsPointer.toNat s.params.icsFrameSize Perms.write = .ok a →
          (s.entryDR p.cls).getLsbD 19 = false → s.loadPB v = .fails .vectorFault →
          s.entryChecks p.cls = .fails .vectorFault)))) ∧
  (∀ (s : State) (w : Word) (slot : Fin 16) (b : BaseRegister) (k : Nat), (w.extractLsb' 33 3 = 0 → slot = 0) →
    (∀ n : Fin 7, (w.extractLsb' 33 3).toNat = n.val + 1 → slot = s.params.bdtSlots[n]) → b = s.br[slot] →
    k = 8 * (w.extractLsb' 18 15).toNat →
      (b.isVoid = true ∨ k < b.lower ∨ b.upper < k + 7 → s.loadPB w = .fails .vectorFault) ∧
      (b.isVoid = false → b.lower ≤ k → k + 7 ≤ b.upper →
        (s.params.storageSize ≤ b.base + k + 7 → ∃ a, s.loadPB w = .stuck (.absentStorage a)) ∧
        (∀ ws : Vector Word 8, (∀ n : Fin 8, ws[n] = s.memory.read (b.base + k + n.val)) →
          b.base + k + 7 < s.params.storageSize →
            (s.decodeBankDescriptor ws = none → s.loadPB w = .fails .vectorFault) ∧
            ∀ c, s.decodeBankDescriptor ws = some c → s.loadPB w = .ok c))) ∧
  (∀ (s : State) (c : IntClass), s.br[0].isVoid = false → s.br[0].lower ≤ c.number → c.number ≤ s.br[0].upper →
    (s.params.storageSize ≤ s.br[0].base + c.number →
      s.readVector c = .stuck (.absentStorage (s.br[0].base + c.number))) ∧
    (s.br[0].base + c.number < s.params.storageSize → s.readVector c = .ok (s.memory.read (s.br[0].base + c.number)))) ∧
  (∀ (s : State) (b : BaseRegister) (p n : Nat) (acc : Perms), b = s.br[s.params.icsSlot] → b.isVoid = false → b.lower ≤ p →
    p + n ≤ b.upper + 1 → Permits (granted b s.key) acc → s.checkICS p n acc = .ok (b.base + p))

/-- Entry and UR are inverse: after an entry, a UR that can read the frame and reload PB restores the PAR, the DR and every
GRS cell as they were, for the same class of state (spec/60_exceptions.md R392, R401; spec/45_system.md R368). -/
def Obligations.EntryThenReturn : Prop :=
  ∀ (s : State) (p : PendingInt) (e : Entry) (pb : BaseRegister), s.Sound → s.entryChecks p.cls = .ok e →
    (s.applyEntry p e).pp = 0 → s.pending = [] → s.stopRequested = false →
    (granted s.br[s.params.icsSlot] (s.entryKey p.cls)).r = true →
    (if s.dr.getLsbD 19 then pb = e.bank.getD s.pb else (s.applyEntry p e).loadPB (p.saved.getD s.par) = .ok pb) →
      ∃ t, exec .ur (s.applyEntry p e) = .next t ∧ t.par = p.saved.getD s.par ∧ t.dr = s.dr ∧ t.grs = s.grs ∧
        t.pb = pb ∧ t.br = s.br ∧ t.running = s.running ∧ t.pending = [] ∧
        ∀ b, b < e.frameAt ∨ e.frameAt + s.params.icsFrameSize ≤ b → t.memory.read b = s.memory.read b

/-- What becomes pending. A synchronous raise adds its class with its detail and the PAR of the faulting instruction, unless
the class is pending already, and InterruptCheck follows (spec/40_cycle.md R173). The environment's posts: an asynchronous
class that is not pending becomes pending with its detail and no saved PAR, one that is pending keeps its first entry, and a
synchronous class and an unused number are refused (spec/60_exceptions.md R380, R384). -/
def Obligations.PostResults : Prop :=
  ∀ (s : State) (n : Nat) (d : Word), s.pendingSorted →
    (IntClass.ofNumber n = none → hostCall (.post n d) s = .refused .unpostableClass) ∧
    (∀ c, IntClass.ofNumber n = some c →
      c.number = n ∧
      (8 ≤ n → n ≤ 19 → hostCall (.post n d) s = .refused .unpostableClass) ∧
      (n < 8 ∨ 19 < n → ∃ t, hostCall (.post n d) s = .next t ∧
        (∀ q, q ∈ t.pending ↔
          q ∈ s.pending ∨ (∀ x ∈ s.pending, x.cls ≠ c) ∧ q = PendingInt.mk c d none) ∧
        t = { s with pending := t.pending })) ∧
    (∀ c, ∃ u : State, s.takeSync c d = u.interruptCheck ∧ u = { s with pending := u.pending } ∧ u.pendingSorted ∧
      ∀ q, q ∈ u.pending ↔ q ∈ s.pending ∨ (∀ x ∈ s.pending, x.cls ≠ c) ∧ q = PendingInt.mk c d (some s.par))

/-- `stop()`: while the IP runs it asks for the stop, which takes effect at the next InterruptCheck, after an entry if one is
due; while the IP is stopped it does nothing. Any call but `stop` and `post` is refused while the IP runs
(spec/60_exceptions.md R425; spec/40_cycle.md R167; spec/70_reset_and_hazards.md R440). -/
def Obligations.HostStop : Prop :=
  (∀ s : State, s.running = true → hostCall .stop s = .next { s with stopRequested := true }) ∧
  (∀ s : State, s.running = false → hostCall .stop s = .next s) ∧
  (∀ s : State, s.running = true → s.stopRequested = true → s.dueInterrupt = none → s.interruptCheck = .next
    { s with stopRequested := false, running := false, stopReason := .externalStop, stopDetail := 0 }) ∧
  (∀ (s t : State) (p : PendingInt), s.running = true → s.stopRequested = true → s.dueInterrupt = some p →
    (∃ e, (s.removePending p.cls).entryChecks p.cls = .ok e) → s.interruptCheck = .next t →
      t.running = false ∧ t.stopRequested = false ∧ t.stopReason = .externalStop ∧ t.stopDetail = 0) ∧
  (∀ (c : HostCall) (s : State), s.running = true → c ≠ .stop → (∀ n d, c ≠ .post n d) →
    hostCall c s = .refused .hostCallWhileRunning)
end

