-- ==== Sys2Proof/Laws/Arithmetic.lean ====
section
/-! SUPPORT. Ones'-complement values and the words that encode them (spec/00_scope.md R9, R10), the raw sum of the adder
(spec/42_arithmetic.md R222), and the halves of a double word (R220). -/

namespace Sys2Proof

/-- A value is smaller in magnitude than the sign bit. -/
theorem natAbs_val_lt {n : Nat} (hn : 0 < n) (v : BitVec n) : (val v).natAbs < 2 ^ (n - 1) := by
  have hp : 2 ^ n = 2 * 2 ^ (n - 1) := by rw [← Nat.pow_succ']; congr 1; omega
  have hl := v.isLt
  unfold val
  split
  · next h => rw [BitVec.msb_eq_decide, decide_eq_true_eq] at h; rw [Int.natAbs_neg, Int.natAbs_natCast, BitVec.toNat_not]; omega
  · next h => rw [BitVec.msb_eq_decide, decide_eq_true_eq] at h; rw [Int.natAbs_natCast]; omega

/-- A value by the unsigned number of its word. -/
theorem val_eq_ite {n : Nat} (hn : 0 < n) (v : BitVec n) :
    val v = if 2 ^ (n - 1) ≤ v.toNat then (v.toNat : Int) - (2 ^ n - 1) else v.toNat := by
  have hp : 2 ^ n = 2 * 2 ^ (n - 1) := by rw [← Nat.pow_succ']; congr 1; omega
  have hl := v.isLt
  unfold val
  rw [BitVec.msb_eq_decide]
  by_cases h : 2 ^ (n - 1) ≤ v.toNat
  · simp only [h, decide_true, if_true, BitVec.toNat_not]
    push_cast [show 1 ≤ 2 ^ n from Nat.one_le_two_pow, show v.toNat ≤ 2 ^ n - 1 by omega]
    ring
  · simp [h]

/-- Encoding loses nothing of a value that fits. -/
theorem val_enc {n : Nat} (hn : 0 < n) {k : Int} (h : k.natAbs < 2 ^ (n - 1)) : val (enc n k) = k := by
  have hp : 2 ^ n = 2 * 2 ^ (n - 1) := by rw [← Nat.pow_succ']; congr 1; omega
  have ht : (BitVec.ofNat n k.natAbs).toNat = k.natAbs := by rw [BitVec.toNat_ofNat, Nat.mod_eq_of_lt (by omega)]
  unfold enc val
  split
  · rw [if_neg]
    · omega
    · rw [BitVec.msb_eq_decide, decide_eq_true_eq]; omega
  · rw [if_pos]
    · rw [BitVec.not_not, ht]; omega
    · rw [BitVec.msb_eq_decide, decide_eq_true_eq, BitVec.toNat_not]; omega

/-- Encoding never gives negative zero. -/
theorem enc_ne_allOnes {n : Nat} (hn : 0 < n) {k : Int} (h : k.natAbs < 2 ^ (n - 1)) : enc n k ≠ BitVec.allOnes n := by
  have hp : 2 ^ n = 2 * 2 ^ (n - 1) := by rw [← Nat.pow_succ']; congr 1; omega
  have ht : (BitVec.ofNat n k.natAbs).toNat = k.natAbs := by rw [BitVec.toNat_ofNat, Nat.mod_eq_of_lt (by omega)]
  have h0 : 0 < 2 ^ (n - 1) := Nat.pow_pos (by omega)
  intro e
  have e := congrArg BitVec.toNat e
  unfold enc at e
  split at e
  · rw [ht, BitVec.toNat_allOnes] at e; omega
  · rw [BitVec.toNat_not, ht, BitVec.toNat_allOnes] at e; omega

/-- The raw end-around sum as a number: one more than the remainder when a carry goes round. -/
theorem toNat_endAround {n : Nat} (p q : BitVec n) :
    (endAround p q).toNat =
      if 2 ^ n ≤ p.toNat + q.toNat then p.toNat + q.toNat - 2 ^ n + 1 else p.toNat + q.toNat := by
  have h1 := p.isLt
  have h2 := q.isLt
  unfold endAround
  split
  · next h =>
    rw [BitVec.toNat_add, BitVec.toNat_add, BitVec.toNat_ofNat]
    rcases Nat.eq_zero_or_pos n with rfl | hn
    · simp at h1 h2 h ⊢; omega
    · rw [Nat.mod_eq_of_lt (Nat.one_lt_two_pow (by omega)),
        show (p.toNat + q.toNat) % 2 ^ n = p.toNat + q.toNat - 2 ^ n by
          rw [Nat.mod_eq_sub_mod h, Nat.mod_eq_of_lt (by omega)], Nat.mod_eq_of_lt (by omega)]
  · simp only [BitVec.add_zero, BitVec.toNat_add]
    rw [Nat.mod_eq_of_lt (by omega)]

/-- A double word is made of its halves. -/
theorem append_halves (d : DWord) : (d.extractLsb' 36 36 : Word) ++ (d.extractLsb' 0 36 : Word) = d := by
  apply BitVec.eq_of_getLsbD_eq
  intro i hi
  simp only [BitVec.getLsbD_append, BitVec.getLsbD_extractLsb']
  by_cases h : i < 36
  · simp [h]
  · have : i - 36 < 36 := by omega
    simp [h, this, show 36 + (i - 36) = i by omega]

end Sys2Proof
end

