-- ==== Sys2Proof/Laws/State.lean ====
section
/-! SUPPORT. One lemma per field per update of the state, true by definition. -/

namespace Sys2Proof.Machine

variable (s : State)

@[simp] theorem State.pend_grs (w : PendingWrite) : (s.pend w).grs = s.grs := rfl
@[simp] theorem State.pend_dr (w : PendingWrite) : (s.pend w).dr = s.dr := rfl
@[simp] theorem State.pend_par (w : PendingWrite) : (s.pend w).par = s.par := rfl
@[simp] theorem State.pend_br (w : PendingWrite) : (s.pend w).br = s.br := rfl
@[simp] theorem State.pend_pb (w : PendingWrite) : (s.pend w).pb = s.pb := rfl
@[simp] theorem State.pend_key (w : PendingWrite) : (s.pend w).key = s.key := rfl
@[simp] theorem State.pend_pending (w : PendingWrite) : (s.pend w).pending = s.pending := rfl
@[simp] theorem State.pend_running (w : PendingWrite) : (s.pend w).running = s.running := rfl
@[simp] theorem State.pend_stopReason (w : PendingWrite) : (s.pend w).stopReason = s.stopReason := rfl
@[simp] theorem State.pend_stopDetail (w : PendingWrite) : (s.pend w).stopDetail = s.stopDetail := rfl
@[simp] theorem State.pend_stopRequested (w : PendingWrite) : (s.pend w).stopRequested = s.stopRequested := rfl
@[simp] theorem State.pend_pw (w : PendingWrite) : (s.pend w).pw = s.pw ++ [w] := rfl
@[simp] theorem State.pend_memory (w : PendingWrite) : (s.pend w).memory = s.memory := rfl
@[simp] theorem State.pend_params (w : PendingWrite) : (s.pend w).params = s.params := rfl

@[simp] theorem State.writeGrs_grs (n : Fin 128) (v : Word) : (s.writeGrs n v).grs = s.grs := rfl
@[simp] theorem State.writeGrs_dr (n : Fin 128) (v : Word) : (s.writeGrs n v).dr = s.dr := rfl
@[simp] theorem State.writeGrs_par (n : Fin 128) (v : Word) : (s.writeGrs n v).par = s.par := rfl
@[simp] theorem State.writeGrs_br (n : Fin 128) (v : Word) : (s.writeGrs n v).br = s.br := rfl
@[simp] theorem State.writeGrs_pb (n : Fin 128) (v : Word) : (s.writeGrs n v).pb = s.pb := rfl
@[simp] theorem State.writeGrs_key (n : Fin 128) (v : Word) : (s.writeGrs n v).key = s.key := rfl
@[simp] theorem State.writeGrs_pending (n : Fin 128) (v : Word) : (s.writeGrs n v).pending = s.pending := rfl
@[simp] theorem State.writeGrs_running (n : Fin 128) (v : Word) : (s.writeGrs n v).running = s.running := rfl
@[simp] theorem State.writeGrs_stopReason (n : Fin 128) (v : Word) : (s.writeGrs n v).stopReason = s.stopReason := rfl
@[simp] theorem State.writeGrs_stopDetail (n : Fin 128) (v : Word) : (s.writeGrs n v).stopDetail = s.stopDetail := rfl
@[simp] theorem State.writeGrs_stopRequested (n : Fin 128) (v : Word) : (s.writeGrs n v).stopRequested = s.stopRequested := rfl
@[simp] theorem State.writeGrs_pw (n : Fin 128) (v : Word) : (s.writeGrs n v).pw = s.pw ++ [.grs n v] := rfl
@[simp] theorem State.writeGrs_memory (n : Fin 128) (v : Word) : (s.writeGrs n v).memory = s.memory := rfl
@[simp] theorem State.writeGrs_params (n : Fin 128) (v : Word) : (s.writeGrs n v).params = s.params := rfl

@[simp] theorem State.writeA_grs (n : BitVec 4) (v : Word) : (s.writeA n v).grs = s.grs := rfl
@[simp] theorem State.writeA_dr (n : BitVec 4) (v : Word) : (s.writeA n v).dr = s.dr := rfl
@[simp] theorem State.writeA_par (n : BitVec 4) (v : Word) : (s.writeA n v).par = s.par := rfl
@[simp] theorem State.writeA_br (n : BitVec 4) (v : Word) : (s.writeA n v).br = s.br := rfl
@[simp] theorem State.writeA_pb (n : BitVec 4) (v : Word) : (s.writeA n v).pb = s.pb := rfl
@[simp] theorem State.writeA_key (n : BitVec 4) (v : Word) : (s.writeA n v).key = s.key := rfl
@[simp] theorem State.writeA_pending (n : BitVec 4) (v : Word) : (s.writeA n v).pending = s.pending := rfl
@[simp] theorem State.writeA_running (n : BitVec 4) (v : Word) : (s.writeA n v).running = s.running := rfl
@[simp] theorem State.writeA_stopReason (n : BitVec 4) (v : Word) : (s.writeA n v).stopReason = s.stopReason := rfl
@[simp] theorem State.writeA_stopDetail (n : BitVec 4) (v : Word) : (s.writeA n v).stopDetail = s.stopDetail := rfl
@[simp] theorem State.writeA_stopRequested (n : BitVec 4) (v : Word) : (s.writeA n v).stopRequested = s.stopRequested := rfl
@[simp] theorem State.writeA_pw (n : BitVec 4) (v : Word) : (s.writeA n v).pw = s.pw ++ [.grs (s.aCell n) v] := rfl
@[simp] theorem State.writeA_memory (n : BitVec 4) (v : Word) : (s.writeA n v).memory = s.memory := rfl
@[simp] theorem State.writeA_params (n : BitVec 4) (v : Word) : (s.writeA n v).params = s.params := rfl

@[simp] theorem State.writeX_grs (n : BitVec 4) (v : Word) : (s.writeX n v).grs = s.grs := rfl
@[simp] theorem State.writeX_dr (n : BitVec 4) (v : Word) : (s.writeX n v).dr = s.dr := rfl
@[simp] theorem State.writeX_par (n : BitVec 4) (v : Word) : (s.writeX n v).par = s.par := rfl
@[simp] theorem State.writeX_br (n : BitVec 4) (v : Word) : (s.writeX n v).br = s.br := rfl
@[simp] theorem State.writeX_pb (n : BitVec 4) (v : Word) : (s.writeX n v).pb = s.pb := rfl
@[simp] theorem State.writeX_key (n : BitVec 4) (v : Word) : (s.writeX n v).key = s.key := rfl
@[simp] theorem State.writeX_pending (n : BitVec 4) (v : Word) : (s.writeX n v).pending = s.pending := rfl
@[simp] theorem State.writeX_running (n : BitVec 4) (v : Word) : (s.writeX n v).running = s.running := rfl
@[simp] theorem State.writeX_stopReason (n : BitVec 4) (v : Word) : (s.writeX n v).stopReason = s.stopReason := rfl
@[simp] theorem State.writeX_stopDetail (n : BitVec 4) (v : Word) : (s.writeX n v).stopDetail = s.stopDetail := rfl
@[simp] theorem State.writeX_stopRequested (n : BitVec 4) (v : Word) : (s.writeX n v).stopRequested = s.stopRequested := rfl
@[simp] theorem State.writeX_pw (n : BitVec 4) (v : Word) : (s.writeX n v).pw = s.pw ++ [.grs (s.xCell n) v] := rfl
@[simp] theorem State.writeX_memory (n : BitVec 4) (v : Word) : (s.writeX n v).memory = s.memory := rfl
@[simp] theorem State.writeX_params (n : BitVec 4) (v : Word) : (s.writeX n v).params = s.params := rfl

@[simp] theorem State.writeR_grs (n : BitVec 4) (v : Word) : (s.writeR n v).grs = s.grs := rfl
@[simp] theorem State.writeR_dr (n : BitVec 4) (v : Word) : (s.writeR n v).dr = s.dr := rfl
@[simp] theorem State.writeR_par (n : BitVec 4) (v : Word) : (s.writeR n v).par = s.par := rfl
@[simp] theorem State.writeR_br (n : BitVec 4) (v : Word) : (s.writeR n v).br = s.br := rfl
@[simp] theorem State.writeR_pb (n : BitVec 4) (v : Word) : (s.writeR n v).pb = s.pb := rfl
@[simp] theorem State.writeR_key (n : BitVec 4) (v : Word) : (s.writeR n v).key = s.key := rfl
@[simp] theorem State.writeR_pending (n : BitVec 4) (v : Word) : (s.writeR n v).pending = s.pending := rfl
@[simp] theorem State.writeR_running (n : BitVec 4) (v : Word) : (s.writeR n v).running = s.running := rfl
@[simp] theorem State.writeR_stopReason (n : BitVec 4) (v : Word) : (s.writeR n v).stopReason = s.stopReason := rfl
@[simp] theorem State.writeR_stopDetail (n : BitVec 4) (v : Word) : (s.writeR n v).stopDetail = s.stopDetail := rfl
@[simp] theorem State.writeR_stopRequested (n : BitVec 4) (v : Word) : (s.writeR n v).stopRequested = s.stopRequested := rfl
@[simp] theorem State.writeR_pw (n : BitVec 4) (v : Word) : (s.writeR n v).pw = s.pw ++ [.grs (s.rCell n) v] := rfl
@[simp] theorem State.writeR_memory (n : BitVec 4) (v : Word) : (s.writeR n v).memory = s.memory := rfl
@[simp] theorem State.writeR_params (n : BitVec 4) (v : Word) : (s.writeR n v).params = s.params := rfl

@[simp] theorem State.discard_grs : (s.discard).grs = s.grs := rfl
@[simp] theorem State.discard_dr : (s.discard).dr = s.dr := rfl
@[simp] theorem State.discard_par : (s.discard).par = s.par := rfl
@[simp] theorem State.discard_br : (s.discard).br = s.br := rfl
@[simp] theorem State.discard_pb : (s.discard).pb = s.pb := rfl
@[simp] theorem State.discard_key : (s.discard).key = s.key := rfl
@[simp] theorem State.discard_pending : (s.discard).pending = s.pending := rfl
@[simp] theorem State.discard_running : (s.discard).running = s.running := rfl
@[simp] theorem State.discard_stopReason : (s.discard).stopReason = s.stopReason := rfl
@[simp] theorem State.discard_stopDetail : (s.discard).stopDetail = s.stopDetail := rfl
@[simp] theorem State.discard_stopRequested : (s.discard).stopRequested = s.stopRequested := rfl
@[simp] theorem State.discard_pw : (s.discard).pw = [] := rfl
@[simp] theorem State.discard_memory : (s.discard).memory = s.memory := rfl
@[simp] theorem State.discard_params : (s.discard).params = s.params := rfl

@[simp] theorem State.keepSurvivors_grs : (s.keepSurvivors).grs = s.grs := rfl
@[simp] theorem State.keepSurvivors_dr : (s.keepSurvivors).dr = s.dr := rfl
@[simp] theorem State.keepSurvivors_par : (s.keepSurvivors).par = s.par := rfl
@[simp] theorem State.keepSurvivors_br : (s.keepSurvivors).br = s.br := rfl
@[simp] theorem State.keepSurvivors_pb : (s.keepSurvivors).pb = s.pb := rfl
@[simp] theorem State.keepSurvivors_key : (s.keepSurvivors).key = s.key := rfl
@[simp] theorem State.keepSurvivors_pending : (s.keepSurvivors).pending = s.pending := rfl
@[simp] theorem State.keepSurvivors_running : (s.keepSurvivors).running = s.running := rfl
@[simp] theorem State.keepSurvivors_stopReason : (s.keepSurvivors).stopReason = s.stopReason := rfl
@[simp] theorem State.keepSurvivors_stopDetail : (s.keepSurvivors).stopDetail = s.stopDetail := rfl
@[simp] theorem State.keepSurvivors_stopRequested : (s.keepSurvivors).stopRequested = s.stopRequested := rfl
@[simp] theorem State.keepSurvivors_pw : (s.keepSurvivors).pw = s.pw.filter PendingWrite.survives := rfl
@[simp] theorem State.keepSurvivors_memory : (s.keepSurvivors).memory = s.memory := rfl
@[simp] theorem State.keepSurvivors_params : (s.keepSurvivors).params = s.params := rfl

@[simp] theorem State.stopWith_grs (r : StopReason) (d : Word) : (s.stopWith r d).grs = s.grs := rfl
@[simp] theorem State.stopWith_dr (r : StopReason) (d : Word) : (s.stopWith r d).dr = s.dr := rfl
@[simp] theorem State.stopWith_par (r : StopReason) (d : Word) : (s.stopWith r d).par = s.par := rfl
@[simp] theorem State.stopWith_br (r : StopReason) (d : Word) : (s.stopWith r d).br = s.br := rfl
@[simp] theorem State.stopWith_pb (r : StopReason) (d : Word) : (s.stopWith r d).pb = s.pb := rfl
@[simp] theorem State.stopWith_key (r : StopReason) (d : Word) : (s.stopWith r d).key = s.key := rfl
@[simp] theorem State.stopWith_pending (r : StopReason) (d : Word) : (s.stopWith r d).pending = s.pending := rfl
@[simp] theorem State.stopWith_running (r : StopReason) (d : Word) : (s.stopWith r d).running = false := rfl
@[simp] theorem State.stopWith_stopReason (r : StopReason) (d : Word) : (s.stopWith r d).stopReason = r := rfl
@[simp] theorem State.stopWith_stopDetail (r : StopReason) (d : Word) : (s.stopWith r d).stopDetail = d := rfl
@[simp] theorem State.stopWith_stopRequested (r : StopReason) (d : Word) : (s.stopWith r d).stopRequested = s.stopRequested := rfl
@[simp] theorem State.stopWith_pw (r : StopReason) (d : Word) : (s.stopWith r d).pw = s.pw := rfl
@[simp] theorem State.stopWith_memory (r : StopReason) (d : Word) : (s.stopWith r d).memory = s.memory := rfl
@[simp] theorem State.stopWith_params (r : StopReason) (d : Word) : (s.stopWith r d).params = s.params := rfl

@[simp] theorem State.stopEntry_grs (p : PendingInt) (r : StopReason) : (s.stopEntry p r).grs = s.grs := rfl
@[simp] theorem State.stopEntry_dr (p : PendingInt) (r : StopReason) : (s.stopEntry p r).dr = s.dr := rfl
@[simp] theorem State.stopEntry_par (p : PendingInt) (r : StopReason) :
    (s.stopEntry p r).par = if p.cls ∈ s.params.stopOnInterrupt then p.saved.getD s.par else s.par := rfl
@[simp] theorem State.stopEntry_br (p : PendingInt) (r : StopReason) : (s.stopEntry p r).br = s.br := rfl
@[simp] theorem State.stopEntry_pb (p : PendingInt) (r : StopReason) : (s.stopEntry p r).pb = s.pb := rfl
@[simp] theorem State.stopEntry_key (p : PendingInt) (r : StopReason) : (s.stopEntry p r).key = s.key := rfl
@[simp] theorem State.stopEntry_pending (p : PendingInt) (r : StopReason) : (s.stopEntry p r).pending = s.pending := rfl
@[simp] theorem State.stopEntry_running (p : PendingInt) (r : StopReason) : (s.stopEntry p r).running = false := rfl
@[simp] theorem State.stopEntry_stopReason (p : PendingInt) (r : StopReason) : (s.stopEntry p r).stopReason = r := rfl
@[simp] theorem State.stopEntry_stopDetail (p : PendingInt) (r : StopReason) : (s.stopEntry p r).stopDetail = p.cls.word := rfl
@[simp] theorem State.stopEntry_stopRequested (p : PendingInt) (r : StopReason) : (s.stopEntry p r).stopRequested = s.stopRequested := rfl
@[simp] theorem State.stopEntry_pw (p : PendingInt) (r : StopReason) : (s.stopEntry p r).pw = s.pw := rfl
@[simp] theorem State.stopEntry_memory (p : PendingInt) (r : StopReason) : (s.stopEntry p r).memory = s.memory := rfl
@[simp] theorem State.stopEntry_params (p : PendingInt) (r : StopReason) : (s.stopEntry p r).params = s.params := rfl

@[simp] theorem State.addPending_grs (e : PendingInt) : (s.addPending e).grs = s.grs := rfl
@[simp] theorem State.addPending_dr (e : PendingInt) : (s.addPending e).dr = s.dr := rfl
@[simp] theorem State.addPending_par (e : PendingInt) : (s.addPending e).par = s.par := rfl
@[simp] theorem State.addPending_br (e : PendingInt) : (s.addPending e).br = s.br := rfl
@[simp] theorem State.addPending_pb (e : PendingInt) : (s.addPending e).pb = s.pb := rfl
@[simp] theorem State.addPending_key (e : PendingInt) : (s.addPending e).key = s.key := rfl
@[simp] theorem State.addPending_pending (e : PendingInt) : (s.addPending e).pending = insertPending e s.pending := rfl
@[simp] theorem State.addPending_running (e : PendingInt) : (s.addPending e).running = s.running := rfl
@[simp] theorem State.addPending_stopReason (e : PendingInt) : (s.addPending e).stopReason = s.stopReason := rfl
@[simp] theorem State.addPending_stopDetail (e : PendingInt) : (s.addPending e).stopDetail = s.stopDetail := rfl
@[simp] theorem State.addPending_stopRequested (e : PendingInt) : (s.addPending e).stopRequested = s.stopRequested := rfl
@[simp] theorem State.addPending_pw (e : PendingInt) : (s.addPending e).pw = s.pw := rfl
@[simp] theorem State.addPending_memory (e : PendingInt) : (s.addPending e).memory = s.memory := rfl
@[simp] theorem State.addPending_params (e : PendingInt) : (s.addPending e).params = s.params := rfl

@[simp] theorem State.removePending_grs (c : IntClass) : (s.removePending c).grs = s.grs := rfl
@[simp] theorem State.removePending_dr (c : IntClass) : (s.removePending c).dr = s.dr := rfl
@[simp] theorem State.removePending_par (c : IntClass) : (s.removePending c).par = s.par := rfl
@[simp] theorem State.removePending_br (c : IntClass) : (s.removePending c).br = s.br := rfl
@[simp] theorem State.removePending_pb (c : IntClass) : (s.removePending c).pb = s.pb := rfl
@[simp] theorem State.removePending_key (c : IntClass) : (s.removePending c).key = s.key := rfl
@[simp] theorem State.removePending_pending (c : IntClass) : (s.removePending c).pending = s.pending.filter fun p => p.cls != c := rfl
@[simp] theorem State.removePending_running (c : IntClass) : (s.removePending c).running = s.running := rfl
@[simp] theorem State.removePending_stopReason (c : IntClass) : (s.removePending c).stopReason = s.stopReason := rfl
@[simp] theorem State.removePending_stopDetail (c : IntClass) : (s.removePending c).stopDetail = s.stopDetail := rfl
@[simp] theorem State.removePending_stopRequested (c : IntClass) : (s.removePending c).stopRequested = s.stopRequested := rfl
@[simp] theorem State.removePending_pw (c : IntClass) : (s.removePending c).pw = s.pw := rfl
@[simp] theorem State.removePending_memory (c : IntClass) : (s.removePending c).memory = s.memory := rfl
@[simp] theorem State.removePending_params (c : IntClass) : (s.removePending c).params = s.params := rfl

@[simp] theorem State.pend_aCell (w : PendingWrite) (k : BitVec 4) : (s.pend w).aCell k = s.aCell k := rfl
@[simp] theorem State.pend_xCell (w : PendingWrite) (k : BitVec 4) : (s.pend w).xCell k = s.xCell k := rfl
@[simp] theorem State.pend_rCell (w : PendingWrite) (k : BitVec 4) : (s.pend w).rCell k = s.rCell k := rfl
@[simp] theorem State.pend_pp (w : PendingWrite) : (s.pend w).pp = s.pp := rfl
@[simp] theorem State.pend_basicMode (w : PendingWrite) : (s.pend w).basicMode = s.basicMode := rfl
@[simp] theorem State.pend_ix24 (w : PendingWrite) : (s.pend w).ix24 = s.ix24 := rfl
@[simp] theorem State.pend_quarterWord (w : PendingWrite) : (s.pend w).quarterWord = s.quarterWord := rfl
@[simp] theorem State.pend_arithExceptionEnabled (w : PendingWrite) : (s.pend w).arithExceptionEnabled = s.arithExceptionEnabled := rfl

@[simp] theorem State.writeGrs_aCell (n : Fin 128) (v : Word) (k : BitVec 4) : (s.writeGrs n v).aCell k = s.aCell k := rfl
@[simp] theorem State.writeGrs_xCell (n : Fin 128) (v : Word) (k : BitVec 4) : (s.writeGrs n v).xCell k = s.xCell k := rfl
@[simp] theorem State.writeGrs_rCell (n : Fin 128) (v : Word) (k : BitVec 4) : (s.writeGrs n v).rCell k = s.rCell k := rfl
@[simp] theorem State.writeGrs_pp (n : Fin 128) (v : Word) : (s.writeGrs n v).pp = s.pp := rfl
@[simp] theorem State.writeGrs_basicMode (n : Fin 128) (v : Word) : (s.writeGrs n v).basicMode = s.basicMode := rfl
@[simp] theorem State.writeGrs_ix24 (n : Fin 128) (v : Word) : (s.writeGrs n v).ix24 = s.ix24 := rfl
@[simp] theorem State.writeGrs_quarterWord (n : Fin 128) (v : Word) : (s.writeGrs n v).quarterWord = s.quarterWord := rfl
@[simp] theorem State.writeGrs_arithExceptionEnabled (n : Fin 128) (v : Word) : (s.writeGrs n v).arithExceptionEnabled = s.arithExceptionEnabled := rfl

@[simp] theorem State.writeA_aCell (n : BitVec 4) (v : Word) (k : BitVec 4) : (s.writeA n v).aCell k = s.aCell k := rfl
@[simp] theorem State.writeA_xCell (n : BitVec 4) (v : Word) (k : BitVec 4) : (s.writeA n v).xCell k = s.xCell k := rfl
@[simp] theorem State.writeA_rCell (n : BitVec 4) (v : Word) (k : BitVec 4) : (s.writeA n v).rCell k = s.rCell k := rfl
@[simp] theorem State.writeA_pp (n : BitVec 4) (v : Word) : (s.writeA n v).pp = s.pp := rfl
@[simp] theorem State.writeA_basicMode (n : BitVec 4) (v : Word) : (s.writeA n v).basicMode = s.basicMode := rfl
@[simp] theorem State.writeA_ix24 (n : BitVec 4) (v : Word) : (s.writeA n v).ix24 = s.ix24 := rfl
@[simp] theorem State.writeA_quarterWord (n : BitVec 4) (v : Word) : (s.writeA n v).quarterWord = s.quarterWord := rfl
@[simp] theorem State.writeA_arithExceptionEnabled (n : BitVec 4) (v : Word) : (s.writeA n v).arithExceptionEnabled = s.arithExceptionEnabled := rfl

@[simp] theorem State.writeX_aCell (n : BitVec 4) (v : Word) (k : BitVec 4) : (s.writeX n v).aCell k = s.aCell k := rfl
@[simp] theorem State.writeX_xCell (n : BitVec 4) (v : Word) (k : BitVec 4) : (s.writeX n v).xCell k = s.xCell k := rfl
@[simp] theorem State.writeX_rCell (n : BitVec 4) (v : Word) (k : BitVec 4) : (s.writeX n v).rCell k = s.rCell k := rfl
@[simp] theorem State.writeX_pp (n : BitVec 4) (v : Word) : (s.writeX n v).pp = s.pp := rfl
@[simp] theorem State.writeX_basicMode (n : BitVec 4) (v : Word) : (s.writeX n v).basicMode = s.basicMode := rfl
@[simp] theorem State.writeX_ix24 (n : BitVec 4) (v : Word) : (s.writeX n v).ix24 = s.ix24 := rfl
@[simp] theorem State.writeX_quarterWord (n : BitVec 4) (v : Word) : (s.writeX n v).quarterWord = s.quarterWord := rfl
@[simp] theorem State.writeX_arithExceptionEnabled (n : BitVec 4) (v : Word) : (s.writeX n v).arithExceptionEnabled = s.arithExceptionEnabled := rfl

@[simp] theorem State.writeR_aCell (n : BitVec 4) (v : Word) (k : BitVec 4) : (s.writeR n v).aCell k = s.aCell k := rfl
@[simp] theorem State.writeR_xCell (n : BitVec 4) (v : Word) (k : BitVec 4) : (s.writeR n v).xCell k = s.xCell k := rfl
@[simp] theorem State.writeR_rCell (n : BitVec 4) (v : Word) (k : BitVec 4) : (s.writeR n v).rCell k = s.rCell k := rfl
@[simp] theorem State.writeR_pp (n : BitVec 4) (v : Word) : (s.writeR n v).pp = s.pp := rfl
@[simp] theorem State.writeR_basicMode (n : BitVec 4) (v : Word) : (s.writeR n v).basicMode = s.basicMode := rfl
@[simp] theorem State.writeR_ix24 (n : BitVec 4) (v : Word) : (s.writeR n v).ix24 = s.ix24 := rfl
@[simp] theorem State.writeR_quarterWord (n : BitVec 4) (v : Word) : (s.writeR n v).quarterWord = s.quarterWord := rfl
@[simp] theorem State.writeR_arithExceptionEnabled (n : BitVec 4) (v : Word) : (s.writeR n v).arithExceptionEnabled = s.arithExceptionEnabled := rfl

@[simp] theorem State.discard_aCell (k : BitVec 4) : (s.discard).aCell k = s.aCell k := rfl
@[simp] theorem State.discard_xCell (k : BitVec 4) : (s.discard).xCell k = s.xCell k := rfl
@[simp] theorem State.discard_rCell (k : BitVec 4) : (s.discard).rCell k = s.rCell k := rfl
@[simp] theorem State.discard_pp : (s.discard).pp = s.pp := rfl
@[simp] theorem State.discard_basicMode : (s.discard).basicMode = s.basicMode := rfl
@[simp] theorem State.discard_ix24 : (s.discard).ix24 = s.ix24 := rfl
@[simp] theorem State.discard_quarterWord : (s.discard).quarterWord = s.quarterWord := rfl
@[simp] theorem State.discard_arithExceptionEnabled : (s.discard).arithExceptionEnabled = s.arithExceptionEnabled := rfl

@[simp] theorem State.keepSurvivors_aCell (k : BitVec 4) : (s.keepSurvivors).aCell k = s.aCell k := rfl
@[simp] theorem State.keepSurvivors_xCell (k : BitVec 4) : (s.keepSurvivors).xCell k = s.xCell k := rfl
@[simp] theorem State.keepSurvivors_rCell (k : BitVec 4) : (s.keepSurvivors).rCell k = s.rCell k := rfl
@[simp] theorem State.keepSurvivors_pp : (s.keepSurvivors).pp = s.pp := rfl
@[simp] theorem State.keepSurvivors_basicMode : (s.keepSurvivors).basicMode = s.basicMode := rfl
@[simp] theorem State.keepSurvivors_ix24 : (s.keepSurvivors).ix24 = s.ix24 := rfl
@[simp] theorem State.keepSurvivors_quarterWord : (s.keepSurvivors).quarterWord = s.quarterWord := rfl
@[simp] theorem State.keepSurvivors_arithExceptionEnabled : (s.keepSurvivors).arithExceptionEnabled = s.arithExceptionEnabled := rfl

@[simp] theorem State.stopWith_aCell (r : StopReason) (d : Word) (k : BitVec 4) : (s.stopWith r d).aCell k = s.aCell k := rfl
@[simp] theorem State.stopWith_xCell (r : StopReason) (d : Word) (k : BitVec 4) : (s.stopWith r d).xCell k = s.xCell k := rfl
@[simp] theorem State.stopWith_rCell (r : StopReason) (d : Word) (k : BitVec 4) : (s.stopWith r d).rCell k = s.rCell k := rfl
@[simp] theorem State.stopWith_pp (r : StopReason) (d : Word) : (s.stopWith r d).pp = s.pp := rfl
@[simp] theorem State.stopWith_basicMode (r : StopReason) (d : Word) : (s.stopWith r d).basicMode = s.basicMode := rfl
@[simp] theorem State.stopWith_ix24 (r : StopReason) (d : Word) : (s.stopWith r d).ix24 = s.ix24 := rfl
@[simp] theorem State.stopWith_quarterWord (r : StopReason) (d : Word) : (s.stopWith r d).quarterWord = s.quarterWord := rfl
@[simp] theorem State.stopWith_arithExceptionEnabled (r : StopReason) (d : Word) : (s.stopWith r d).arithExceptionEnabled = s.arithExceptionEnabled := rfl

@[simp] theorem State.addPending_aCell (e : PendingInt) (k : BitVec 4) : (s.addPending e).aCell k = s.aCell k := rfl
@[simp] theorem State.addPending_xCell (e : PendingInt) (k : BitVec 4) : (s.addPending e).xCell k = s.xCell k := rfl
@[simp] theorem State.addPending_rCell (e : PendingInt) (k : BitVec 4) : (s.addPending e).rCell k = s.rCell k := rfl
@[simp] theorem State.addPending_pp (e : PendingInt) : (s.addPending e).pp = s.pp := rfl
@[simp] theorem State.addPending_basicMode (e : PendingInt) : (s.addPending e).basicMode = s.basicMode := rfl
@[simp] theorem State.addPending_ix24 (e : PendingInt) : (s.addPending e).ix24 = s.ix24 := rfl
@[simp] theorem State.addPending_quarterWord (e : PendingInt) : (s.addPending e).quarterWord = s.quarterWord := rfl
@[simp] theorem State.addPending_arithExceptionEnabled (e : PendingInt) : (s.addPending e).arithExceptionEnabled = s.arithExceptionEnabled := rfl

@[simp] theorem State.removePending_aCell (c : IntClass) (k : BitVec 4) : (s.removePending c).aCell k = s.aCell k := rfl
@[simp] theorem State.removePending_xCell (c : IntClass) (k : BitVec 4) : (s.removePending c).xCell k = s.xCell k := rfl
@[simp] theorem State.removePending_rCell (c : IntClass) (k : BitVec 4) : (s.removePending c).rCell k = s.rCell k := rfl
@[simp] theorem State.removePending_pp (c : IntClass) : (s.removePending c).pp = s.pp := rfl
@[simp] theorem State.removePending_basicMode (c : IntClass) : (s.removePending c).basicMode = s.basicMode := rfl
@[simp] theorem State.removePending_ix24 (c : IntClass) : (s.removePending c).ix24 = s.ix24 := rfl
@[simp] theorem State.removePending_quarterWord (c : IntClass) : (s.removePending c).quarterWord = s.quarterWord := rfl
@[simp] theorem State.removePending_arithExceptionEnabled (c : IntClass) : (s.removePending c).arithExceptionEnabled = s.arithExceptionEnabled := rfl

@[simp] theorem State.writeAA_pw (n : BitVec 4) (d : DWord) :
    (s.writeAA n d).pw = s.pw ++ [.grs (s.aCell n) (d.extractLsb' 36 36)] ++ [.grs (s.aCell (n + 1)) (d.extractLsb' 0 36)] := rfl
@[simp] theorem State.bump_pw (n : BitVec 4) :
    (s.bump n).pw = s.pw ++ [.grs (s.xCell n) (s.incremented (s.readX n))] := rfl

end Sys2Proof.Machine
end

