-- ==== Sys2Proof/Laws/Memory.lean ====
section
/-! SUPPORT. The laws of main storage: what a read after a write gives, and that every operation keeps the canonical form. -/

namespace Sys2Proof.Machine

theorem readCells_of_forall_ne {l : List (Nat × Word)} {a : Nat} (h : ∀ p ∈ l, p.1 ≠ a) :
    readCells l a = unlistedWord := by
  induction l with
  | nil => rfl
  | cons p l ih =>
    obtain ⟨b, w⟩ := p
    rw [readCells, if_neg (h (b, w) (by simp)), ih fun q hq => h q (List.mem_cons_of_mem _ hq)]

/-- A write is read back, on any list whose addresses rise. -/
theorem readCells_writeCells_self {l : List (Nat × Word)} (h : l.Pairwise fun p q => p.1 < q.1) (a : Nat) (v : Word) :
    readCells (writeCells l a v) a = v := by
  induction l with
  | nil => by_cases hv : v = unlistedWord <;> simp [writeCells, readCells, hv]
  | cons p l ih =>
    obtain ⟨b, w⟩ := p
    rw [List.pairwise_cons] at h
    simp only [writeCells]
    by_cases hab : a < b
    · have hne : ∀ p ∈ (b, w) :: l, p.1 ≠ a := by
        intro p hp
        rcases List.mem_cons.1 hp with rfl | hp
        · exact Nat.ne_of_gt hab
        · exact Nat.ne_of_gt (Nat.lt_trans hab (h.1 p hp))
      by_cases hv : v = unlistedWord
      · simp only [hab, hv, if_true]; exact readCells_of_forall_ne hne
      · simp [hab, hv, readCells]
    · by_cases he : a = b
      · subst he
        by_cases hv : v = unlistedWord
        · simp only [hv, if_true, lt_irrefl, if_false]
          exact readCells_of_forall_ne fun p hp => Nat.ne_of_gt (h.1 p hp)
        · simp [hv, readCells]
      · simp [hab, he, readCells, Ne.symm he, ih h.2]

/-- A write leaves every other address alone. -/
theorem readCells_writeCells_of_ne {l : List (Nat × Word)} {a b : Nat} (v : Word) (h : b ≠ a) :
    readCells (writeCells l a v) b = readCells l b := by
  induction l with
  | nil => by_cases hv : v = unlistedWord <;> simp [writeCells, readCells, hv, h.symm]
  | cons p l ih =>
    obtain ⟨c, w⟩ := p
    simp only [writeCells]
    split
    · split <;> simp [readCells, h.symm]
    · split
      · next hac => subst hac; split <;> simp [readCells, h.symm]
      · simp [readCells, ih]

theorem mem_writeCells {l : List (Nat × Word)} {a : Nat} {v : Word} {p : Nat × Word} (h : p ∈ writeCells l a v) :
    (p = (a, v) ∧ v ≠ unlistedWord) ∨ p ∈ l := by
  induction l with
  | nil =>
    by_cases hv : v = unlistedWord
    · simp [writeCells, hv] at h
    · simp [writeCells, hv] at h; exact .inl ⟨h, hv⟩
  | cons q l ih =>
    obtain ⟨b, w⟩ := q
    simp only [writeCells] at h
    split at h
    · split at h
      · exact .inr h
      · next hv => exact (List.mem_cons.1 h).imp (fun e => ⟨e, hv⟩) id
    · split at h
      · split at h
        · exact .inr (List.mem_cons_of_mem _ h)
        · next hv => exact (List.mem_cons.1 h).imp (fun e => ⟨e, hv⟩) (List.mem_cons_of_mem _)
      · rcases List.mem_cons.1 h with rfl | h
        · exact .inr List.mem_cons_self
        · exact (ih h).imp id (List.mem_cons_of_mem _)

theorem pairwise_writeCells {l : List (Nat × Word)} (h : l.Pairwise fun p q => p.1 < q.1) (a : Nat) (v : Word) :
    (writeCells l a v).Pairwise fun p q => p.1 < q.1 := by
  induction l with
  | nil => by_cases hv : v = unlistedWord <;> simp [writeCells, hv]
  | cons p l ih =>
    obtain ⟨b, w⟩ := p
    have h' := List.pairwise_cons.1 h
    simp only [writeCells]
    split
    · next hab =>
      split
      · exact h
      · refine List.pairwise_cons.2 ⟨?_, h⟩
        intro p hp
        rcases List.mem_cons.1 hp with rfl | hp
        · exact hab
        · exact Nat.lt_trans hab (h'.1 p hp)
    · split
      · next he =>
        subst he
        split
        · exact h'.2
        · exact List.pairwise_cons.2 ⟨h'.1, h'.2⟩
      · next hab he =>
        refine List.pairwise_cons.2 ⟨?_, ih h'.2⟩
        intro p hp
        rcases mem_writeCells hp with ⟨rfl, -⟩ | hp
        · simp only; omega
        · exact h'.1 p hp

/-- Reading the address just written gives the word written. -/
theorem Memory.read_write_self {m : Memory} (h : m.wf) (a : Nat) (v : Word) : (m.write a v).read a = v :=
  readCells_writeCells_self h.1 a v

/-- A write leaves every other address alone. -/
@[simp] theorem Memory.read_write_of_ne (m : Memory) {a b : Nat} (v : Word) (h : b ≠ a) : (m.write a v).read b = m.read b :=
  readCells_writeCells_of_ne v h

/-- A write keeps the canonical form. -/
theorem Memory.wf_write {m : Memory} (h : m.wf) (a : Nat) (v : Word) : (m.write a v).wf :=
  ⟨pairwise_writeCells h.1 a v, fun p hp => by
    rcases mem_writeCells hp with ⟨rfl, hv⟩ | hp
    · exact hv
    · exact h.2 p hp⟩

/-- So do writes of consecutive words. -/
theorem Memory.wf_writeList {m : Memory} (h : m.wf) (a : Nat) (vs : List Word) : (m.writeList a vs).wf := by
  induction vs generalizing m a with
  | nil => exact h
  | cons v vs ih => exact ih (wf_write h a v) (a + 1)

/-- Writes of consecutive words leave every address outside them alone. -/
theorem Memory.read_writeList_of_not_mem (m : Memory) (a : Nat) (vs : List Word) {b : Nat}
    (h : b < a ∨ a + vs.length ≤ b) : (m.writeList a vs).read b = m.read b := by
  induction vs generalizing m a with
  | nil => rfl
  | cons v vs ih =>
    simp only [List.length_cons] at h
    rw [writeList, ih _ _ (by omega), read_write_of_ne _ _ (by omega)]

/-- Each of the words written is read back. -/
theorem Memory.read_writeList {m : Memory} (h : m.wf) (a : Nat) (vs : List Word) {k : Nat} (hk : k < vs.length) :
    (m.writeList a vs).read (a + k) = vs[k] := by
  induction vs generalizing m a k with
  | nil => simp at hk
  | cons v vs ih =>
    cases k with
    | zero =>
      rw [writeList, read_writeList_of_not_mem _ _ _ (by omega), Nat.add_zero, read_write_self h]; rfl
    | succ k =>
      have := ih (wf_write h a v) (a + 1) (Nat.lt_of_succ_lt_succ hk)
      rw [writeList, show a + (k + 1) = a + 1 + k by omega, this]; rfl

/-- Two canonical storages that read the same everywhere are the same data. -/
theorem cells_ext {l m : List (Nat × Word)} (hl : l.Pairwise fun p q => p.1 < q.1) (hm : m.Pairwise fun p q => p.1 < q.1)
    (vl : ∀ p ∈ l, p.2 ≠ unlistedWord) (vm : ∀ p ∈ m, p.2 ≠ unlistedWord) (h : ∀ a, readCells l a = readCells m a) :
    l = m := by
  induction l generalizing m with
  | nil =>
    cases m with
    | nil => rfl
    | cons q m =>
      have := h q.1
      simp [readCells] at this
      exact absurd this.symm (vm q (by simp))
  | cons p l ih =>
    cases m with
    | nil =>
      have := h p.1
      simp [readCells] at this
      exact absurd this (vl p (by simp))
    | cons q m =>
      obtain ⟨a, v⟩ := p
      obtain ⟨b, w⟩ := q
      have hl' := List.pairwise_cons.1 hl
      have hm' := List.pairwise_cons.1 hm
      have hab : a = b := by
        rcases Nat.lt_trichotomy a b with hlt | he | hlt
        · have := h a
          rw [readCells, if_pos rfl, readCells_of_forall_ne (l := (b, w) :: m)] at this
          · exact absurd this (vl (a, v) (by simp))
          · intro r hr
            rcases List.mem_cons.1 hr with rfl | hr
            · exact Nat.ne_of_gt hlt
            · exact Nat.ne_of_gt (Nat.lt_trans hlt (hm'.1 r hr))
        · exact he
        · have := h b
          rw [readCells_of_forall_ne (l := (a, v) :: l), readCells, if_pos rfl] at this
          · exact absurd this.symm (vm (b, w) (by simp))
          · intro r hr
            rcases List.mem_cons.1 hr with rfl | hr
            · exact Nat.ne_of_gt hlt
            · exact Nat.ne_of_gt (Nat.lt_trans hlt (hl'.1 r hr))
      subst hab
      have hv : v = w := by simpa [readCells] using h a
      subst hv
      congr 1
      refine ih hl'.2 hm'.2 (fun r hr => vl r (List.mem_cons_of_mem _ hr)) (fun r hr => vm r (List.mem_cons_of_mem _ hr)) ?_
      intro c
      by_cases hc : c = a
      · subst hc
        rw [readCells_of_forall_ne fun r hr => Nat.ne_of_gt (hl'.1 r hr),
          readCells_of_forall_ne fun r hr => Nat.ne_of_gt (hm'.1 r hr)]
      · have := h c
        simpa [readCells, Ne.symm hc] using this

theorem Memory.ext_read {m n : Memory} (hm : m.wf) (hn : n.wf) (h : ∀ a, m.read a = n.read a) : m = n := by
  obtain ⟨l⟩ := m
  obtain ⟨k⟩ := n
  exact congrArg Memory.mk (cells_ext hm.1 hn.1 hm.2 hn.2 h)

/-- Writing back the word that is there changes nothing. -/
theorem Memory.write_read_self {m : Memory} (h : m.wf) (a : Nat) : m.write a (m.read a) = m :=
  ext_read (wf_write h a _) h fun b => by
    by_cases hb : b = a
    · rw [hb, read_write_self h]
    · rw [read_write_of_ne _ _ hb]

theorem reset_memory_wf : State.reset.memory.wf := ⟨List.Pairwise.nil, fun p hp => by cases hp⟩

end Sys2Proof.Machine
end

