-- ==== Sys2Proof/Laws/Commit.lean ====
section
/-! SUPPORT. What Writeback makes of the pending writes, and how an instruction ends when InterruptCheck has nothing to do. -/

namespace Sys2Proof.Machine

/-- The part of one pending write that falls on the GRS. -/
def applyGrs (g : Vector Word 128) : PendingWrite → Vector Word 128
  | .grs n v => g.set n v
  | _ => g

/-- The part that falls on storage. -/
def applyMem (m : Memory) : PendingWrite → Memory
  | .mem a v => m.write a v
  | _ => m

/-- The part that falls on the DR. -/
def applyDr (d : Word) : PendingWrite → Word
  | .dr mask v _ => (d &&& ~~~mask) ||| (v &&& mask)
  | _ => d

/-- The pending writes act on the GRS, storage and the DR, each for itself. -/
theorem foldl_apply (l : List PendingWrite) (s : State) :
    l.foldl State.apply s =
      { s with grs := l.foldl applyGrs s.grs, memory := l.foldl applyMem s.memory, dr := l.foldl applyDr s.dr } := by
  induction l generalizing s with
  | nil => rfl
  | cons w l ih => cases w <;> simp [ih, State.apply, applyGrs, applyMem, applyDr]

theorem State.commit_eq (s : State) :
    s.commit =
      { s with
        grs := s.pw.foldl applyGrs s.grs, memory := s.pw.foldl applyMem s.memory
        dr := s.pw.foldl applyDr s.dr, pw := [] } := by
  simp [State.commit, foldl_apply]

@[simp] theorem State.commit_grs (s : State) : s.commit.grs = s.pw.foldl applyGrs s.grs := by rw [commit_eq]
@[simp] theorem State.commit_memory (s : State) : s.commit.memory = s.pw.foldl applyMem s.memory := by rw [commit_eq]
@[simp] theorem State.commit_dr (s : State) : s.commit.dr = s.pw.foldl applyDr s.dr := by rw [commit_eq]
@[simp] theorem State.commit_par (s : State) : s.commit.par = s.par := by rw [commit_eq]
@[simp] theorem State.commit_br (s : State) : s.commit.br = s.br := by rw [commit_eq]
@[simp] theorem State.commit_pb (s : State) : s.commit.pb = s.pb := by rw [commit_eq]
@[simp] theorem State.commit_key (s : State) : s.commit.key = s.key := by rw [commit_eq]
@[simp] theorem State.commit_pending (s : State) : s.commit.pending = s.pending := by rw [commit_eq]
@[simp] theorem State.commit_running (s : State) : s.commit.running = s.running := by rw [commit_eq]
@[simp] theorem State.commit_stopReason (s : State) : s.commit.stopReason = s.stopReason := by rw [commit_eq]
@[simp] theorem State.commit_stopDetail (s : State) : s.commit.stopDetail = s.stopDetail := by rw [commit_eq]
@[simp] theorem State.commit_stopRequested (s : State) : s.commit.stopRequested = s.stopRequested := by rw [commit_eq]
@[simp] theorem State.commit_pw (s : State) : s.commit.pw = [] := by rw [commit_eq]
@[simp] theorem State.commit_params (s : State) : s.commit.params = s.params := by rw [commit_eq]

theorem foldl_applyGrs_getElem (l : List PendingWrite) (g : Vector Word 128) (n : Fin 128) :
    (l.foldl applyGrs g)[n] = l.foldl (overlayGrs n) g[n] := by
  induction l generalizing g with
  | nil => rfl
  | cons w l ih =>
    rw [List.foldl_cons, List.foldl_cons, ih]
    cases w with
    | grs k v =>
      congr 1
      simp only [applyGrs, overlayGrs]
      by_cases h : k = n
      · subst h; simp
      · rw [if_neg h]
        exact Vector.getElem_set_ne _ _ (by simpa [Fin.ext_iff] using h)
    | _ => rfl

/-- After Writeback a GRS cell holds what a read within the instruction saw. -/
theorem State.commit_grs_getElem (s : State) (n : Fin 128) : s.commit.grs[n] = s.readGrs n := by
  rw [commit_grs, foldl_applyGrs_getElem]; rfl

/-- A pending write of the cell read. -/
@[simp] theorem State.readGrs_writeGrs_self (s : State) (n : Fin 128) (v : Word) : (s.writeGrs n v).readGrs n = v := by
  simp [readGrs, overlayGrs]

/-- A pending write of another cell. -/
@[simp] theorem State.readGrs_writeGrs_of_ne (s : State) {n k : Fin 128} (v : Word) (h : k ≠ n) :
    (s.writeGrs n v).readGrs k = s.readGrs k := by
  simp [readGrs, overlayGrs, Ne.symm h]

/-- A pending write that is not of the GRS. -/
theorem State.readGrs_pend_mem (s : State) (k : Fin 128) (a : Nat) (v : Word) :
    (s.pend (.mem a v)).readGrs k = s.readGrs k := by simp [readGrs, overlayGrs]

theorem State.readGrs_pend_dr (s : State) (k : Fin 128) (m v : Word) (b : Bool) :
    (s.pend (.dr m v b)).readGrs k = s.readGrs k := by simp [readGrs, overlayGrs]

@[simp] theorem State.readGrs_discard (s : State) (k : Fin 128) : s.discard.readGrs k = s.grs[k] := rfl

/-- The two cells of a register pair differ. -/
theorem State.aCell_succ_ne (s : State) (a : BitVec 4) (h : a ≠ 15) : s.aCell (a + 1) ≠ s.aCell a := by
  have h1 : (a + 1).toNat = a.toNat + 1 := by bv_omega
  have h2 : a.toNat < 15 := by bv_omega
  intro e
  have := congrArg Fin.val e
  simp only [aCell, h1, Fin.ofNat] at this
  split at this <;> omega

/-- A raise that leaves no surviving write leaves the state as it was at Fetch (spec/40_cycle.md R171). -/
theorem State.keepSurvivors_commit (s : State) (h : ∀ w ∈ s.pw, w.survives = false) :
    s.keepSurvivors.commit = s.discard := by
  have : s.keepSurvivors = s.discard := by
    have : s.pw.filter PendingWrite.survives = [] := List.filter_eq_nil_iff.2 fun w hw => by simp [h w hw]
    simp [keepSurvivors, discard, this]
  rw [this, commit_eq]; rfl

/-- The offset of a PAR that got another one, and the bits above it (spec/40_cycle.md R166). -/
@[simp] theorem withOffset_offset (par : Word) (n : BitVec 18) : (withOffset par n).extractLsb' 0 18 = n := by
  unfold withOffset
  exact BitVec.extractLsb'_append_eq_right

@[simp] theorem withOffset_high (par : Word) (n : BitVec 18) :
    (withOffset par n).extractLsb' 18 18 = par.extractLsb' 18 18 := by
  unfold withOffset
  exact BitVec.extractLsb'_append_eq_left

/-! ### InterruptCheck -/

theorem State.honourStop_of_not_requested (s : State) (h : s.stopRequested = false) : s.honourStop = s := by
  simp [honourStop, h]

/-- InterruptCheck with nothing to do. -/
theorem State.interruptCheck_of_quiet (s : State) (h : s.Quiet) : s.interruptCheck = .next s := by
  simp [interruptCheck, h.1, honourStop_of_not_requested s h.2]

/-- What is due depends on `pending` and on DR.deferrableEnabled only. -/
theorem State.dueInterrupt_congr {s t : State} (hp : t.pending = s.pending)
    (hd : t.deferrableEnabled = s.deferrableEnabled) : t.dueInterrupt = s.dueInterrupt := by
  simp [dueInterrupt, isDeferred, hp, hd]

theorem State.Quiet.congr {s t : State} (h : s.Quiet) (hp : t.pending = s.pending)
    (hd : t.deferrableEnabled = s.deferrableEnabled) (hr : t.stopRequested = s.stopRequested) : t.Quiet :=
  ⟨by rw [dueInterrupt_congr hp hd, h.1], by rw [hr, h.2]⟩

@[simp] theorem State.writeback_par (s : State) (act : Act) : (s.writeback act).par = nextPar s.par act := rfl
@[simp] theorem State.writeback_grs (s : State) (act : Act) : (s.writeback act).grs = s.commit.grs := rfl
@[simp] theorem State.writeback_memory (s : State) (act : Act) : (s.writeback act).memory = s.commit.memory := rfl
@[simp] theorem State.writeback_dr (s : State) (act : Act) : (s.writeback act).dr = s.commit.dr := rfl
@[simp] theorem State.writeback_pw (s : State) (act : Act) : (s.writeback act).pw = [] := by simp [writeback]
@[simp] theorem State.writeback_br (s : State) (act : Act) : (s.writeback act).br = s.br := by simp [writeback]
@[simp] theorem State.writeback_pb (s : State) (act : Act) : (s.writeback act).pb = s.pb := by simp [writeback]
@[simp] theorem State.writeback_key (s : State) (act : Act) : (s.writeback act).key = s.key := by simp [writeback]
@[simp] theorem State.writeback_pending (s : State) (act : Act) : (s.writeback act).pending = s.pending := by
  simp [writeback]
@[simp] theorem State.writeback_running (s : State) (act : Act) : (s.writeback act).running = s.running := by
  simp [writeback]
@[simp] theorem State.writeback_stopReason (s : State) (act : Act) : (s.writeback act).stopReason = s.stopReason := by
  simp [writeback]
@[simp] theorem State.writeback_stopDetail (s : State) (act : Act) : (s.writeback act).stopDetail = s.stopDetail := by
  simp [writeback]
@[simp] theorem State.writeback_stopRequested (s : State) (act : Act) :
    (s.writeback act).stopRequested = s.stopRequested := by simp [writeback]
@[simp] theorem State.writeback_params (s : State) (act : Act) : (s.writeback act).params = s.params := by
  simp [writeback]

/-- An instruction that is no HALT completes, when InterruptCheck has nothing to do, in the state that Writeback leaves. -/
theorem State.complete_of_quiet (s : State) (act : Act) (hact : ∀ d, act ≠ .halt d) (h : (s.writeback act).Quiet) :
    s.complete act = .next (s.writeback act) := by
  cases act with
  | halt d => exact absurd rfl (hact d)
  | _ => exact interruptCheck_of_quiet _ h

end Sys2Proof.Machine
end

