-- ==== Sys2Proof/Laws/Resolve.lean ====
section
/-! SUPPORT. What a piece of an instruction can come to, and what address resolution can do to the state: it appends
pending increments of index registers and nothing else (spec/20_memory.md R113). -/

namespace Sys2Proof.Machine

/-! ### Outcomes of a piece of an instruction -/

section
variable {α β : Type}

@[simp] theorem Res.bind_ok (v : α) (s : State) (f : α → State → Res β) : (Res.ok v s).bind f = f v s := rfl
@[simp] theorem Res.bind_raised (c : IntClass) (d : Word) (s : State) (f : α → State → Res β) :
    (Res.raised c d s).bind f = .raised c d s := rfl
@[simp] theorem Res.bind_fatal (r : StopReason) (d : Word) (s : State) (f : α → State → Res β) :
    (Res.fatal r d s).bind f = .fatal r d s := rfl
@[simp] theorem Res.bind_refused (r : Refusal) (f : α → State → Res β) : (Res.refused r).bind f = .refused r := rfl
@[simp] theorem Res.bind_stuck (e : Fault) (f : α → State → Res β) : (Res.stuck e).bind f = .stuck e := rfl

/-- A piece goes on to a value only through a value. -/
theorem Res.bind_eq_ok {x : Res α} {f : α → State → Res β} {b : β} {t : State} :
    x.bind f = .ok b t ↔ ∃ a s, x = .ok a s ∧ f a s = .ok b t := by
  cases x <;> simp [Res.bind]

theorem Res.bind_assoc {γ : Type} (x : Res α) (f : α → State → Res β) (g : β → State → Res γ) :
    (x.bind f).bind g = x.bind fun a s => (f a s).bind g := by cases x <;> rfl

@[simp] theorem Res.finish_ok (act : Act) (s : State) : (Res.ok act s).finish = s.complete act := rfl
@[simp] theorem Res.finish_raised (c : IntClass) (d : Word) (s : State) :
    (Res.raised c d s : Res Act).finish = s.keepSurvivors.commit.takeSync c d := rfl
@[simp] theorem Res.finish_fatal (r : StopReason) (d : Word) (s : State) :
    (Res.fatal r d s : Res Act).finish = .next (s.discard.stopWith r d) := rfl
@[simp] theorem Res.finish_refused (r : Refusal) : (Res.refused r : Res Act).finish = .refused r := rfl
@[simp] theorem Res.finish_stuck (f : Fault) : (Res.stuck f : Res Act).finish = .fault f := rfl

/-- Every state that an outcome carries satisfies `P`. -/
def Res.Holds (P : State → Prop) : Res α → Prop
  | .ok _ s => P s
  | .raised _ _ s => P s
  | .fatal _ _ s => P s
  | .refused _ => True
  | .stuck _ => True

@[simp] theorem Res.holds_ok {P : State → Prop} (v : α) (s : State) : (Res.ok v s).Holds P ↔ P s := Iff.rfl
@[simp] theorem Res.holds_raised {P : State → Prop} (c : IntClass) (d : Word) (s : State) :
    (Res.raised c d s : Res α).Holds P ↔ P s := Iff.rfl
@[simp] theorem Res.holds_fatal {P : State → Prop} (r : StopReason) (d : Word) (s : State) :
    (Res.fatal r d s : Res α).Holds P ↔ P s := Iff.rfl
@[simp] theorem Res.holds_refused {P : State → Prop} (r : Refusal) : (Res.refused r : Res α).Holds P ↔ True := Iff.rfl
@[simp] theorem Res.holds_stuck {P : State → Prop} (e : Fault) : (Res.stuck e : Res α).Holds P ↔ True := Iff.rfl

theorem Res.Holds.bind {P Q : State → Prop} {x : Res α} {f : α → State → Res β} (hx : x.Holds P)
    (hPQ : ∀ s, P s → Q s) (hf : ∀ a s, P s → (f a s).Holds Q) : (x.bind f).Holds Q := by
  cases x with
  | ok a s => exact hf a s hx
  | raised c d s => exact hPQ s hx
  | fatal r d s => exact hPQ s hx
  | _ => trivial

theorem Res.Holds.mono {P Q : State → Prop} {x : Res α} (hx : x.Holds P) (h : ∀ s, P s → Q s) : x.Holds Q := by
  cases x <;> first | exact h _ hx | trivial

end

/-! ### Resolution -/

/-- The state is the same but for pending increments of index registers X1 to X15, appended. -/
def Indexes (s t : State) : Prop :=
  ∃ l, t = { s with pw := s.pw ++ l } ∧ ∀ w ∈ l, ∃ (n : BitVec 4) (v : Word), n ≠ 0 ∧ w = .grs (s.xCell n) v

theorem Indexes.refl (s : State) : Indexes s s := ⟨[], by simp, by simp⟩

theorem Indexes.trans {s t u : State} (h : Indexes s t) (k : Indexes t u) : Indexes s u := by
  obtain ⟨l, rfl, hl⟩ := h
  obtain ⟨m, rfl, hm⟩ := k
  refine ⟨l ++ m, by simp, fun w hw => ?_⟩
  rcases List.mem_append.1 hw with hw | hw
  · exact hl w hw
  · exact hm w hw

theorem Indexes.afterIndex (s : State) (m : AddrSpec) : Indexes s (s.afterIndex m) := by
  unfold State.afterIndex
  split
  · next h => exact ⟨[.grs (s.xCell m.x) (s.incremented (s.readX m.x))], rfl, by simpa using ⟨m.x, h.1, rfl⟩⟩
  · exact .refl s

/-- A piece that only resolves. -/
abbrev Resolves {α : Type} (s : State) (x : Res α) : Prop := x.Holds (Indexes s)

theorem Resolves.bind {α β : Type} {s : State} {x : Res α} {f : α → State → Res β} (hx : Resolves s x)
    (hf : ∀ a t, Resolves t (f a t)) : Resolves s (x.bind f) :=
  Res.Holds.bind hx (fun _ h => h) fun a t h => (hf a t).mono fun _ k => h.trans k

theorem resolves_ok {α : Type} (s : State) (v : α) : Resolves s (Res.ok v s) := Indexes.refl s

theorem resolves_grsPlace (s : State) (n : Fin 128) : Resolves s (s.grsPlace n) := by
  unfold State.grsPlace; split
  · trivial
  · exact resolves_ok s _

theorem resolves_basicPlace (s : State) (rel : Nat) : Resolves s (s.basicPlace rel) := by
  unfold State.basicPlace; split
  · exact resolves_grsPlace s _
  · split <;> exact Indexes.refl s

theorem resolves_extendedPlace (s : State) (rel : Nat) (m : AddrSpec) : Resolves s (s.extendedPlace rel m) := by
  unfold State.extendedPlace; split
  · exact resolves_grsPlace s _
  · split
    · trivial
    · exact Indexes.refl s

theorem resolves_place (s : State) (rel : Nat) (m : AddrSpec) : Resolves s (s.place rel m) := by
  unfold State.place; split
  · exact resolves_basicPlace s rel
  · exact resolves_extendedPlace s rel m

/-- A check changes nothing. -/
theorem resolves_check (s : State) (acc : Perms) (p : Place) : Resolves s (s.check acc p) := by
  cases p with
  | grs n => exact Indexes.refl s
  | mem slot rel =>
    simp only [State.check]
    repeat' split
    all_goals first | exact Indexes.refl s | trivial

theorem resolves_readChecked (s : State) (p : Place) : Resolves s (s.readChecked p) :=
  (resolves_check s _ p).bind fun _ t => resolves_ok t _

theorem resolves_resolvePlace (fuel : Nat) (m : AddrSpec) (s : State) : Resolves s (resolvePlace fuel m s) := by
  induction fuel generalizing m s with
  | zero =>
    unfold resolvePlace
    refine Res.Holds.bind ((resolves_place _ _ m).mono fun _ h => (Indexes.afterIndex s m).trans h) (fun _ h => h) ?_
    intro p t ht
    split <;> exact ht
  | succ fuel ih =>
    unfold resolvePlace
    refine Res.Holds.bind ((resolves_place _ _ m).mono fun _ h => (Indexes.afterIndex s m).trans h) (fun _ h => h) ?_
    intro p t ht
    split
    · exact ht
    · exact Resolves.bind ((resolves_readChecked t p).mono fun _ h => ht.trans h) fun w u => ih _ u

theorem resolves_operandLoc (s : State) (acc : Perms) (m : AddrSpec) : Resolves s (s.operandLoc acc m) :=
  (resolves_resolvePlace _ m s).bind fun p t => resolves_check t acc p

theorem resolves_successor (s : State) (p : Place) : Resolves s (s.successor p) := by
  cases p with
  | grs n =>
    simp only [State.successor]; split
    · trivial
    · exact resolves_grsPlace s _
  | mem slot rel => exact Indexes.refl s

theorem resolves_operandLocs (s : State) (acc : Perms) (m : AddrSpec) : Resolves s (s.operandLocs acc m) :=
  (resolves_resolvePlace _ m s).bind fun p t => (resolves_check t acc p).bind fun _ t =>
    (resolves_successor t p).bind fun p2 t => (resolves_check t acc p2).bind fun _ t => resolves_ok t _

theorem resolves_operand (s : State) (j : BitVec 4) (m : AddrSpec) : Resolves s (s.operand j m) := by
  unfold State.operand; split
  · exact (resolves_operandLoc s _ m).bind fun _ t => resolves_ok t _
  · exact Indexes.afterIndex s m

theorem resolves_operand2 (s : State) (m : AddrSpec) : Resolves s (s.operand2 m) :=
  (resolves_operandLocs s _ m).bind fun _ t => resolves_ok t _

theorem resolves_resolveTarget (fuel : Nat) (m : AddrSpec) (s : State) : Resolves s (resolveTarget fuel m s) := by
  induction fuel generalizing m s with
  | zero =>
    unfold resolveTarget
    simp only
    repeat' split
    all_goals first | exact Indexes.afterIndex s m | trivial
  | succ fuel ih =>
    unfold resolveTarget
    simp only
    split
    · exact Indexes.afterIndex s m
    · split
      · trivial
      · exact Resolves.bind ((resolves_place _ _ m).mono fun _ h => (Indexes.afterIndex s m).trans h) fun p t =>
          (resolves_readChecked t p).bind fun w u => ih _ u

theorem resolves_target (s : State) (m : AddrSpec) : Resolves s (s.target m) :=
  (resolves_resolveTarget _ m s).bind fun _ t => resolves_ok t _

theorem resolves_locate (s : State) (t : BitVec 18) (acc : Perms) : Resolves s (s.locate t acc) :=
  (resolves_basicPlace s _).bind fun p u => resolves_check u acc p

/-- The fields that resolution leaves alone. -/
theorem Indexes.fields {s t : State} (h : Indexes s t) :
    t.grs = s.grs ∧ t.dr = s.dr ∧ t.par = s.par ∧ t.br = s.br ∧ t.pb = s.pb ∧ t.key = s.key ∧ t.pending = s.pending ∧
      t.running = s.running ∧ t.stopReason = s.stopReason ∧ t.stopDetail = s.stopDetail ∧
      t.stopRequested = s.stopRequested ∧ t.memory = s.memory ∧ t.params = s.params := by
  obtain ⟨l, rfl, -⟩ := h
  simp

/-- Only index cells can read differently after a resolution. -/
theorem Indexes.readGrs {s t : State} (h : Indexes s t) {k : Fin 128} (hk : ∀ n : BitVec 4, n ≠ 0 → k ≠ s.xCell n) :
    t.readGrs k = s.readGrs k := by
  obtain ⟨l, rfl, hl⟩ := h
  simp only [State.readGrs, List.foldl_append]
  generalize s.pw.foldl (overlayGrs k) s.grs[k] = v
  induction l generalizing v with
  | nil => rfl
  | cons w l ih =>
    obtain ⟨n, u, hn, rfl⟩ := hl w (by simp)
    rw [List.foldl_cons, overlayGrs, if_neg (Ne.symm (hk n hn))]
    exact ih (fun w hw => hl w (List.mem_cons_of_mem _ hw)) v

end Sys2Proof.Machine
end

