-- ==== Sys2Proof/Laws/Exec.lean ====
section
/-! SUPPORT. What the Execute part of any instruction can do to the state: it appends pending writes, and its writes of the
DR stay within the bits that `drBits` names. Only test-and-set writes storage at once, and only UR writes PB. -/

namespace Sys2Proof.Machine

/-- A write of the DR stays within the bits `D`. -/
def PendingWrite.within (D : Word) : PendingWrite → Prop
  | .dr mask _ _ => mask &&& ~~~D = 0
  | _ => True

/-- What a part of an instruction leaves of the state it starts from. -/
structure Grows (D : Word) (s t : State) : Prop where
  grs : t.grs = s.grs
  dr : t.dr = s.dr
  par : t.par = s.par
  br : t.br = s.br
  key : t.key = s.key
  pending : t.pending = s.pending
  running : t.running = s.running
  stopReason : t.stopReason = s.stopReason
  stopDetail : t.stopDetail = s.stopDetail
  stopRequested : t.stopRequested = s.stopRequested
  params : t.params = s.params
  memory : s.memory.wf → t.memory.wf
  pb : s.params.admissible → s.pb.legal s.params.absAddrBits = true → t.pb.legal s.params.absAddrBits = true
  writes : ∃ l, t.pw = s.pw ++ l ∧ ∀ w ∈ l, w.within D

theorem Grows.refl (D : Word) (s : State) : Grows D s s where
  grs := rfl
  dr := rfl
  par := rfl
  br := rfl
  key := rfl
  pending := rfl
  running := rfl
  stopReason := rfl
  stopDetail := rfl
  stopRequested := rfl
  params := rfl
  memory := id
  pb _ := id
  writes := ⟨[], by simp, by simp⟩

theorem Grows.trans {D : Word} {s t u : State} (h : Grows D s t) (k : Grows D t u) : Grows D s u where
  grs := k.grs.trans h.grs
  dr := k.dr.trans h.dr
  par := k.par.trans h.par
  br := k.br.trans h.br
  key := k.key.trans h.key
  pending := k.pending.trans h.pending
  running := k.running.trans h.running
  stopReason := k.stopReason.trans h.stopReason
  stopDetail := k.stopDetail.trans h.stopDetail
  stopRequested := k.stopRequested.trans h.stopRequested
  params := k.params.trans h.params
  memory := k.memory ∘ h.memory
  pb a b := by rw [← h.params]; exact k.pb (by rw [h.params]; exact a) (by rw [h.params]; exact h.pb a b)
  writes := by
    obtain ⟨l, hl, hw⟩ := h.writes
    obtain ⟨m, hm, hv⟩ := k.writes
    refine ⟨l ++ m, by rw [hm, hl, List.append_assoc], fun w hx => ?_⟩
    rcases List.mem_append.1 hx with hx | hx
    · exact hw w hx
    · exact hv w hx

theorem Grows.of_indexes {s t : State} (D : Word) (h : Indexes s t) : Grows D s t := by
  obtain ⟨l, rfl, hl⟩ := h
  exact
    { Grows.refl D s with
      writes := ⟨l, rfl, fun w hw => by obtain ⟨n, v, -, rfl⟩ := hl w hw; trivial⟩ }

theorem Grows.pend {D : Word} (s : State) (w : PendingWrite) (h : w.within D) : Grows D s (s.pend w) :=
  { Grows.refl D s with writes := ⟨[w], rfl, by simpa using h⟩ }

theorem Grows.writeGrs (D : Word) (s : State) (n : Fin 128) (v : Word) : Grows D s (s.writeGrs n v) := Grows.pend s _ trivial

theorem Grows.writeAA (D : Word) (s : State) (n : BitVec 4) (d : DWord) : Grows D s (s.writeAA n d) :=
  (Grows.writeGrs D s _ _).trans (Grows.writeGrs D _ _ _)

theorem Grows.writeLoc (D : Word) (s : State) (l : Loc) (v : Word) : Grows D s (s.writeLoc l v) := by
  cases l <;> exact Grows.pend s _ trivial

theorem Grows.storeField (D : Word) (s : State) (l : Loc) (j : BitVec 4) (v : Word) : Grows D s (s.storeField l j v) :=
  Grows.writeLoc D s l _

theorem Grows.writeFlags {n : Nat} (s : State) (x : Sum n) (k : Bool) : Grows (drMask [17, 16]) s (s.writeFlags x k) :=
  Grows.pend s _ (by simp only [PendingWrite.within]; decide)

theorem Grows.writeDivideCheck (s : State) (on k : Bool) : Grows (drMask [13]) s (s.writeDivideCheck on k) :=
  Grows.pend s _ (by simp only [PendingWrite.within]; decide)

theorem Grows.modifyLoc (D : Word) (s : State) (l : Loc) (f : Word → Word) : Grows D s (s.modifyLoc l f) := by
  cases l with
  | grs n => exact Grows.writeGrs D s _ _
  | mem slot rel abs => exact { Grows.refl D s with memory := fun h => Memory.wf_write h abs _ }

/-! ### The shared shapes of instructions -/

/-- An outcome whose states have grown from `s`. -/
abbrev Res.Grown {α : Type} (D : Word) (s : State) (x : Res α) : Prop := x.Holds (Grows D s)

section
variable {α β : Type} {D : Word} {s : State}

theorem Resolves.bindGrown {x : Res α} {f : α → State → Res β} (hx : Resolves s x) (hf : ∀ a t, (f a t).Grown D t) :
    (x.bind f).Grown D s :=
  Res.Holds.bind hx (fun _ h => Grows.of_indexes D h) fun a t h =>
    (hf a t).mono fun _ k => (Grows.of_indexes D h).trans k

theorem Res.Grown.bind {x : Res α} {f : α → State → Res β} (hx : x.Grown D s) (hf : ∀ a t, (f a t).Grown D t) :
    (x.bind f).Grown D s :=
  Res.Holds.bind hx (fun _ h => h) fun a t h => (hf a t).mono fun _ k => h.trans k

end

theorem grown_ok (D : Word) (s : State) (act : Act) : (Res.ok act s).Grown D s := Grows.refl D s

theorem grown_pair (D : Word) (s : State) (a : BitVec 4) : (s.pair a).Grown D s := by
  unfold State.pair; split
  · trivial
  · exact Grows.refl D s

theorem grown_privileged (D : Word) (s : State) : s.privileged.Grown D s := by
  unfold State.privileged; split
  · exact Grows.refl D s
  · trivial

theorem grown_immediateForm (D : Word) (s : State) (why : Refusal) (i : Instr) :
    (s.immediateForm why i : Res Act).Grown D s := by
  unfold State.immediateForm; split
  · exact Grows.refl D s
  · trivial

theorem grown_store (D : Word) (s : State) (i : Instr) (j : BitVec 4) (m : AddrSpec) (v : State → Word) :
    (s.store i j m v).Grown D s := by
  unfold State.store; split
  · exact (resolves_operandLoc s _ m).bindGrown fun l t => Grows.storeField D t l j _
  · exact grown_immediateForm D s _ i

theorem grown_loadWords (D : Word) (s : State) (a : BitVec 4) (m : AddrSpec) (f : Word → Word) :
    (s.loadWords a m f).Grown D s :=
  (resolves_operandLocs s _ m).bindGrown fun _ t => (grown_pair D t a).bind fun _ t =>
    (Grows.writeGrs D t _ _).trans (Grows.writeGrs D _ _ _)

theorem grown_loadPair (D : Word) (s : State) (a : BitVec 4) (m : AddrSpec) (f : Word × Word → Word × Word) :
    (s.loadPair a m f).Grown D s :=
  (resolves_operand2 s m).bindGrown fun _ t => (grown_pair D t a).bind fun _ t =>
    (Grows.writeGrs D t _ _).trans (Grows.writeGrs D _ _ _)

theorem grown_addEnd {n : Nat} (s : State) (x : Sum n) (w : State → BitVec n → State) (act : Act)
    (hw : ∀ s v, Grows (drMask [17, 16]) s (w s v)) : (s.addEnd x w act).Grown (drMask [17, 16]) s := by
  unfold State.addEnd
  repeat' split
  · exact Grows.writeFlags s x true
  · exact (hw s _).trans (Grows.writeFlags _ x false)
  · exact (hw s _).trans (Grows.writeFlags _ x false)

theorem grown_addToA (s : State) (j a : BitVec 4) (m : AddrSpec) (f : Word → Word) :
    (s.addToA j a m f).Grown (drMask [17, 16]) s :=
  (resolves_operand s j m).bindGrown fun _ t => grown_addEnd t _ _ _ fun s _ => Grows.writeGrs _ s _ _

theorem grown_addUpper (s : State) (j a : BitVec 4) (m : AddrSpec) (f : Word → Word) :
    (s.addUpper j a m f).Grown (drMask [17, 16]) s :=
  (resolves_operand s j m).bindGrown fun _ t => (grown_pair _ t a).bind fun _ t =>
    grown_addEnd t _ _ _ fun s _ => Grows.writeGrs _ s _ _

theorem grown_addToX (s : State) (j a : BitVec 4) (m : AddrSpec) (f : Word → Word) :
    (s.addToX j a m f).Grown (drMask [17, 16]) s :=
  (resolves_operand s j m).bindGrown fun _ t => grown_addEnd t _ _ _ fun s _ => Grows.writeGrs _ s _ _

theorem grown_addPair (s : State) (a : BitVec 4) (m : AddrSpec) (f : DWord → DWord) :
    (s.addPair a m f).Grown (drMask [17, 16]) s :=
  (resolves_operand2 s m).bindGrown fun _ t => (grown_pair _ t a).bind fun _ t =>
    grown_addEnd t _ _ _ fun s _ => Grows.writeAA _ s _ _

theorem grown_divideEnd (s : State) (d : Int) (u : Word) (a : BitVec 4) (w : State → Int → Int → State)
    (hw : ∀ s q r, Grows (drMask [13]) s (w s q r)) : (s.divideEnd d u a w).Grown (drMask [13]) s := by
  have hc : ∀ kind, (s.divideCheckEnd kind a).Grown (drMask [13]) s := fun kind => by
    unfold State.divideCheckEnd
    simp only
    split
    · exact Grows.writeDivideCheck s true true
    · exact ((Grows.writeDivideCheck s true true).trans (Grows.writeGrs _ _ _ _)).trans (Grows.writeGrs _ _ _ _)
  unfold State.divideEnd
  repeat' split
  · exact hc _
  · exact hc _
  · exact hw s _ _

theorem grown_increase (D : Word) (s : State) (i : Instr) (j : BitVec 4) (m : AddrSpec) (k : Word) :
    (s.increase i j m k).Grown D s := by
  unfold State.increase; split
  · exact (resolves_operandLoc s _ m).bindGrown fun l t => Grows.storeField D t l j _
  · exact grown_immediateForm D s _ i

theorem grown_increaseFlags (s : State) (i : Instr) (j : BitVec 4) (m : AddrSpec) (k : Word) :
    (s.increaseFlags i j m k).Grown (drMask [17, 16]) s := by
  unfold State.increaseFlags; split
  · exact (resolves_operandLoc s _ m).bindGrown fun l t => grown_addEnd t _ _ _ fun s _ => Grows.storeField _ s l j _
  · exact grown_immediateForm _ s _ i

theorem grown_logical (D : Word) (s : State) (j a : BitVec 4) (m : AddrSpec) (f : State → Word → Word → Word) :
    (s.logical j a m f).Grown D s :=
  (resolves_operand s j m).bindGrown fun _ t => (grown_pair D t a).bind fun _ t => Grows.writeGrs D t _ _

theorem grown_shiftA (D : Word) (s : State) (a : BitVec 4) (m : AddrSpec) (f : Word → Nat → Word) :
    (s.shiftA a m f).Grown D s :=
  (resolves_target s m).bindGrown fun _ t => Grows.writeGrs D t _ _

theorem grown_shiftAA (D : Word) (s : State) (a : BitVec 4) (m : AddrSpec) (f : DWord → Nat → DWord) :
    (s.shiftAA a m f).Grown D s :=
  (resolves_target s m).bindGrown fun _ t => (grown_pair D t a).bind fun _ t => Grows.writeAA D t _ _

theorem grown_test (D : Word) (s : State) (j : BitVec 4) (m : AddrSpec) (c : Word → Bool) : (s.test j m c).Grown D s :=
  (resolves_operand s j m).bindGrown fun _ t => Grows.refl D t

theorem grown_testA (D : Word) (s : State) (j a : BitVec 4) (m : AddrSpec) (c : Int → Int → Bool) :
    (s.testA j a m c).Grown D s :=
  (resolves_operand s j m).bindGrown fun _ t => Grows.refl D t

theorem grown_testRange (D : Word) (s : State) (j a : BitVec 4) (m : AddrSpec) (c : Int → Int → Int → Bool) :
    (s.testRange j a m c).Grown D s :=
  (resolves_operand s j m).bindGrown fun _ t => (grown_pair D t a).bind fun _ t => Grows.refl D t

theorem grown_jumpIf (D : Word) (s : State) (m : AddrSpec) (c : State → Bool) : (s.jumpIf m c).Grown D s :=
  (resolves_target s m).bindGrown fun _ t => Grows.refl D t

theorem grown_jumpDivide (s : State) (m : AddrSpec) (c : State → Bool) : (s.jumpDivide m c).Grown (drMask [13]) s :=
  (resolves_target s m).bindGrown fun _ t => Grows.writeDivideCheck t false false

theorem grown_probed {α : Type} (D : Word) (s : State) (x : Probe α) : (s.probed x).Grown D s := by
  cases x <;> first | exact Grows.refl D s | trivial

/-! ### Reloading PB -/

theorem Probe.bind_eq_ok {α β : Type} {x : Probe α} {f : α → Probe β} {b : β} :
    x.bind f = .ok b ↔ ∃ a, x = .ok a ∧ f a = .ok b := by cases x <;> simp [Probe.bind]

/-- A decoded descriptor comes from the parameter's graph. -/
theorem State.mem_of_decode {s : State} {ws : Vector Word 8} {b : BaseRegister} (h : s.decodeBankDescriptor ws = some b) :
    ∃ e ∈ s.params.descriptors, e.value = b := by
  obtain ⟨e, he, rfl⟩ := Option.map_eq_some_iff.1 h
  exact ⟨e, List.mem_of_find?_eq_some he, rfl⟩

/-- PB is reloaded with a legal bank. -/
theorem State.loadPB_legal {s : State} {par : Word} {b : BaseRegister} (hp : s.params.admissible)
    (h : s.loadPB par = .ok b) : b.legal s.params.absAddrBits = true := by
  unfold State.loadPB at h
  simp only at h
  split at h
  · cases h
  · obtain ⟨ws, -, h⟩ := Probe.bind_eq_ok.1 h
    split at h
    · next hd =>
      cases h
      obtain ⟨e, he, rfl⟩ := mem_of_decode hd
      exact hp.2.2.2.2.2.2 e he
    · cases h

theorem State.bankFor_legal {s : State} {dr par : Word} {b : Option BaseRegister} (hp : s.params.admissible)
    (h : s.bankFor dr par = .ok b) (k : s.pb.legal s.params.absAddrBits = true) :
    (b.getD s.pb).legal s.params.absAddrBits = true := by
  unfold State.bankFor at h
  split at h
  · cases h; exact k
  · obtain ⟨c, hc, h⟩ := Probe.bind_eq_ok.1 h
    cases h
    exact loadPB_legal hp hc

theorem grown_returnFromInterrupt (s : State) : s.returnFromInterrupt.Grown (BitVec.allOnes 36) s := by
  unfold State.returnFromInterrupt
  simp only
  split
  · exact Grows.refl _ s
  · refine (grown_probed _ s _).bind fun abs t => (grown_probed _ t _).bind fun par t =>
      (grown_probed _ t _).bind fun dr t => ?_
    cases hb : t.bankFor dr par with
    | fails r => exact Grows.refl _ t
    | stuck f => trivial
    | ok b =>
      refine Grows.trans (t := { t with pb := b.getD t.pb }) ?_ ((Grows.writeGrs _ _ _ _).trans (Grows.pend _ _ ?_))
      · exact { Grows.refl _ t with pb := fun hp hk => State.bankFor_legal hp hb hk }
      · simp [PendingWrite.within]

/-- Every instruction is some piece whose states have grown from the one at Fetch, and then the end of that piece. -/
theorem exec_eq_finish (i : Instr) (s : State) : ∃ x : Res Act, exec i s = x.finish ∧ x.Grown (drBits i) s.discard := by
  cases i with
  | la j a m | lna j a m | lma j a m | lnma j a m | lr j a m | lx j a m | lxm j a m | lxi j a m =>
    exact ⟨_, rfl, (resolves_operand _ j m).bindGrown fun _ t => Grows.writeGrs _ t _ _⟩
  | sa j a m | sna j a m | sma j a m | sr j a m | sx j a m => exact ⟨_, rfl, grown_store _ _ _ _ _ _⟩
  | sz j m | snz j m | sp1 j m | sn1 j m | sfs j m | sfz j m | sas j m | saz j m =>
    exact ⟨_, rfl, grown_store _ _ _ _ _ _⟩
  | dl a m | dln a m => exact ⟨_, rfl, grown_loadWords _ _ _ _ _⟩
  | dlm a m => exact ⟨_, rfl, grown_loadPair _ _ _ _ _⟩
  | ds a m =>
    exact ⟨_, rfl, (resolves_operandLocs _ _ m).bindGrown fun l t => (grown_pair _ t a).bind fun _ t =>
      (Grows.writeLoc _ t _ _).trans (Grows.writeLoc _ _ _ _)⟩
  | aa j a m | ana j a m | ama j a m | anma j a m => exact ⟨_, rfl, grown_addToA _ _ _ _ _⟩
  | au j a m | anu j a m => exact ⟨_, rfl, grown_addUpper _ _ _ _ _⟩
  | ax j a m | anx j a m => exact ⟨_, rfl, grown_addToX _ _ _ _ _⟩
  | da a m | dan a m => exact ⟨_, rfl, grown_addPair _ _ _ _⟩
  | mi j a m =>
    exact ⟨_, rfl, (resolves_operand _ j m).bindGrown fun _ t => (grown_pair _ t a).bind fun _ t => Grows.writeAA _ t _ _⟩
  | di j a m | df j a m =>
    exact ⟨_, rfl, (resolves_operand _ j m).bindGrown fun _ t => (grown_pair _ t a).bind fun _ t =>
      grown_divideEnd t _ _ _ _ fun s _ _ => (Grows.writeGrs _ s _ _).trans (Grows.writeGrs _ _ _ _)⟩
  | dsf j a m =>
    exact ⟨_, rfl, (resolves_operand _ j m).bindGrown fun _ t => (grown_pair _ t a).bind fun _ t =>
      grown_divideEnd t _ _ _ _ fun s _ _ => Grows.writeGrs _ s _ _⟩
  | inc j m | dec j m | inc2 j m | dec2 j m | enz j m => exact ⟨_, rfl, grown_increase _ _ _ _ _ _⟩
  | add1 j m | sub1 j m => exact ⟨_, rfl, grown_increaseFlags _ _ _ _ _⟩
  | or j a m | xor j a m | and j a m | mlu j a m => exact ⟨_, rfl, grown_logical _ _ _ _ _ _⟩
  | ssc a m | ssl a m | ssa a m | lssc a m | lssl a m => exact ⟨_, rfl, grown_shiftA _ _ _ _ _⟩
  | dsc a m | dsl a m | dsa a m | ldsc a m | ldsl a m => exact ⟨_, rfl, grown_shiftAA _ _ _ _ _⟩
  | te j a m | tne j a m | tle j a m | tg j a m => exact ⟨_, rfl, grown_testA _ _ _ _ _ _⟩
  | tw j a m | tnw j a m => exact ⟨_, rfl, grown_testRange _ _ _ _ _ _⟩
  | tzBasic j m | tnzBasic j m | tpBasic j m | tnBasic j m => exact ⟨_, rfl, grown_test _ _ _ _ _⟩
  | tnop j m | tgz j m | tpz j m | tp j m | tmz j m | tmzg j m | tz j m | tnlz j m => exact ⟨_, rfl, grown_test _ _ _ _ _⟩
  | tlz j m | tnz j m | tpzl j m | tnmz j m | tn j m | tnpz j m | tngz j m | tskp j m =>
    exact ⟨_, rfl, grown_test _ _ _ _ _⟩
  | jz a m | jnz a m | jp a m | jn a m => exact ⟨_, rfl, grown_jumpIf _ _ _ _⟩
  | j m | nop m | jo m | jno m | jc m | jnc m => exact ⟨_, rfl, grown_jumpIf _ _ _ _⟩
  | jdf m | jndf m => exact ⟨_, rfl, grown_jumpDivide _ _ _⟩
  | jmgi a m | lmj a m => exact ⟨_, rfl, (resolves_target _ m).bindGrown fun _ t => Grows.writeGrs _ t _ _⟩
  | jgd j a m =>
    exact ⟨_, rfl, (resolves_target _ m).bindGrown fun _ t => (resolves_grsPlace t _).bindGrown fun _ t =>
      Grows.writeGrs _ t _ _⟩
  | djz a m =>
    exact ⟨_, rfl, (resolves_target _ m).bindGrown fun _ t => (grown_pair _ t a).bind fun _ t => Grows.refl _ t⟩
  | slj m =>
    exact ⟨_, rfl, (resolves_target _ m).bindGrown fun t u => (resolves_locate u t _).bindGrown fun l u =>
      Grows.storeField _ u l _ _⟩
  | ts m =>
    refine ⟨_, rfl, (resolves_operandLoc _ _ m).bindGrown fun l t => ?_⟩
    simp only
    split <;> exact Grows.modifyLoc _ t l _
  | tss m | tcs m => exact ⟨_, rfl, (resolves_operandLoc _ _ m).bindGrown fun l t => Grows.modifyLoc _ t l _⟩
  | halt d => exact ⟨_, rfl, (grown_privileged _ _).bind fun _ t => Grows.refl _ t⟩
  | ld m =>
    refine ⟨_, rfl, (resolves_operandLoc _ _ m).bindGrown fun l t => (grown_privileged _ t).bind fun _ t => ?_⟩
    split
    · trivial
    · exact Grows.pend t _ (by simp [PendingWrite.within, drBits])
  | sd m =>
    exact ⟨_, rfl, (resolves_operandLoc _ _ m).bindGrown fun l t => (grown_privileged _ t).bind fun _ t =>
      Grows.writeLoc _ t l _⟩
  | ur => exact ⟨_, rfl, (grown_privileged _ _).bind fun _ t => grown_returnFromInterrupt t⟩

end Sys2Proof.Machine
end

