-- ==== Sys2Proof/Laws/Interrupt.lean ====
section
/-! SUPPORT. The pending interrupts as a map, what is chosen from them, and everything that an entry can do. -/

namespace Sys2Proof

theorem IntClass.ofNumber_number (c : IntClass) : IntClass.ofNumber c.number = some c := by cases c <;> rfl

/-- Two classes with one number are the same class. -/
theorem IntClass.number_injective {c d : IntClass} (h : c.number = d.number) : c = d :=
  Option.some.inj (by rw [← ofNumber_number c, h, ofNumber_number d])

end Sys2Proof

namespace Sys2Proof.Machine

/-! ### The pending interrupts -/

theorem mem_insertPending {e p : PendingInt} {l : List PendingInt} (h : p ∈ insertPending e l) : p = e ∨ p ∈ l := by
  induction l with
  | nil => simpa [insertPending] using h
  | cons q l ih =>
    simp only [insertPending] at h
    split at h
    · exact .inr h
    · split at h
      · simpa using h
      · rcases List.mem_cons.1 h with rfl | h
        · exact .inr List.mem_cons_self
        · exact (ih h).imp id (List.mem_cons_of_mem _)

/-- Adding an entry keeps one entry a class, by rising class number. -/
theorem pairwise_insertPending (e : PendingInt) {l : List PendingInt}
    (h : l.Pairwise fun p q => p.cls.number < q.cls.number) :
    (insertPending e l).Pairwise fun p q => p.cls.number < q.cls.number := by
  induction l with
  | nil => simp [insertPending]
  | cons p l ih =>
    have h' := List.pairwise_cons.1 h
    simp only [insertPending]
    split
    · exact h
    · next hne =>
      split
      · next hlt =>
        refine List.pairwise_cons.2 ⟨fun q hq => ?_, h⟩
        rcases List.mem_cons.1 hq with rfl | hq
        · exact hlt
        · exact Nat.lt_trans hlt (h'.1 q hq)
      · next hge =>
        have hlt : p.cls.number < e.cls.number :=
          lt_of_le_of_ne (Nat.le_of_not_lt hge) fun he => hne (IntClass.number_injective he.symm)
        refine List.pairwise_cons.2 ⟨fun q hq => ?_, ih h'.2⟩
        rcases mem_insertPending hq with rfl | hq
        · exact hlt
        · exact h'.1 q hq

/-- What is pending after an addition: all that was, and the new entry if its class was not (spec/60_exceptions.md R384). -/
theorem mem_insertPending_iff {e q : PendingInt} {l : List PendingInt}
    (hs : l.Pairwise fun p q => p.cls.number < q.cls.number) :
    q ∈ insertPending e l ↔ q ∈ l ∨ (∀ x ∈ l, x.cls ≠ e.cls) ∧ q = e := by
  induction l with
  | nil => simp [insertPending]
  | cons p ps ih =>
    rw [List.pairwise_cons] at hs
    unfold insertPending
    split
    · next h => exact ⟨.inl, fun h' => h'.elim id fun h' => absurd h.symm (h'.1 p List.mem_cons_self)⟩
    · next h =>
      split
      · next hlt =>
        have hn : ∀ x ∈ p :: ps, x.cls ≠ e.cls := by
          intro x hx he
          rcases List.mem_cons.1 hx with rfl | hx
          · exact h he.symm
          · have := hs.1 x hx
            rw [he] at this
            omega
        rw [List.mem_cons]
        exact ⟨fun h => h.elim (fun h => .inr ⟨hn, h⟩) .inl, fun h => h.elim .inr fun h => .inl h.2⟩
      · simp only [List.mem_cons, ih hs.2, forall_eq_or_imp]
        have h : p.cls ≠ e.cls := Ne.symm h
        tauto

theorem highestPriority_eq_none {l : List PendingInt} : highestPriority l = none ↔ l = [] := by
  cases l with
  | nil => simp [highestPriority]
  | cons p l =>
    simp only [highestPriority]
    split
    · simp
    · split <;> simp

/-- The entry chosen is one of the list, and no other has a lower class number. -/
theorem highestPriority_eq_some {l : List PendingInt} {p : PendingInt} (h : highestPriority l = some p) :
    p ∈ l ∧ ∀ q ∈ l, p.cls.number ≤ q.cls.number := by
  induction l generalizing p with
  | nil => simp [highestPriority] at h
  | cons r l ih =>
    simp only [highestPriority] at h
    split at h
    · next hn =>
      cases h
      rw [highestPriority_eq_none.1 hn]
      simp
    · next q hq =>
      obtain ⟨hm, hle⟩ := ih hq
      split at h
      · next hlt =>
        cases h
        exact ⟨List.mem_cons_of_mem _ hm, by simpa using ⟨Nat.le_of_lt hlt, hle⟩⟩
      · next hge =>
        cases h
        exact ⟨List.mem_cons_self, by
          simpa using fun x hx => Nat.le_trans (Nat.le_of_not_lt hge) (hle x hx)⟩

/-! ### Entry -/

/-- Everything that a passed set of entry checks says. -/
theorem State.entryChecks_eq_ok {s : State} {c : IntClass} {e : Entry} (h : s.entryChecks c = .ok e) :
    c ∉ s.params.stopOnInterrupt ∧ s.readVector c = .ok e.vector ∧
      s.icsPointer.toNat + s.params.icsFrameSize ≤ s.params.icsMaxEntries * s.params.icsFrameSize ∧
      s.checkICS s.icsPointer.toNat s.params.icsFrameSize Perms.write = .ok e.frameAt ∧
      s.bankFor (s.entryDR c) e.vector = .ok e.bank ∧
      e.frameAt + s.params.icsFrameSize ≤ s.params.storageSize := by
  unfold State.entryChecks at h
  split at h
  · cases h
  · next hc =>
    obtain ⟨vec, hv, h⟩ := Probe.bind_eq_ok.1 h
    simp only at h
    split at h
    · cases h
    · next hp =>
      obtain ⟨fr, hf, h⟩ := Probe.bind_eq_ok.1 h
      obtain ⟨b, hb, h⟩ := Probe.bind_eq_ok.1 h
      obtain ⟨fr', hfr, h⟩ := Probe.bind_eq_ok.1 h
      unfold State.probeFrame at hfr
      split at hfr
      · next hs =>
        cases hfr
        cases h
        exact ⟨hc, hv, Nat.le_of_not_lt hp, hf, hb, hs⟩
      · cases hfr

/-- Consecutive words that all lie in storage are read (spec/60_exceptions.md R397). -/
theorem State.probeWords_of_le {s : State} {a n : Nat} (h : a + n ≤ s.params.storageSize) :
    s.probeWords a n = .ok (Vector.ofFn fun k : Fin n => s.memory.read (a + k)) := by
  induction n with
  | zero => exact congrArg Probe.ok (Vector.ext fun i hi => absurd hi (Nat.not_lt_zero i))
  | succ n ih =>
    unfold probeWords
    rw [ih (by omega)]
    simp only [Probe.bind, probeWord]
    rw [if_pos (by omega)]
    refine congrArg Probe.ok (Vector.ext fun i hi => ?_)
    rw [Vector.getElem_push]
    split
    · simp
    · obtain rfl : i = n := by omega
      simp

/-- Where one of them does not, the read is stuck (spec/20_memory.md R76). -/
theorem State.probeWords_of_lt {s : State} {a n : Nat} (h : s.params.storageSize < a + (n + 1)) :
    ∃ b, s.probeWords a (n + 1) = .stuck (.absentStorage b) := by
  induction n with
  | zero =>
    refine ⟨a, ?_⟩
    simp only [probeWords, Probe.bind, probeWord]
    rw [if_neg (by omega)]
    rfl
  | succ n ih =>
    unfold probeWords
    by_cases hk : a + (n + 1) ≤ s.params.storageSize
    · rw [probeWords_of_le hk]
      simp only [Probe.bind, probeWord]
      rw [if_neg (by omega)]
      exact ⟨_, rfl⟩
    · obtain ⟨b, hb⟩ := ih (by omega)
      exact ⟨b, by rw [hb]; rfl⟩

/-- A bank that the host hands over is taken only if it is legal, and then as it is (spec/10_state.md R36, R37). -/
theorem State.acceptBank_eq_next {s t u : State} {b : BaseRegister} (h : s.acceptBank b t = .next u) :
    u = t ∧ b.legal s.params.absAddrBits = true := by
  unfold acceptBank at h
  split at h
  · cases h
  · split at h
    · cases h
    · cases h
      simp_all [BaseRegister.legal]

theorem State.honourStop_cases (s : State) :
    s.honourStop = s ∨
      (s.running = true ∧ s.stopRequested = true ∧
        s.honourStop = { s with stopRequested := false, running := false, stopReason := .externalStop, stopDetail := 0 }) := by
  unfold State.honourStop
  split
  · next h => exact .inr ⟨(Bool.and_eq_true _ _ ▸ h).1, (Bool.and_eq_true _ _ ▸ h).2, rfl⟩
  · exact .inl rfl

/-- Everything that InterruptCheck can do when it answers a next state. -/
theorem State.interruptCheck_cases {s t : State} (h : s.interruptCheck = .next t) :
    (s.dueInterrupt = none ∧ t = s.honourStop) ∨
      ∃ p, s.dueInterrupt = some p ∧
        ((∃ e, (s.removePending p.cls).entryChecks p.cls = .ok e ∧
            t = ((s.removePending p.cls).applyEntry p e).honourStop) ∨
          ∃ r, (s.removePending p.cls).entryChecks p.cls = .fails r ∧
            t = ((s.removePending p.cls).stopEntry p r).honourStop) := by
  unfold State.interruptCheck at h
  split at h
  · next hd => cases h; exact .inl ⟨hd, rfl⟩
  · next p hp =>
    refine .inr ⟨p, hp, ?_⟩
    unfold State.enter at h
    simp only at h
    cases hc : (s.removePending p.cls).entryChecks p.cls with
    | ok e => rw [hc] at h; cases h; exact .inl ⟨e, rfl, rfl⟩
    | fails r => rw [hc] at h; cases h; exact .inr ⟨r, rfl, rfl⟩
    | stuck f => rw [hc] at h; cases h

/-! ### What the parts of a step keep of soundness -/

theorem State.Sound.of_grows {D : Word} {s t : State} (h : s.Sound) (g : Grows D s t) :
    t.memory.wf ∧ t.pendingSorted ∧ t.banksLegal ∧ t.params.admissible :=
  ⟨g.memory h.memory, by unfold State.pendingSorted; rw [g.pending]; exact h.pending,
    ⟨by rw [g.br, g.params]; exact h.banks.1, by rw [g.params]; exact g.pb h.params h.banks.2⟩, by rw [g.params]; exact h.params⟩

theorem foldl_applyMem_wf (l : List PendingWrite) {m : Memory} (h : m.wf) : (l.foldl applyMem m).wf := by
  induction l generalizing m with
  | nil => exact h
  | cons w l ih => cases w <;> first | exact ih h | exact ih (Memory.wf_write h _ _)

/-- Writeback keeps all of soundness, and leaves no pending write. -/
theorem State.sound_commit {s : State}
    (h : s.memory.wf ∧ s.pendingSorted ∧ s.banksLegal ∧ s.params.admissible) : s.commit.Sound := by
  rw [State.commit_eq]
  exact ⟨foldl_applyMem_wf _ h.1, h.2.1, h.2.2.1, rfl, h.2.2.2⟩

theorem State.Sound.discard {s : State} (h : s.Sound) : s.discard.Sound := ⟨h.memory, h.pending, h.banks, rfl, h.params⟩

theorem State.Sound.stopWith {s : State} (h : s.Sound) (r : StopReason) (d : Word) : (s.stopWith r d).Sound :=
  ⟨h.memory, h.pending, h.banks, h.writes, h.params⟩

theorem State.Sound.stopEntry {s : State} (h : s.Sound) (p : PendingInt) (r : StopReason) : (s.stopEntry p r).Sound :=
  ⟨h.memory, h.pending, h.banks, h.writes, h.params⟩

theorem State.Sound.honourStop {s : State} (h : s.Sound) : s.honourStop.Sound := by
  rcases s.honourStop_cases with e | ⟨-, -, e⟩ <;> rw [e]
  · exact h
  · exact ⟨h.memory, h.pending, h.banks, h.writes, h.params⟩

theorem State.Sound.addPending {s : State} (h : s.Sound) (e : PendingInt) : (s.addPending e).Sound :=
  ⟨h.memory, pairwise_insertPending e h.pending, h.banks, h.writes, h.params⟩

theorem State.Sound.removePending {s : State} (h : s.Sound) (c : IntClass) : (s.removePending c).Sound :=
  ⟨h.memory, h.pending.filter _, h.banks, h.writes, h.params⟩

theorem State.Sound.withPar {s : State} (h : s.Sound) (p : Word) : ({ s with par := p } : State).Sound :=
  ⟨h.memory, h.pending, h.banks, h.writes, h.params⟩

theorem State.Sound.applyEntry {s : State} (h : s.Sound) {p : PendingInt} {e : Entry}
    (hc : s.entryChecks p.cls = .ok e) : (s.applyEntry p e).Sound :=
  ⟨Memory.wf_writeList h.memory _ _, h.pending,
    ⟨h.banks.1, bankFor_legal h.params (entryChecks_eq_ok hc).2.2.2.2.1 h.banks.2⟩, h.writes, h.params⟩

end Sys2Proof.Machine
end

