-- ==== Sys2Proof/Laws/PerInstr.lean ====
section
/-! SUPPORT. Per-instruction laws. `DecodeFields`: in every mode that an instruction's row decodes in, the instruction's
fields match that row, with every operand at every value (spec/30_encoding.md R137). -/

namespace Sys2Proof

/-- Every word is made of its fields, and gives them back (spec/30_encoding.md R130). -/
theorem fieldsOf_toWord (k : Fields) : fieldsOf k.toWord = k := by
  obtain ⟨f, j, a, x, h, i, u⟩ := k
  simp only [fieldsOf, specOf, Fields.toWord, Fields.mk.injEq, AddrSpec.mk.injEq]
  refine ⟨?_, ?_, ?_, ?_, ?_, ?_, ?_⟩
  all_goals try (apply BitVec.eq_of_getLsbD_eq; intro n hn)
  all_goals simp only [BitVec.getLsbD_extractLsb', BitVec.getLsbD_append]
  · simp only [hn, decide_true, Bool.true_and]
    rw [if_neg (by omega), if_neg (by omega), if_neg (by omega), if_neg (by omega), if_neg (by omega), if_neg (by omega)]
    congr 1; omega
  · simp only [hn, decide_true, Bool.true_and]
    rw [if_neg (by omega), if_neg (by omega), if_neg (by omega), if_neg (by omega), if_neg (by omega)]
    rw [if_pos (by omega)]
    congr 1; omega
  · simp only [hn, decide_true, Bool.true_and]
    rw [if_neg (by omega), if_neg (by omega), if_neg (by omega), if_neg (by omega)]
    rw [if_pos (by omega)]
    congr 1; omega
  · simp only [hn, decide_true, Bool.true_and]
    rw [if_neg (by omega), if_neg (by omega), if_neg (by omega)]
    rw [if_pos (by omega)]
    congr 1; omega
  · simp
  · simp
  · simp only [hn, decide_true, Bool.true_and]
    rw [if_pos (by omega)]
    congr 1; omega

/-- The literal operand of HALT is kept (spec/45_system.md R365). -/
theorem literalOf_specOfLiteral (d : BitVec 18) : literalOf (specOfLiteral d) = d := by
  apply BitVec.eq_of_getLsbD_eq; intro n hn
  simp only [literalOf, specOfLiteral, BitVec.getLsbD_append, BitVec.getLsbD_extractLsb', BitVec.getLsbD_ofBool]
  by_cases h : n < 16
  · rw [if_pos h]; simp [h]
  · rw [if_neg h]
    have : n = 16 ∨ n = 17 := by omega
    rcases this with rfl | rfl <;> simp

namespace Laws

/-- The instruction's fields select the instruction in each mode that its row decodes in. -/
def DecodeFields.Statement (i : Instr) : Prop := ∀ m, i.availableIn m = true → rowOf m i.fields = some i

theorem DecodeFields.la : ∀ x0 x1 x2, DecodeFields.Statement (.la x0 x1 x2) := fun x0 x1 x2 m _ => by cases m <;> rfl
theorem DecodeFields.lna : ∀ x0 x1 x2, DecodeFields.Statement (.lna x0 x1 x2) := fun x0 x1 x2 m _ => by cases m <;> rfl
theorem DecodeFields.lma : ∀ x0 x1 x2, DecodeFields.Statement (.lma x0 x1 x2) := fun x0 x1 x2 m _ => by cases m <;> rfl
theorem DecodeFields.lnma : ∀ x0 x1 x2, DecodeFields.Statement (.lnma x0 x1 x2) := fun x0 x1 x2 m _ => by cases m <;> rfl
theorem DecodeFields.lr : ∀ x0 x1 x2, DecodeFields.Statement (.lr x0 x1 x2) := fun x0 x1 x2 m _ => by cases m <;> rfl
theorem DecodeFields.lx : ∀ x0 x1 x2, DecodeFields.Statement (.lx x0 x1 x2) := fun x0 x1 x2 m _ => by cases m <;> rfl
theorem DecodeFields.lxm : ∀ x0 x1 x2, DecodeFields.Statement (.lxm x0 x1 x2) := fun x0 x1 x2 m _ => by cases m <;> rfl
theorem DecodeFields.lxi : ∀ x0 x1 x2, DecodeFields.Statement (.lxi x0 x1 x2) := fun x0 x1 x2 m _ => by cases m <;> rfl
theorem DecodeFields.sa : ∀ x0 x1 x2, DecodeFields.Statement (.sa x0 x1 x2) := fun x0 x1 x2 m _ => by cases m <;> rfl
theorem DecodeFields.sna : ∀ x0 x1 x2, DecodeFields.Statement (.sna x0 x1 x2) := fun x0 x1 x2 m _ => by cases m <;> rfl
theorem DecodeFields.sma : ∀ x0 x1 x2, DecodeFields.Statement (.sma x0 x1 x2) := fun x0 x1 x2 m _ => by cases m <;> rfl
theorem DecodeFields.sr : ∀ x0 x1 x2, DecodeFields.Statement (.sr x0 x1 x2) := fun x0 x1 x2 m _ => by cases m <;> rfl
theorem DecodeFields.sx : ∀ x0 x1 x2, DecodeFields.Statement (.sx x0 x1 x2) := fun x0 x1 x2 m _ => by cases m <;> rfl
theorem DecodeFields.ds : ∀ x0 x1, DecodeFields.Statement (.ds x0 x1) := fun x0 x1 m _ => by cases m <;> rfl
theorem DecodeFields.dl : ∀ x0 x1, DecodeFields.Statement (.dl x0 x1) := fun x0 x1 m _ => by cases m <;> rfl
theorem DecodeFields.dln : ∀ x0 x1, DecodeFields.Statement (.dln x0 x1) := fun x0 x1 m _ => by cases m <;> rfl
theorem DecodeFields.dlm : ∀ x0 x1, DecodeFields.Statement (.dlm x0 x1) := fun x0 x1 m _ => by cases m <;> rfl
theorem DecodeFields.sz : ∀ x0 x1, DecodeFields.Statement (.sz x0 x1) := fun x0 x1 m _ => by cases m <;> rfl
theorem DecodeFields.snz : ∀ x0 x1, DecodeFields.Statement (.snz x0 x1) := fun x0 x1 m _ => by cases m <;> rfl
theorem DecodeFields.sp1 : ∀ x0 x1, DecodeFields.Statement (.sp1 x0 x1) := fun x0 x1 m _ => by cases m <;> rfl
theorem DecodeFields.sn1 : ∀ x0 x1, DecodeFields.Statement (.sn1 x0 x1) := fun x0 x1 m _ => by cases m <;> rfl
theorem DecodeFields.sfs : ∀ x0 x1, DecodeFields.Statement (.sfs x0 x1) := fun x0 x1 m _ => by cases m <;> rfl
theorem DecodeFields.sfz : ∀ x0 x1, DecodeFields.Statement (.sfz x0 x1) := fun x0 x1 m _ => by cases m <;> rfl
theorem DecodeFields.sas : ∀ x0 x1, DecodeFields.Statement (.sas x0 x1) := fun x0 x1 m _ => by cases m <;> rfl
theorem DecodeFields.saz : ∀ x0 x1, DecodeFields.Statement (.saz x0 x1) := fun x0 x1 m _ => by cases m <;> rfl
theorem DecodeFields.aa : ∀ x0 x1 x2, DecodeFields.Statement (.aa x0 x1 x2) := fun x0 x1 x2 m _ => by cases m <;> rfl
theorem DecodeFields.ana : ∀ x0 x1 x2, DecodeFields.Statement (.ana x0 x1 x2) := fun x0 x1 x2 m _ => by cases m <;> rfl
theorem DecodeFields.ama : ∀ x0 x1 x2, DecodeFields.Statement (.ama x0 x1 x2) := fun x0 x1 x2 m _ => by cases m <;> rfl
theorem DecodeFields.anma : ∀ x0 x1 x2, DecodeFields.Statement (.anma x0 x1 x2) := fun x0 x1 x2 m _ => by cases m <;> rfl
theorem DecodeFields.au : ∀ x0 x1 x2, DecodeFields.Statement (.au x0 x1 x2) := fun x0 x1 x2 m _ => by cases m <;> rfl
theorem DecodeFields.anu : ∀ x0 x1 x2, DecodeFields.Statement (.anu x0 x1 x2) := fun x0 x1 x2 m _ => by cases m <;> rfl
theorem DecodeFields.ax : ∀ x0 x1 x2, DecodeFields.Statement (.ax x0 x1 x2) := fun x0 x1 x2 m _ => by cases m <;> rfl
theorem DecodeFields.anx : ∀ x0 x1 x2, DecodeFields.Statement (.anx x0 x1 x2) := fun x0 x1 x2 m _ => by cases m <;> rfl
theorem DecodeFields.mi : ∀ x0 x1 x2, DecodeFields.Statement (.mi x0 x1 x2) := fun x0 x1 x2 m _ => by cases m <;> rfl
theorem DecodeFields.di : ∀ x0 x1 x2, DecodeFields.Statement (.di x0 x1 x2) := fun x0 x1 x2 m _ => by cases m <;> rfl
theorem DecodeFields.dsf : ∀ x0 x1 x2, DecodeFields.Statement (.dsf x0 x1 x2) := fun x0 x1 x2 m _ => by cases m <;> rfl
theorem DecodeFields.df : ∀ x0 x1 x2, DecodeFields.Statement (.df x0 x1 x2) := fun x0 x1 x2 m _ => by cases m <;> rfl
theorem DecodeFields.da : ∀ x0 x1, DecodeFields.Statement (.da x0 x1) := fun x0 x1 m _ => by cases m <;> rfl
theorem DecodeFields.dan : ∀ x0 x1, DecodeFields.Statement (.dan x0 x1) := fun x0 x1 m _ => by cases m <;> rfl
theorem DecodeFields.inc : ∀ x0 x1, DecodeFields.Statement (.inc x0 x1) := fun x0 x1 m _ => by cases m <;> rfl
theorem DecodeFields.dec : ∀ x0 x1, DecodeFields.Statement (.dec x0 x1) := fun x0 x1 m _ => by cases m <;> rfl
theorem DecodeFields.inc2 : ∀ x0 x1, DecodeFields.Statement (.inc2 x0 x1) := fun x0 x1 m _ => by cases m <;> rfl
theorem DecodeFields.dec2 : ∀ x0 x1, DecodeFields.Statement (.dec2 x0 x1) := fun x0 x1 m _ => by cases m <;> rfl
theorem DecodeFields.enz : ∀ x0 x1, DecodeFields.Statement (.enz x0 x1) := fun x0 x1 m _ => by cases m <;> rfl
theorem DecodeFields.add1 : ∀ x0 x1, DecodeFields.Statement (.add1 x0 x1) := fun x0 x1 m _ => by cases m <;> rfl
theorem DecodeFields.sub1 : ∀ x0 x1, DecodeFields.Statement (.sub1 x0 x1) := fun x0 x1 m _ => by cases m <;> rfl
theorem DecodeFields.or : ∀ x0 x1 x2, DecodeFields.Statement (.or x0 x1 x2) := fun x0 x1 x2 m _ => by cases m <;> rfl
theorem DecodeFields.xor : ∀ x0 x1 x2, DecodeFields.Statement (.xor x0 x1 x2) := fun x0 x1 x2 m _ => by cases m <;> rfl
theorem DecodeFields.and : ∀ x0 x1 x2, DecodeFields.Statement (.and x0 x1 x2) := fun x0 x1 x2 m _ => by cases m <;> rfl
theorem DecodeFields.mlu : ∀ x0 x1 x2, DecodeFields.Statement (.mlu x0 x1 x2) := fun x0 x1 x2 m _ => by cases m <;> rfl
theorem DecodeFields.ssc : ∀ x0 x1, DecodeFields.Statement (.ssc x0 x1) := fun x0 x1 m _ => by cases m <;> rfl
theorem DecodeFields.dsc : ∀ x0 x1, DecodeFields.Statement (.dsc x0 x1) := fun x0 x1 m _ => by cases m <;> rfl
theorem DecodeFields.ssl : ∀ x0 x1, DecodeFields.Statement (.ssl x0 x1) := fun x0 x1 m _ => by cases m <;> rfl
theorem DecodeFields.dsl : ∀ x0 x1, DecodeFields.Statement (.dsl x0 x1) := fun x0 x1 m _ => by cases m <;> rfl
theorem DecodeFields.ssa : ∀ x0 x1, DecodeFields.Statement (.ssa x0 x1) := fun x0 x1 m _ => by cases m <;> rfl
theorem DecodeFields.dsa : ∀ x0 x1, DecodeFields.Statement (.dsa x0 x1) := fun x0 x1 m _ => by cases m <;> rfl
theorem DecodeFields.lssc : ∀ x0 x1, DecodeFields.Statement (.lssc x0 x1) := fun x0 x1 m _ => by cases m <;> rfl
theorem DecodeFields.ldsc : ∀ x0 x1, DecodeFields.Statement (.ldsc x0 x1) := fun x0 x1 m _ => by cases m <;> rfl
theorem DecodeFields.lssl : ∀ x0 x1, DecodeFields.Statement (.lssl x0 x1) := fun x0 x1 m _ => by cases m <;> rfl
theorem DecodeFields.ldsl : ∀ x0 x1, DecodeFields.Statement (.ldsl x0 x1) := fun x0 x1 m _ => by cases m <;> rfl
theorem DecodeFields.te : ∀ x0 x1 x2, DecodeFields.Statement (.te x0 x1 x2) := fun x0 x1 x2 m _ => by cases m <;> rfl
theorem DecodeFields.tne : ∀ x0 x1 x2, DecodeFields.Statement (.tne x0 x1 x2) := fun x0 x1 x2 m _ => by cases m <;> rfl
theorem DecodeFields.tle : ∀ x0 x1 x2, DecodeFields.Statement (.tle x0 x1 x2) := fun x0 x1 x2 m _ => by cases m <;> rfl
theorem DecodeFields.tg : ∀ x0 x1 x2, DecodeFields.Statement (.tg x0 x1 x2) := fun x0 x1 x2 m _ => by cases m <;> rfl
theorem DecodeFields.tw : ∀ x0 x1 x2, DecodeFields.Statement (.tw x0 x1 x2) := fun x0 x1 x2 m _ => by cases m <;> rfl
theorem DecodeFields.tnw : ∀ x0 x1 x2, DecodeFields.Statement (.tnw x0 x1 x2) := fun x0 x1 x2 m _ => by cases m <;> rfl
theorem DecodeFields.tzBasic : ∀ x0 x1, DecodeFields.Statement (.tzBasic x0 x1) := fun x0 x1 m h => by cases m <;> first | rfl | cases h
theorem DecodeFields.tnzBasic : ∀ x0 x1, DecodeFields.Statement (.tnzBasic x0 x1) := fun x0 x1 m h => by cases m <;> first | rfl | cases h
theorem DecodeFields.tpBasic : ∀ x0 x1, DecodeFields.Statement (.tpBasic x0 x1) := fun x0 x1 m h => by cases m <;> first | rfl | cases h
theorem DecodeFields.tnBasic : ∀ x0 x1, DecodeFields.Statement (.tnBasic x0 x1) := fun x0 x1 m h => by cases m <;> first | rfl | cases h
theorem DecodeFields.tnop : ∀ x0 x1, DecodeFields.Statement (.tnop x0 x1) := fun x0 x1 m h => by cases m <;> first | rfl | cases h
theorem DecodeFields.tgz : ∀ x0 x1, DecodeFields.Statement (.tgz x0 x1) := fun x0 x1 m h => by cases m <;> first | rfl | cases h
theorem DecodeFields.tpz : ∀ x0 x1, DecodeFields.Statement (.tpz x0 x1) := fun x0 x1 m h => by cases m <;> first | rfl | cases h
theorem DecodeFields.tp : ∀ x0 x1, DecodeFields.Statement (.tp x0 x1) := fun x0 x1 m h => by cases m <;> first | rfl | cases h
theorem DecodeFields.tmz : ∀ x0 x1, DecodeFields.Statement (.tmz x0 x1) := fun x0 x1 m h => by cases m <;> first | rfl | cases h
theorem DecodeFields.tmzg : ∀ x0 x1, DecodeFields.Statement (.tmzg x0 x1) := fun x0 x1 m h => by cases m <;> first | rfl | cases h
theorem DecodeFields.tz : ∀ x0 x1, DecodeFields.Statement (.tz x0 x1) := fun x0 x1 m h => by cases m <;> first | rfl | cases h
theorem DecodeFields.tnlz : ∀ x0 x1, DecodeFields.Statement (.tnlz x0 x1) := fun x0 x1 m h => by cases m <;> first | rfl | cases h
theorem DecodeFields.tlz : ∀ x0 x1, DecodeFields.Statement (.tlz x0 x1) := fun x0 x1 m h => by cases m <;> first | rfl | cases h
theorem DecodeFields.tnz : ∀ x0 x1, DecodeFields.Statement (.tnz x0 x1) := fun x0 x1 m h => by cases m <;> first | rfl | cases h
theorem DecodeFields.tpzl : ∀ x0 x1, DecodeFields.Statement (.tpzl x0 x1) := fun x0 x1 m h => by cases m <;> first | rfl | cases h
theorem DecodeFields.tnmz : ∀ x0 x1, DecodeFields.Statement (.tnmz x0 x1) := fun x0 x1 m h => by cases m <;> first | rfl | cases h
theorem DecodeFields.tn : ∀ x0 x1, DecodeFields.Statement (.tn x0 x1) := fun x0 x1 m h => by cases m <;> first | rfl | cases h
theorem DecodeFields.tnpz : ∀ x0 x1, DecodeFields.Statement (.tnpz x0 x1) := fun x0 x1 m h => by cases m <;> first | rfl | cases h
theorem DecodeFields.tngz : ∀ x0 x1, DecodeFields.Statement (.tngz x0 x1) := fun x0 x1 m h => by cases m <;> first | rfl | cases h
theorem DecodeFields.tskp : ∀ x0 x1, DecodeFields.Statement (.tskp x0 x1) := fun x0 x1 m h => by cases m <;> first | rfl | cases h
theorem DecodeFields.jz : ∀ x0 x1, DecodeFields.Statement (.jz x0 x1) := fun x0 x1 m _ => by cases m <;> rfl
theorem DecodeFields.jnz : ∀ x0 x1, DecodeFields.Statement (.jnz x0 x1) := fun x0 x1 m _ => by cases m <;> rfl
theorem DecodeFields.jp : ∀ x0 x1, DecodeFields.Statement (.jp x0 x1) := fun x0 x1 m _ => by cases m <;> rfl
theorem DecodeFields.jn : ∀ x0 x1, DecodeFields.Statement (.jn x0 x1) := fun x0 x1 m _ => by cases m <;> rfl
theorem DecodeFields.j : ∀ x0, DecodeFields.Statement (.j x0) := fun x0 m h => by cases m <;> first | rfl | cases h
theorem DecodeFields.nop : ∀ x0, DecodeFields.Statement (.nop x0) := fun x0 m h => by cases m <;> first | rfl | cases h
theorem DecodeFields.jmgi : ∀ x0 x1, DecodeFields.Statement (.jmgi x0 x1) := fun x0 x1 m _ => by cases m <;> rfl
theorem DecodeFields.lmj : ∀ x0 x1, DecodeFields.Statement (.lmj x0 x1) := fun x0 x1 m _ => by cases m <;> rfl
theorem DecodeFields.jo : ∀ x0, DecodeFields.Statement (.jo x0) := fun x0 m _ => by cases m <;> rfl
theorem DecodeFields.jdf : ∀ x0, DecodeFields.Statement (.jdf x0) := fun x0 m _ => by cases m <;> rfl
theorem DecodeFields.jno : ∀ x0, DecodeFields.Statement (.jno x0) := fun x0 m _ => by cases m <;> rfl
theorem DecodeFields.jndf : ∀ x0, DecodeFields.Statement (.jndf x0) := fun x0 m _ => by cases m <;> rfl
theorem DecodeFields.jc : ∀ x0, DecodeFields.Statement (.jc x0) := fun x0 m h => by cases m <;> first | rfl | cases h
theorem DecodeFields.jnc : ∀ x0, DecodeFields.Statement (.jnc x0) := fun x0 m h => by cases m <;> first | rfl | cases h
theorem DecodeFields.jgd : ∀ x0 x1 x2, DecodeFields.Statement (.jgd x0 x1 x2) := fun x0 x1 x2 m _ => by cases m <;> rfl
theorem DecodeFields.djz : ∀ x0 x1, DecodeFields.Statement (.djz x0 x1) := fun x0 x1 m _ => by cases m <;> rfl
theorem DecodeFields.slj : ∀ x0, DecodeFields.Statement (.slj x0) := fun x0 m h => by cases m <;> first | rfl | cases h
theorem DecodeFields.ts : ∀ x0, DecodeFields.Statement (.ts x0) := fun x0 m _ => by cases m <;> rfl
theorem DecodeFields.tss : ∀ x0, DecodeFields.Statement (.tss x0) := fun x0 m _ => by cases m <;> rfl
theorem DecodeFields.tcs : ∀ x0, DecodeFields.Statement (.tcs x0) := fun x0 m _ => by cases m <;> rfl
theorem DecodeFields.halt : ∀ x0, DecodeFields.Statement (.halt x0) := fun d m _ => by
  simp [Instr.fields, rowOf, decode073, literalOf_specOfLiteral]
theorem DecodeFields.ld : ∀ x0, DecodeFields.Statement (.ld x0) := fun x0 m _ => by cases m <;> rfl
theorem DecodeFields.sd : ∀ x0, DecodeFields.Statement (.sd x0) := fun x0 m _ => by cases m <;> rfl
theorem DecodeFields.ur : DecodeFields.Statement (.ur) := fun m _ => by cases m <;> rfl

end Laws

end Sys2Proof
end

