-- ==== Sys2Proof/Laws/Results.lean ====
section
/-! SUPPORT. How the states after Writeback read: cells, storage and the DR after the pending writes of an instruction. -/

namespace Sys2Proof.Machine

/-- A resolution from the state at Fetch leaves no surviving write, so dropping its writes gives that state back. -/
theorem Indexes.keepSurvivors_commit {s r : State} (h : Indexes s.discard r) : r.keepSurvivors.commit = s.discard := by
  obtain ⟨l, rfl, hl⟩ := h
  rw [State.keepSurvivors_commit]
  · rfl
  · intro w hw
    obtain ⟨n, v, -, rfl⟩ := hl w (by simpa using hw)
    rfl

/-- Storage after the writes of a resolution. -/
theorem Indexes.foldl_applyMem {s r : State} (h : Indexes s.discard r) (m : Memory) : r.pw.foldl applyMem m = m := by
  obtain ⟨l, rfl, hl⟩ := h
  simp only [State.discard_pw, List.nil_append]
  induction l with
  | nil => rfl
  | cons w l ih =>
    obtain ⟨n, v, -, rfl⟩ := hl w (by simp)
    exact ih fun w hw => hl w (List.mem_cons_of_mem _ hw)

/-- The DR after the writes of a resolution. -/
theorem Indexes.foldl_applyDr {s r : State} (h : Indexes s.discard r) (d : Word) : r.pw.foldl applyDr d = d := by
  obtain ⟨l, rfl, hl⟩ := h
  simp only [State.discard_pw, List.nil_append]
  induction l with
  | nil => rfl
  | cons w l ih =>
    obtain ⟨n, v, -, rfl⟩ := hl w (by simp)
    exact ih fun w hw => hl w (List.mem_cons_of_mem _ hw)

/-- A GRS cell after Writeback. -/
theorem State.writeback_grs_getElem (s : State) (act : Act) (n : Fin 128) : (s.writeback act).grs[n] = s.readGrs n :=
  s.commit_grs_getElem n

@[simp] theorem State.readGrs_writeFlags {n : Nat} (s : State) (x : Sum n) (k : Bool) (c : Fin 128) :
    (s.writeFlags x k).readGrs c = s.readGrs c := State.readGrs_pend_dr s c _ _ _

@[simp] theorem State.readGrs_writeDivideCheck (s : State) (on k : Bool) (c : Fin 128) :
    (s.writeDivideCheck on k).readGrs c = s.readGrs c := State.readGrs_pend_dr s c _ _ _

/-- The derived views of a resolved state. -/
theorem Indexes.views {s r : State} (h : Indexes s.discard r) :
    (∀ k, r.aCell k = s.aCell k) ∧ (∀ k, r.xCell k = s.xCell k) ∧ (∀ k, r.rCell k = s.rCell k) ∧ r.pp = s.pp ∧
      r.basicMode = s.basicMode ∧ r.ix24 = s.ix24 ∧ r.quarterWord = s.quarterWord ∧
      r.arithExceptionEnabled = s.arithExceptionEnabled := by
  obtain ⟨l, rfl, -⟩ := h
  exact ⟨fun _ => rfl, fun _ => rfl, fun _ => rfl, rfl, rfl, rfl, rfl, rfl⟩

/-- What a location reads as after a pending write of a cell: the write is seen at the cell itself, and nowhere else
(spec/10_state.md R26; spec/20_memory.md R117). -/
theorem State.readLoc_writeGrs (s : State) (l : Loc) (n : Fin 128) (v : Word) :
    (s.writeGrs n v).readLoc l = if l = .grs n then v else s.readLoc l := by
  cases l with
  | mem => rfl
  | grs k =>
    by_cases h : k = n
    · simp [State.readLoc, h]
    · simp [State.readLoc, h]

/-- What a cell reads as after a pending write of a location (spec/10_state.md R26; spec/20_memory.md R117). -/
theorem State.readGrs_writeLoc (s : State) (l : Loc) (n : Fin 128) (v : Word) :
    (s.writeLoc l v).readGrs n = if l = .grs n then v else s.readGrs n := by
  cases l with
  | mem => simp [State.writeLoc, State.readGrs, List.foldl_append, overlayGrs]
  | grs k =>
    by_cases h : n = k
    · simp [State.writeLoc, h]
    · simp [State.writeLoc, h, eq_comm]

end Sys2Proof.Machine
end

