-- ==== Sys2Proof/Laws/Step.lean ====
section
/-! SUPPORT. What Fetch and a whole step can come to. -/

namespace Sys2Proof.Machine

/-- Fetch changes no state. -/
theorem State.fetch_holds (s : State) : s.fetch.Holds (· = s) := by
  unfold State.fetch
  refine Res.Holds.bind (P := (· = s)) ?_ (fun _ h => h) fun b t ht => ?_
  · unfold State.fetchBank
    repeat' split
    all_goals rfl
  · subst ht
    simp only [State.fetchFrom]
    repeat' split
    all_goals first | rfl | trivial

/-- Fetch is never a fatal stop and never a refusal. -/
theorem State.fetch_ne (s : State) : (∀ e d r, s.fetch ≠ .fatal e d r) ∧ ∀ w, s.fetch ≠ .refused w := by
  unfold State.fetch State.fetchBank State.fetchFrom
  constructor
  · intro e d r h
    repeat' split at h
    all_goals simp only [Res.bind_ok, Res.bind_raised] at h
    all_goals repeat' split at h
    all_goals cases h
  · intro w h
    repeat' split at h
    all_goals simp only [Res.bind_ok, Res.bind_raised] at h
    all_goals repeat' split at h
    all_goals cases h

/-- Everything that a step can do when it answers a next state: stay stopped, take the interrupt of a failed Fetch or of an
unlisted word on the state at Fetch, or run the decoded instruction. -/
theorem step_cases {s t : State} (h : step s = .next t) :
    (s.running = false ∧ t = s) ∨ (∃ c d, step s = s.discard.takeSync c d) ∨
      ∃ w r i, s.discard.fetch = .ok w r ∧ decode s.mode w = .ok i ∧ step s = exec i s := by
  rw [h]
  unfold step at h
  split at h
  · have hf := s.discard.fetch_holds
    have hn := s.discard.fetch_ne
    cases hF : s.discard.fetch with
    | ok w r =>
      rw [hF] at h
      simp only [Res.finishWith] at h
      split at h
      · next i hi => exact .inr (.inr ⟨w, r, i, rfl, hi, h.symm⟩)
      · unfold State.rejectEncoding at h
        split at h
        · cases h
        · exact .inr (.inl ⟨_, _, h.symm⟩)
    | raised c d r =>
      rw [hF] at h hf
      cases hf
      simp only [Res.finishWith, State.keepSurvivors_commit s.discard (by simp)] at h
      exact .inr (.inl ⟨c, d, h.symm⟩)
    | fatal e d r => exact absurd hF (hn.1 e d r)
    | refused w => exact absurd hF (hn.2 w)
    | stuck w => rw [hF] at h; cases h
  · next hr => cases h; exact .inl ⟨by simpa using hr, rfl⟩

/-- The frame that an entry pushes, for a frame size that the parameters admit (spec/60_exceptions.md R399). -/
theorem frameWords_eq {n : Nat} (h : 4 ≤ n) (sp dr : Word) (c : IntClass) (d : Word) :
    frameWords n sp dr c d = [sp, dr, c.word, d] ++ List.replicate (n - 4) 0 := by
  unfold frameWords; exact List.take_of_length_le (by simp; omega)

/-- It has the frame size. -/
theorem length_frameWords {n : Nat} (h : 4 ≤ n) (sp dr : Word) (c : IntClass) (d : Word) :
    (frameWords n sp dr c d).length = n := by rw [frameWords_eq h]; simp; omega

/-- A passed set of entry checks leaves room for the pointer of the next frame in 18 bits. -/
theorem State.entryChecks_pointer_lt {s : State} {c : IntClass} {e : Entry} (hs : s.Sound) (h : s.entryChecks c = .ok e) :
    s.icsPointer.toNat + s.params.icsFrameSize < 2 ^ 18 := by
  have h1 := (entryChecks_eq_ok h).2.2.1
  have h2 := hs.params.2.2.2.2.2.1
  omega

end Sys2Proof.Machine
end

