-- ==== Sys2Proof/Tests/Slice0.lean ====
section
/-! SUPPORT. Tests: an ill-formed term for each check of WellFormed, the decoding of words written out from the encoding
tables of spec/30_encoding.md and spec/opcode_table.json, one small step for every instruction with the values of
spec/95_test_vectors.md, and for every statement that has hypotheses a state that meets them. -/

namespace Sys2Proof.Tests

open Sys2Proof Sys2Proof.Machine

/-! ### Fixtures (spec/95_test_vectors.md section 0) -/

def rights : Perms := Perms.mk true true true

/-- A bank that grants everything. -/
def bank (base lo hi : Nat) : BaseRegister := BaseRegister.mk false base lo hi (AccessKey.mk 0 0) rights rights 0

def voidBank : BaseRegister := { zeroBank with isVoid := true }

def fixtureParams : Params :=
  { resetParams with
    storageSize := 0o100000
    maxIndirect := 4
    icsSlot := 15
    icsPointer := 111
    icsFrameSize := 8
    icsMaxEntries := 4
    basicBanks := [BankRange.mk none none 0o1000 0o1777 .b12, BankRange.mk none none 0o2000 0o7777 .b13] }

/-- Fixture FB with an instruction word at 01000. -/
def basic (w : Word) : State :=
  { State.reset with
    dr := 0o2000000
    running := true
    par := 0o1000
    br := ((Vector.replicate 16 voidBank).set 12 (bank 0 0o1000 0o1777)).set 13 (bank 0 0o2000 0o7777)
    params := fixtureParams
    memory := State.reset.memory.write 0o1000 w }

/-- Fixture FE with an instruction word at 01000. -/
def extended (w : Word) : State :=
  { State.reset with
    running := true
    par := 0o1000
    br := ((Vector.replicate 16 voidBank).set 1 (bank 0o10000 0 0o7777)).set 2 (bank 0o20000 0 0o777)
    pb := bank 0 0o1000 0o1777
    params := fixtureParams
    memory := State.reset.memory.write 0o1000 w }

def word (a : Nat) (v : Word) (s : State) : State := { s with memory := s.memory.write a v }
def cell (n : Fin 128) (v : Word) (s : State) : State := { s with grs := s.grs.set n v }
def dr (v : Word) (s : State) : State := { s with dr := v }
def inSlot (k : Fin 16) (b : BaseRegister) (s : State) : State := { s with br := s.br.set k b }

/-- An interrupt environment: a vector table of the handler address 01500 in B0, an ICS in B15, and the handler in the bank
of the descriptor whose words are zero. -/
def handled (s : State) : State :=
  { s with
    br := (s.br.set 0 (bank 0o70000 0 0o37)).set 15 (bank 0o60000 0 0o37)
    memory := (s.memory.write 0o70015 0o1500).write 0o70020 0o1500
    params := { s.params with descriptors := [DescriptorEntry.mk (Vector.replicate 8 0) (bank 0 0o1000 0o1777)] } }

/-- A step answers a next state of which `f` holds. -/
def steps (s : State) (f : State → Bool) : Bool :=
  match step s with
  | .next t => f t
  | _ => false

/-- A plain specifier. -/
def at18 (u : BitVec 16) : AddrSpec := AddrSpec.mk 0 false false u

/-! ### Well-formedness -/

theorem test_wellFormed_accepts :
    (Instr.la 0 3 (at18 0o2000)).wellFormed .basic = true ∧ (Instr.jgd 9 1 (at18 5)).wellFormed .extended = true ∧
      (Instr.tskp 0 (at18 5)).wellFormed .extended = true ∧ (Instr.aa 15 15 (at18 5)).wellFormed .basic = true := by decide

theorem test_wellFormed_refuses_other_mode :
    (Instr.j (at18 5)).wellFormed .extended = false ∧ (Instr.tzBasic 0 (at18 5)).wellFormed .extended = false ∧
      (Instr.tskp 0 (at18 5)).wellFormed .basic = false := by decide

theorem test_wellFormed_refuses_pair_at_a15 :
    (Instr.dl 15 (at18 5)).wellFormed .basic = false ∧ (Instr.mi 0 15 (at18 5)).wellFormed .basic = false ∧
      (Instr.dsc 15 (at18 5)).wellFormed .extended = false := by decide

theorem test_wellFormed_refuses_immediate_store :
    (Instr.sa 14 0 (at18 5)).wellFormed .basic = false ∧ (Instr.sz 15 (at18 5)).wellFormed .basic = false ∧
      (Instr.inc 15 (at18 5)).wellFormed .extended = false := by decide

/-! ### Decoding of words written out from the encodings -/

theorem test_decode_loads :
    decode .basic 0o101521001234 = .ok (.la 3 5 (AddrSpec.mk 1 false false 0o1234)) ∧
    decode .extended 0o112202402244 = .ok (.lna 4 8 (AddrSpec.mk 2 true false 0o2244)) ∧
    decode .basic 0o122663203254 = .ok (.lma 5 11 (AddrSpec.mk 3 false true 0o3254)) ∧
    decode .extended 0o133344604264 = .ok (.lnma 6 14 (AddrSpec.mk 4 true true 0o4264)) ∧
    decode .basic 0o233445005274 = .ok (.lr 7 2 (AddrSpec.mk 5 false false 0o5274)) ∧
    decode .extended 0o274126406304 = .ok (.lx 8 5 (AddrSpec.mk 6 true false 0o6304)) ∧
    decode .basic 0o264607207314 = .ok (.lxm 9 8 (AddrSpec.mk 7 false true 0o7314)) ∧
    decode .extended 0o465270610324 = .ok (.lxi 10 11 (AddrSpec.mk 8 true true 0o10324)) := by decide

theorem test_decode_stores :
    decode .basic 0o015751011334 = .ok (.sa 11 14 (AddrSpec.mk 9 false false 0o11334)) ∧
    decode .extended 0o026052412344 = .ok (.sna 12 2 (AddrSpec.mk 10 true false 0o12344)) ∧
    decode .basic 0o036533213354 = .ok (.sma 13 5 (AddrSpec.mk 11 false true 0o13354)) ∧
    decode .extended 0o040214614364 = .ok (.sr 0 8 (AddrSpec.mk 12 true true 0o14364)) ∧
    decode .basic 0o060675015374 = .ok (.sx 1 11 (AddrSpec.mk 13 false false 0o15374)) := by decide

theorem test_decode_double_word_loads_and_stores :
    decode .extended 0o715356416404 = .ok (.ds 14 (AddrSpec.mk 14 true false 0o16404)) ∧
    decode .basic 0o715457217414 = .ok (.dl 2 (AddrSpec.mk 15 false true 0o17414)) ∧
    decode .extended 0o716121620424 = .ok (.dln 5 (AddrSpec.mk 1 true true 0o20424)) ∧
    decode .basic 0o716602021434 = .ok (.dlm 8 (AddrSpec.mk 2 false false 0o21434)) := by decide

theorem test_decode_store_constant :
    decode .extended 0o053003422444 = .ok (.sz 6 (AddrSpec.mk 3 true false 0o22444)) ∧
    decode .basic 0o053424223454 = .ok (.snz 7 (AddrSpec.mk 4 false true 0o23454)) ∧
    decode .extended 0o054045624464 = .ok (.sp1 8 (AddrSpec.mk 5 true true 0o24464)) ∧
    decode .basic 0o054466025474 = .ok (.sn1 9 (AddrSpec.mk 6 false false 0o25474)) ∧
    decode .extended 0o055107426504 = .ok (.sfs 10 (AddrSpec.mk 7 true false 0o26504)) ∧
    decode .basic 0o055530227514 = .ok (.sfz 11 (AddrSpec.mk 8 false true 0o27514)) ∧
    decode .extended 0o056151630524 = .ok (.sas 12 (AddrSpec.mk 9 true true 0o30524)) ∧
    decode .basic 0o056572031534 = .ok (.saz 13 (AddrSpec.mk 10 false false 0o31534)) := by decide

theorem test_decode_fixed_point_arithmetic :
    decode .extended 0o140133432544 = .ok (.aa 0 5 (AddrSpec.mk 11 true false 0o32544)) ∧
    decode .basic 0o150614233554 = .ok (.ana 1 8 (AddrSpec.mk 12 false true 0o33554)) ∧
    decode .extended 0o161275634564 = .ok (.ama 2 11 (AddrSpec.mk 13 true true 0o34564)) ∧
    decode .basic 0o171756035574 = .ok (.anma 3 14 (AddrSpec.mk 14 false false 0o35574)) ∧
    decode .extended 0o202057436604 = .ok (.au 4 2 (AddrSpec.mk 15 true false 0o36604)) ∧
    decode .basic 0o212521237614 = .ok (.anu 5 5 (AddrSpec.mk 1 false true 0o37614)) ∧
    decode .extended 0o243202640624 = .ok (.ax 6 8 (AddrSpec.mk 2 true true 0o40624)) ∧
    decode .basic 0o253663041634 = .ok (.anx 7 11 (AddrSpec.mk 3 false false 0o41634)) ∧
    decode .extended 0o304344442644 = .ok (.mi 8 14 (AddrSpec.mk 4 true false 0o42644)) ∧
    decode .basic 0o344445243654 = .ok (.di 9 2 (AddrSpec.mk 5 false true 0o43654)) ∧
    decode .extended 0o355126644664 = .ok (.dsf 10 5 (AddrSpec.mk 6 true true 0o44664)) ∧
    decode .basic 0o365607045674 = .ok (.df 11 8 (AddrSpec.mk 7 false false 0o45674)) ∧
    decode .extended 0o714270446704 = .ok (.da 11 (AddrSpec.mk 8 true false 0o46704)) ∧
    decode .basic 0o714751247714 = .ok (.dan 14 (AddrSpec.mk 9 false true 0o47714)) := by decide

theorem test_decode_the_increment_family :
    decode .extended 0o050212650724 = .ok (.inc 0 (AddrSpec.mk 10 true true 0o50724)) ∧
    decode .basic 0o050633051734 = .ok (.dec 1 (AddrSpec.mk 11 false false 0o51734)) ∧
    decode .extended 0o051254452744 = .ok (.inc2 2 (AddrSpec.mk 12 true false 0o52744)) ∧
    decode .basic 0o051675253754 = .ok (.dec2 3 (AddrSpec.mk 13 false true 0o53754)) ∧
    decode .extended 0o052316654764 = .ok (.enz 4 (AddrSpec.mk 14 true true 0o54764)) ∧
    decode .basic 0o052737055774 = .ok (.add1 5 (AddrSpec.mk 15 false false 0o55774)) ∧
    decode .extended 0o053341457004 = .ok (.sub1 6 (AddrSpec.mk 1 true false 0o57004)) := by decide

theorem test_decode_logical :
    decode .basic 0o403602260014 = .ok (.or 7 8 (AddrSpec.mk 2 false true 0o60014)) ∧
    decode .extended 0o414263661024 = .ok (.xor 8 11 (AddrSpec.mk 3 true true 0o61024)) ∧
    decode .basic 0o424744062034 = .ok (.and 9 14 (AddrSpec.mk 4 false false 0o62034)) ∧
    decode .extended 0o435045463044 = .ok (.mlu 10 2 (AddrSpec.mk 5 true false 0o63044)) := by decide

theorem test_decode_shifts :
    decode .basic 0o730126264054 = .ok (.ssc 5 (AddrSpec.mk 6 false true 0o64054)) ∧
    decode .extended 0o730607665064 = .ok (.dsc 8 (AddrSpec.mk 7 true true 0o65064)) ∧
    decode .basic 0o731270066074 = .ok (.ssl 11 (AddrSpec.mk 8 false false 0o66074)) ∧
    decode .extended 0o731751467104 = .ok (.dsl 14 (AddrSpec.mk 9 true false 0o67104)) ∧
    decode .basic 0o732052270114 = .ok (.ssa 2 (AddrSpec.mk 10 false true 0o70114)) ∧
    decode .extended 0o732533671124 = .ok (.dsa 5 (AddrSpec.mk 11 true true 0o71124)) ∧
    decode .basic 0o734214072134 = .ok (.lssc 8 (AddrSpec.mk 12 false false 0o72134)) ∧
    decode .extended 0o734675473144 = .ok (.ldsc 11 (AddrSpec.mk 13 true false 0o73144)) ∧
    decode .basic 0o735356274154 = .ok (.lssl 14 (AddrSpec.mk 14 false true 0o74154)) ∧
    decode .extended 0o735457675164 = .ok (.ldsl 2 (AddrSpec.mk 15 true true 0o75164)) := by decide

theorem test_decode_tests_of_both_modes :
    decode .basic 0o523521076174 = .ok (.te 7 5 (AddrSpec.mk 1 false false 0o76174)) ∧
    decode .extended 0o534202477204 = .ok (.tne 8 8 (AddrSpec.mk 2 true false 0o77204)) ∧
    decode .basic 0o544663300214 = .ok (.tle 9 11 (AddrSpec.mk 3 false true 0o100214)) ∧
    decode .extended 0o555344701224 = .ok (.tg 10 14 (AddrSpec.mk 4 true true 0o101224)) ∧
    decode .basic 0o565445102234 = .ok (.tw 11 2 (AddrSpec.mk 5 false false 0o102234)) ∧
    decode .extended 0o576126503244 = .ok (.tnw 12 5 (AddrSpec.mk 6 true false 0o103244)) := by decide

theorem test_decode_basic_mode_tests :
    decode .basic 0o506407304254 = .ok (.tzBasic 13 (AddrSpec.mk 7 false true 0o104254)) ∧
    decode .basic 0o510010705264 = .ok (.tnzBasic 0 (AddrSpec.mk 8 true true 0o105264)) ∧
    decode .basic 0o600411106274 = .ok (.tpBasic 1 (AddrSpec.mk 9 false false 0o106274)) ∧
    decode .basic 0o611012507304 = .ok (.tnBasic 2 (AddrSpec.mk 10 true false 0o107304)) := by decide

theorem test_decode_extended_mode_tests_function_050 :
    decode .extended 0o501413310314 = .ok (.tnop 3 (AddrSpec.mk 11 false true 0o110314)) ∧
    decode .extended 0o502034711324 = .ok (.tgz 4 (AddrSpec.mk 12 true true 0o111324)) ∧
    decode .extended 0o502455112334 = .ok (.tpz 5 (AddrSpec.mk 13 false false 0o112334)) ∧
    decode .extended 0o503076513344 = .ok (.tp 6 (AddrSpec.mk 14 true false 0o113344)) ∧
    decode .extended 0o503517314354 = .ok (.tmz 7 (AddrSpec.mk 15 false true 0o114354)) ∧
    decode .extended 0o504121715364 = .ok (.tmzg 8 (AddrSpec.mk 1 true true 0o115364)) ∧
    decode .extended 0o504542116374 = .ok (.tz 9 (AddrSpec.mk 2 false false 0o116374)) ∧
    decode .extended 0o505163517404 = .ok (.tnlz 10 (AddrSpec.mk 3 true false 0o117404)) ∧
    decode .extended 0o505604320414 = .ok (.tlz 11 (AddrSpec.mk 4 false true 0o120414)) ∧
    decode .extended 0o506225721424 = .ok (.tnz 12 (AddrSpec.mk 5 true true 0o121424)) ∧
    decode .extended 0o506646122434 = .ok (.tpzl 13 (AddrSpec.mk 6 false false 0o122434)) ∧
    decode .extended 0o500267523444 = .ok (.tnmz 0 (AddrSpec.mk 7 true false 0o123444)) ∧
    decode .extended 0o500710324454 = .ok (.tn 1 (AddrSpec.mk 8 false true 0o124454)) ∧
    decode .extended 0o501331725464 = .ok (.tnpz 2 (AddrSpec.mk 9 true true 0o125464)) ∧
    decode .extended 0o501752126474 = .ok (.tngz 3 (AddrSpec.mk 10 false false 0o126474)) ∧
    decode .extended 0o502373527504 = .ok (.tskp 4 (AddrSpec.mk 11 true false 0o127504)) := by decide

theorem test_decode_jumps :
    decode .basic 0o740214330514 = .ok (.jz 8 (AddrSpec.mk 12 false true 0o130514)) ∧
    decode .extended 0o740675731524 = .ok (.jnz 11 (AddrSpec.mk 13 true true 0o131524)) ∧
    decode .basic 0o741356132534 = .ok (.jp 14 (AddrSpec.mk 14 false false 0o132534)) ∧
    decode .extended 0o741457533544 = .ok (.jn 2 (AddrSpec.mk 15 true false 0o133544)) ∧
    decode .basic 0o742001334554 = .ok (.j (AddrSpec.mk 1 false true 0o134554)) ∧
    decode .basic 0o743002735564 = .ok (.nop (AddrSpec.mk 2 true true 0o135564)) ∧
    decode .basic 0o745263136574 = .ok (.jmgi 11 (AddrSpec.mk 3 false false 0o136574)) ∧
    decode .extended 0o745744537604 = .ok (.lmj 14 (AddrSpec.mk 4 true false 0o137604)) ∧
    decode .basic 0o746005340614 = .ok (.jo (AddrSpec.mk 5 false true 0o140614)) ∧
    decode .extended 0o746066741624 = .ok (.jdf (AddrSpec.mk 6 true true 0o141624)) ∧
    decode .basic 0o746407142634 = .ok (.jno (AddrSpec.mk 7 false false 0o142634)) ∧
    decode .extended 0o746470543644 = .ok (.jndf (AddrSpec.mk 8 true false 0o143644)) ∧
    decode .basic 0o747011344654 = .ok (.jc (AddrSpec.mk 9 false true 0o144654)) ∧
    decode .basic 0o747412745664 = .ok (.jnc (AddrSpec.mk 10 true true 0o145664)) ∧
    decode .basic 0o702133146674 = .ok (.jgd 4 5 (AddrSpec.mk 11 false false 0o146674)) ∧
    decode .extended 0o717214547704 = .ok (.djz 8 (AddrSpec.mk 12 true false 0o147704)) ∧
    decode .basic 0o720415350714 = .ok (.slj (AddrSpec.mk 13 false true 0o150714)) := by decide

theorem test_decode_synchronisation_and_system_control :
    decode .extended 0o737416751724 = .ok (.ts (AddrSpec.mk 14 true true 0o151724)) ∧
    decode .basic 0o737437152734 = .ok (.tss (AddrSpec.mk 15 false false 0o152734)) ∧
    decode .extended 0o737441553744 = .ok (.tcs (AddrSpec.mk 1 true false 0o153744)) ∧
    decode .basic 0o737540765432 = .ok (.halt 0o765432) ∧
    decode .extended 0o736623755764 = .ok (.ld (AddrSpec.mk 3 true true 0o155764)) ∧
    decode .basic 0o736644156774 = .ok (.sd (AddrSpec.mk 4 false false 0o156774)) ∧
    decode .extended 0o736660000000 = .ok (.ur) := by decide

/-! ### One step of each instruction -/

/-- Vector M6. -/
theorem test_la :
    steps ((basic 0o100001400000) |> cell 1 0o777700002005 |> cell 12 7 |> word 0o2005 0o46 |> dr 0o100002000000) (fun t =>
      t.grs[1] == 0o777700002004 && t.grs[12] == 0o46 && t.par == 0o1001 && t.dr == 0o100002000000) = true := by decide

/-- Vector L2. -/
theorem test_lna :
    steps ((basic 0o111400002000) |> word 0o2000 0o777777) (fun t =>
      t.grs[12] == 0o777777777777 && t.par == 0o1001 && t.dr == 0o2000000) = true := by decide

/-- Vector L3. -/
theorem test_lma :
    steps ((basic 0o120000002000) |> cell 12 7 |> word 0o2000 0o777777777777) (fun t =>
      t.grs[12] == 0 && t.par == 0o1001 && t.dr == 0o2000000) = true := by decide

/-- Vector L4. -/
theorem test_lnma :
    steps ((basic 0o130000002000) |> cell 12 7 |> word 0o2000 0o777777777777) (fun t =>
      t.grs[12] == 0o777777777777 && t.par == 0o1001 && t.dr == 0o2000000) = true := by decide

/-- Vector L5. -/
theorem test_lr :
    steps ((basic 0o230020002000) |> word 0o2000 0o56 |> dr 0o3000000) (fun t =>
      t.grs[81] == 0o56 && t.par == 0o1001 && t.dr == 0o3000000) = true := by decide

/-- Vector C5. -/
theorem test_lx :
    steps ((basic 0o270042402000) |> cell 2 0o1000000 |> word 0o2000 0o55) (fun t =>
      t.grs[2] == 0o55 && t.par == 0o1001 && t.dr == 0o2000000) = true := by decide

/-- Vector L7. -/
theorem test_lxm :
    steps ((basic 0o267060000007) |> cell 3 0o77000005 |> dr 0o100002000000) (fun t =>
      t.grs[3] == 0o77000007 && t.par == 0o1001 && t.dr == 0o100002000000) = true := by decide

/-- Vector L8. -/
theorem test_lxi :
    steps ((basic 0o467060777777) |> cell 3 5) (fun t =>
      t.grs[3] == 0o777777000005 && t.par == 0o1001 && t.dr == 0o2000000) = true := by decide

/-- Vector K14. -/
theorem test_sa :
    steps ((basic 0o013000002000) |> cell 12 0o111111222222 |> word 0o2000 0o777777777777 |> dr 0o2000010) (fun t =>
      t.memory.read 0o2000 == 0o777777222777 && t.par == 0o1001 && t.dr == 0o2000010) = true := by decide

/-- Vector L10. -/
theorem test_sna :
    steps ((basic 0o024000002000) |> cell 12 0 |> word 0o2000 0) (fun t =>
      t.memory.read 0o2000 == 0o77 && t.par == 0o1001 && t.dr == 0o2000000) = true := by decide

/-- Vector L11. -/
theorem test_sma :
    steps ((basic 0o030000002000) |> cell 12 0o777777777777 |> word 0o2000 5) (fun t =>
      t.memory.read 0o2000 == 0 && t.par == 0o1001 && t.dr == 0o2000000) = true := by decide

/-- Vector L12. -/
theorem test_sr :
    steps ((basic 0o040040002000) |> cell 66 0o12) (fun t =>
      t.memory.read 0o2000 == 0o12 && t.par == 0o1001 && t.dr == 0o2000000) = true := by decide

/-- Vector L13. -/
theorem test_sx :
    steps ((basic 0o060021401000) |> cell 1 0o1000100) (fun t =>
      t.grs[1] == 0o1000101 && t.memory.read 0o1100 == 0o1000101 && t.par == 0o1001 && t.dr == 0o2000000) = true := by decide

/-- Vector M29. -/
theorem test_ds :
    steps ((extended 0o715000020776) |> cell 12 1 |> cell 13 2) (fun t =>
      t.memory.read 0o20776 == 1 && t.memory.read 0o20777 == 2 && t.par == 0o1001 && t.dr == 0) = true := by decide

/-- Vector M30. -/
theorem test_dl :
    steps ((basic 0o715400000176) |> cell 126 1 |> cell 127 2) (fun t =>
      t.grs[12] == 1 && t.grs[13] == 2 && t.par == 0o1001 && t.dr == 0o2000000) = true := by decide

/-- Vector L15. -/
theorem test_dln :
    steps ((basic 0o716000002000) |> word 0o2000 0 |> word 0o2001 1) (fun t =>
      t.grs[12] == 0o777777777777 && t.grs[13] == 0o777777777776 && t.par == 0o1001 && t.dr == 0o2000000) = true := by decide

/-- Vector L16. -/
theorem test_dlm :
    steps ((basic 0o716400002000) |> word 0o2000 0o777777777777 |> word 0o2001 0o777777777770) (fun t =>
      t.grs[13] == 7 && t.par == 0o1001 && t.dr == 0o2000000) = true := by decide

/-- Vector L19. -/
theorem test_sz :
    steps ((basic 0o050000002000) |> word 0o2000 0o123) (fun t =>
      t.memory.read 0o2000 == 0 && t.par == 0o1001 && t.dr == 0o2000000) = true := by decide

/-- Vector L20. -/
theorem test_snz :
    steps ((basic 0o050020002000) |> word 0o2000 0o123) (fun t =>
      t.memory.read 0o2000 == 0o777777777777 && t.par == 0o1001 && t.dr == 0o2000000) = true := by decide

/-- Vector L21. -/
theorem test_sp1 :
    steps ((basic 0o050040002000) |> word 0o2000 0o123) (fun t =>
      t.memory.read 0o2000 == 1 && t.par == 0o1001 && t.dr == 0o2000000) = true := by decide

/-- Vector L22. -/
theorem test_sn1 :
    steps ((basic 0o050060002000) |> word 0o2000 0o123) (fun t =>
      t.memory.read 0o2000 == 0o777777777776 && t.par == 0o1001 && t.dr == 0o2000000) = true := by decide

/-- Vector L23. -/
theorem test_sfs :
    steps ((basic 0o050100002000) |> word 0o2000 0o123) (fun t =>
      t.memory.read 0o2000 == 0o50505050505 && t.par == 0o1001 && t.dr == 0o2000000) = true := by decide

/-- Vector L24. -/
theorem test_sfz :
    steps ((basic 0o050120002000) |> word 0o2000 0o123) (fun t =>
      t.memory.read 0o2000 == 0o606060606060 && t.par == 0o1001 && t.dr == 0o2000000) = true := by decide

/-- Vector L25. -/
theorem test_sas :
    steps ((basic 0o050140002000) |> word 0o2000 0o123) (fun t =>
      t.memory.read 0o2000 == 0o40040040040 && t.par == 0o1001 && t.dr == 0o2000000) = true := by decide

/-- Vector L26. -/
theorem test_saz :
    steps ((basic 0o050160002000) |> word 0o2000 0o123) (fun t =>
      t.memory.read 0o2000 == 0o60060060060 && t.par == 0o1001 && t.dr == 0o2000000) = true := by decide

/-- Vector A1. -/
theorem test_aa :
    steps ((basic 0o140000002000) |> cell 12 0o377777777777 |> word 0o2000 1) (fun t =>
      t.grs[12] == 0o400000000000 && t.par == 0o1001 && t.dr == 0o2200000) = true := by decide

/-- Vector A7. -/
theorem test_ana :
    steps ((basic 0o150000002000) |> cell 12 0o123 |> word 0o2000 0o123) (fun t =>
      t.grs[12] == 0 && t.par == 0o1001 && t.dr == 0o2000000) = true := by decide

/-- Vector A8. -/
theorem test_ama :
    steps ((basic 0o160000002000) |> cell 12 1 |> word 0o2000 0o777777777775) (fun t =>
      t.grs[12] == 3 && t.par == 0o1001 && t.dr == 0o2000000) = true := by decide

/-- Vector A10. -/
theorem test_anma :
    steps ((basic 0o170000002000) |> cell 12 5 |> word 0o2000 0o777777777775) (fun t =>
      t.grs[12] == 3 && t.par == 0o1001 && t.dr == 0o2400000) = true := by decide

/-- Vector A11. -/
theorem test_au :
    steps ((basic 0o207040000003) |> cell 14 4) (fun t =>
      t.grs[15] == 7 && t.par == 0o1001 && t.dr == 0o2000000) = true := by decide

/-- Vector A12. -/
theorem test_anu :
    steps ((basic 0o217040000006) |> cell 14 4) (fun t =>
      t.grs[15] == 0o777777777775 && t.par == 0o1001 && t.dr == 0o2000000) = true := by decide

/-- Vector A13. -/
theorem test_ax :
    steps ((basic 0o247020000003) |> cell 1 0o1000005) (fun t =>
      t.grs[1] == 0o1000010 && t.par == 0o1001 && t.dr == 0o2000000) = true := by decide

/-- Vector A14. -/
theorem test_anx :
    steps ((basic 0o257020000003) |> cell 1 0o10) (fun t =>
      t.grs[1] == 5 && t.par == 0o1001 && t.dr == 0o2400000) = true := by decide

/-- Vector A20. -/
theorem test_mi :
    steps ((basic 0o300000002000) |> cell 12 0o777777777777 |> cell 13 7 |> word 0o2000 5) (fun t =>
      t.grs[12] == 0 && t.grs[13] == 0 && t.par == 0o1001 && t.dr == 0o2000000) = true := by decide

/-- Vector A24. -/
theorem test_di :
    steps ((basic 0o340000002000) |> cell 12 0 |> cell 13 7 |> word 0o2000 0o777777777775) (fun t =>
      t.grs[12] == 0o777777777774 && t.grs[13] == 1 && t.par == 0o1001 && t.dr == 0o2000000) = true := by decide

/-- Vector A31. -/
theorem test_dsf :
    steps ((basic 0o357000000002) |> cell 12 2 |> cell 13 7) (fun t =>
      t.grs[12] == 0 && t.grs[13] == 0 && t.par == 0o1001 && t.dr == 0o2020000) = true := by decide

/-- Vector A35. -/
theorem test_df :
    steps ((basic 0o360000002000) |> cell 12 0 |> cell 13 0o21 |> word 0o2000 0o777777777775) (fun t =>
      t.grs[12] == 0o777777777773 && t.grs[13] == 0 && t.par == 0o1001 && t.dr == 0o2000000) = true := by decide

/-- Vector A15. -/
theorem test_da :
    steps ((basic 0o714000002000) |> cell 12 0 |> cell 13 0o777777777777 |> word 0o2000 0 |> word 0o2001 1) (fun t =>
      t.grs[12] == 1 && t.grs[13] == 0 && t.par == 0o1001 && t.dr == 0o2000000) = true := by decide

/-- Vector A17. -/
theorem test_dan :
    steps ((basic 0o714400002000) |> cell 12 0 |> cell 13 5 |> word 0o2000 0 |> word 0o2001 5) (fun t =>
      t.grs[13] == 0 && t.par == 0o1001 && t.dr == 0o2000000) = true := by decide

/-- Vector I-INC-0777777777776. -/
theorem test_inc :
    steps ((basic 0o050200002000) |> word 0o2000 0o777777777776) (fun t =>
      t.memory.read 0o2000 == 0 && t.par == 0o1002 && t.dr == 0o2000000) = true := by decide

/-- Vector I-DEC-01. -/
theorem test_dec :
    steps ((basic 0o050220002000) |> word 0o2000 1) (fun t =>
      t.memory.read 0o2000 == 0 && t.par == 0o1002 && t.dr == 0o2000000) = true := by decide

/-- Vector I-INC2-0777777777775. -/
theorem test_inc2 :
    steps ((basic 0o050240002000) |> word 0o2000 0o777777777775) (fun t =>
      t.memory.read 0o2000 == 0 && t.par == 0o1002 && t.dr == 0o2000000) = true := by decide

/-- Vector I-DEC2-02. -/
theorem test_dec2 :
    steps ((basic 0o050260002000) |> word 0o2000 2) (fun t =>
      t.memory.read 0o2000 == 0 && t.par == 0o1002 && t.dr == 0o2000000) = true := by decide

/-- Vector I-ENZ-0. -/
theorem test_enz :
    steps ((basic 0o050300002000) |> word 0o2000 0) (fun t =>
      t.par == 0o1002 && t.dr == 0o2000000) = true := by decide

/-- Vector I-ADD1-04. -/
theorem test_add1 :
    steps ((basic 0o050320002000) |> word 0o2000 4) (fun t =>
      t.memory.read 0o2000 == 5 && t.par == 0o1001 && t.dr == 0o2000000) = true := by decide

/-- Vector I-SUB1-04. -/
theorem test_sub1 :
    steps ((basic 0o050340002000) |> word 0o2000 4) (fun t =>
      t.memory.read 0o2000 == 3 && t.par == 0o1001 && t.dr == 0o2400000) = true := by decide

/-- Vector G-OR. -/
theorem test_or :
    steps ((basic 0o407000000007) |> cell 12 0o70) (fun t =>
      t.grs[13] == 0o77 && t.par == 0o1001 && t.dr == 0o2000000) = true := by decide

/-- Vector G-XOR0. -/
theorem test_xor :
    steps ((basic 0o410000002000) |> cell 12 0o555 |> cell 13 7 |> word 0o2000 0o555) (fun t =>
      t.grs[13] == 0 && t.par == 0o1001 && t.dr == 0o2000000) = true := by decide

/-- Vector G-AND. -/
theorem test_and :
    steps ((basic 0o427000000123) |> cell 12 0o777777777777) (fun t =>
      t.grs[13] == 0o123 && t.par == 0o1001 && t.dr == 0o2000000) = true := by decide

/-- Vector G-MLU0. -/
theorem test_mlu :
    steps ((basic 0o430000002000) |> cell 12 0o1111 |> cell 66 0 |> word 0o2000 0o222) (fun t =>
      t.grs[13] == 0o1111 && t.par == 0o1001 && t.dr == 0o2000000) = true := by decide

/-- Vector H-SSC-1. -/
theorem test_ssc :
    steps ((basic 0o730000000001) |> cell 12 1) (fun t =>
      t.grs[12] == 0o400000000000 && t.par == 0o1001 && t.dr == 0o2000000) = true := by decide

/-- Vector H-DSC-1. -/
theorem test_dsc :
    steps ((basic 0o730400000001) |> cell 12 0 |> cell 13 1) (fun t =>
      t.grs[12] == 0o400000000000 && t.grs[13] == 0 && t.par == 0o1001 && t.dr == 0o2000000) = true := by decide

/-- Vector H-idx. -/
theorem test_ssl :
    steps ((basic 0o731001000001) |> cell 1 2 |> cell 12 0o100) (fun t =>
      t.grs[12] == 0o10 && t.par == 0o1001 && t.dr == 0o2000000) = true := by decide

/-- Vector H-DSL-1. -/
theorem test_dsl :
    steps ((basic 0o731400000001) |> cell 12 1 |> cell 13 0) (fun t =>
      t.grs[12] == 0 && t.grs[13] == 0o400000000000 && t.par == 0o1001 && t.dr == 0o2000000) = true := by decide

/-- Vector H-SSA-2. -/
theorem test_ssa :
    steps ((basic 0o732000000002) |> cell 12 0o777777777767) (fun t =>
      t.grs[12] == 0o777777777775 && t.par == 0o1001 && t.dr == 0o2000000) = true := by decide

/-- Vector H-DSA-36. -/
theorem test_dsa :
    steps ((basic 0o732400000044) |> cell 12 0o400000000000 |> cell 13 0) (fun t =>
      t.grs[12] == 0o777777777777 && t.grs[13] == 0o400000000000 && t.par == 0o1001 && t.dr == 0o2000000) = true := by decide

/-- Vector H-LSSC-1. -/
theorem test_lssc :
    steps ((basic 0o734000000001) |> cell 12 0o400000000000) (fun t =>
      t.grs[12] == 1 && t.par == 0o1001 && t.dr == 0o2000000) = true := by decide

/-- Vector H-LDSC-1. -/
theorem test_ldsc :
    steps ((basic 0o734400000001) |> cell 12 0o400000000000 |> cell 13 0) (fun t =>
      t.grs[12] == 0 && t.grs[13] == 1 && t.par == 0o1001 && t.dr == 0o2000000) = true := by decide

/-- Vector H-LSSL-3. -/
theorem test_lssl :
    steps ((basic 0o735000000003) |> cell 12 3) (fun t =>
      t.grs[12] == 0o30 && t.par == 0o1001 && t.dr == 0o2000000) = true := by decide

/-- Vector H-LDSL-1. -/
theorem test_ldsl :
    steps ((basic 0o735400000001) |> cell 12 0 |> cell 13 0o400000000000) (fun t =>
      t.grs[12] == 1 && t.grs[13] == 0 && t.par == 0o1001 && t.dr == 0o2000000) = true := by decide

/-- Vector C7. -/
theorem test_te :
    steps ((basic 0o527001400006) |> cell 1 0o1000000 |> cell 12 5) (fun t =>
      t.grs[1] == 0o1000001 && t.par == 0o1001 && t.dr == 0o2000000) = true := by decide

/-- Vector T-TNE-04. -/
theorem test_tne :
    steps ((basic 0o537000000004) |> cell 12 5) (fun t =>
      t.par == 0o1002 && t.dr == 0o2000000) = true := by decide

/-- Vector T-TLE-05. -/
theorem test_tle :
    steps ((basic 0o547000000005) |> cell 12 5) (fun t =>
      t.par == 0o1002 && t.dr == 0o2000000) = true := by decide

/-- Vector T-TG-06. -/
theorem test_tg :
    steps ((basic 0o557000000006) |> cell 12 5) (fun t =>
      t.par == 0o1002 && t.dr == 0o2000000) = true := by decide

/-- Vector T-TW-05. -/
theorem test_tw :
    steps ((basic 0o567000000005) |> cell 12 1 |> cell 13 5) (fun t =>
      t.par == 0o1002 && t.dr == 0o2000000) = true := by decide

/-- Vector T-TNW-06. -/
theorem test_tnw :
    steps ((basic 0o577000000006) |> cell 12 1 |> cell 13 5) (fun t =>
      t.par == 0o1002 && t.dr == 0o2000000) = true := by decide

/-- Vector D3. -/
theorem test_tzBasic :
    steps ((basic 0o500140000005) |> cell 5 0) (fun t =>
      t.par == 0o1002 && t.dr == 0o2000000) = true := by decide

/-- Vector T-bTNZ-03. -/
theorem test_tnzBasic :
    steps ((basic 0o510000002000) |> word 0o2000 3) (fun t =>
      t.par == 0o1002 && t.dr == 0o2000000) = true := by decide

/-- Vector T-bTP-0. -/
theorem test_tpBasic :
    steps ((basic 0o600000002000) |> word 0o2000 0) (fun t =>
      t.par == 0o1002 && t.dr == 0o2000000) = true := by decide

/-- Vector T-bTN-0777777777777. -/
theorem test_tnBasic :
    steps ((basic 0o610000002000) |> word 0o2000 0o777777777777) (fun t =>
      t.par == 0o1002 && t.dr == 0o2000000) = true := by decide

theorem test_tnop :
    steps (extended 0o500000010005 |> word 0o10005 1) (fun t => t.par == 0o1001) = true ∧
    steps (extended 0o500000010005 |> word 0o10005 0) (fun t => t.par == 0o1001) = true ∧
    steps (extended 0o500000010005 |> word 0o10005 0o777777777777) (fun t => t.par == 0o1001) = true ∧
    steps (extended 0o500000010005 |> word 0o10005 0o777777777776) (fun t => t.par == 0o1001) = true := by decide

theorem test_tgz :
    steps (extended 0o500020010005 |> word 0o10005 1) (fun t => t.par == 0o1002) = true ∧
    steps (extended 0o500020010005 |> word 0o10005 0) (fun t => t.par == 0o1001) = true ∧
    steps (extended 0o500020010005 |> word 0o10005 0o777777777777) (fun t => t.par == 0o1001) = true ∧
    steps (extended 0o500020010005 |> word 0o10005 0o777777777776) (fun t => t.par == 0o1001) = true := by decide

theorem test_tpz :
    steps (extended 0o500040010005 |> word 0o10005 1) (fun t => t.par == 0o1001) = true ∧
    steps (extended 0o500040010005 |> word 0o10005 0) (fun t => t.par == 0o1002) = true ∧
    steps (extended 0o500040010005 |> word 0o10005 0o777777777777) (fun t => t.par == 0o1001) = true ∧
    steps (extended 0o500040010005 |> word 0o10005 0o777777777776) (fun t => t.par == 0o1001) = true := by decide

theorem test_tp :
    steps (extended 0o500060010005 |> word 0o10005 1) (fun t => t.par == 0o1002) = true ∧
    steps (extended 0o500060010005 |> word 0o10005 0) (fun t => t.par == 0o1002) = true ∧
    steps (extended 0o500060010005 |> word 0o10005 0o777777777777) (fun t => t.par == 0o1001) = true ∧
    steps (extended 0o500060010005 |> word 0o10005 0o777777777776) (fun t => t.par == 0o1001) = true := by decide

theorem test_tmz :
    steps (extended 0o500100010005 |> word 0o10005 1) (fun t => t.par == 0o1001) = true ∧
    steps (extended 0o500100010005 |> word 0o10005 0) (fun t => t.par == 0o1001) = true ∧
    steps (extended 0o500100010005 |> word 0o10005 0o777777777777) (fun t => t.par == 0o1002) = true ∧
    steps (extended 0o500100010005 |> word 0o10005 0o777777777776) (fun t => t.par == 0o1001) = true := by decide

theorem test_tmzg :
    steps (extended 0o500120010005 |> word 0o10005 1) (fun t => t.par == 0o1002) = true ∧
    steps (extended 0o500120010005 |> word 0o10005 0) (fun t => t.par == 0o1001) = true ∧
    steps (extended 0o500120010005 |> word 0o10005 0o777777777777) (fun t => t.par == 0o1002) = true ∧
    steps (extended 0o500120010005 |> word 0o10005 0o777777777776) (fun t => t.par == 0o1001) = true := by decide

theorem test_tz :
    steps (extended 0o500140010005 |> word 0o10005 1) (fun t => t.par == 0o1001) = true ∧
    steps (extended 0o500140010005 |> word 0o10005 0) (fun t => t.par == 0o1002) = true ∧
    steps (extended 0o500140010005 |> word 0o10005 0o777777777777) (fun t => t.par == 0o1002) = true ∧
    steps (extended 0o500140010005 |> word 0o10005 0o777777777776) (fun t => t.par == 0o1001) = true := by decide

theorem test_tnlz :
    steps (extended 0o500160010005 |> word 0o10005 1) (fun t => t.par == 0o1002) = true ∧
    steps (extended 0o500160010005 |> word 0o10005 0) (fun t => t.par == 0o1002) = true ∧
    steps (extended 0o500160010005 |> word 0o10005 0o777777777777) (fun t => t.par == 0o1002) = true ∧
    steps (extended 0o500160010005 |> word 0o10005 0o777777777776) (fun t => t.par == 0o1001) = true := by decide

theorem test_tlz :
    steps (extended 0o500200010005 |> word 0o10005 1) (fun t => t.par == 0o1001) = true ∧
    steps (extended 0o500200010005 |> word 0o10005 0) (fun t => t.par == 0o1001) = true ∧
    steps (extended 0o500200010005 |> word 0o10005 0o777777777777) (fun t => t.par == 0o1001) = true ∧
    steps (extended 0o500200010005 |> word 0o10005 0o777777777776) (fun t => t.par == 0o1002) = true := by decide

theorem test_tnz :
    steps (extended 0o500220010005 |> word 0o10005 1) (fun t => t.par == 0o1002) = true ∧
    steps (extended 0o500220010005 |> word 0o10005 0) (fun t => t.par == 0o1001) = true ∧
    steps (extended 0o500220010005 |> word 0o10005 0o777777777777) (fun t => t.par == 0o1001) = true ∧
    steps (extended 0o500220010005 |> word 0o10005 0o777777777776) (fun t => t.par == 0o1002) = true := by decide

theorem test_tpzl :
    steps (extended 0o500240010005 |> word 0o10005 1) (fun t => t.par == 0o1001) = true ∧
    steps (extended 0o500240010005 |> word 0o10005 0) (fun t => t.par == 0o1002) = true ∧
    steps (extended 0o500240010005 |> word 0o10005 0o777777777777) (fun t => t.par == 0o1001) = true ∧
    steps (extended 0o500240010005 |> word 0o10005 0o777777777776) (fun t => t.par == 0o1002) = true := by decide

theorem test_tnmz :
    steps (extended 0o500260010005 |> word 0o10005 1) (fun t => t.par == 0o1002) = true ∧
    steps (extended 0o500260010005 |> word 0o10005 0) (fun t => t.par == 0o1002) = true ∧
    steps (extended 0o500260010005 |> word 0o10005 0o777777777777) (fun t => t.par == 0o1001) = true ∧
    steps (extended 0o500260010005 |> word 0o10005 0o777777777776) (fun t => t.par == 0o1002) = true := by decide

theorem test_tn :
    steps (extended 0o500300010005 |> word 0o10005 1) (fun t => t.par == 0o1001) = true ∧
    steps (extended 0o500300010005 |> word 0o10005 0) (fun t => t.par == 0o1001) = true ∧
    steps (extended 0o500300010005 |> word 0o10005 0o777777777777) (fun t => t.par == 0o1002) = true ∧
    steps (extended 0o500300010005 |> word 0o10005 0o777777777776) (fun t => t.par == 0o1002) = true := by decide

theorem test_tnpz :
    steps (extended 0o500320010005 |> word 0o10005 1) (fun t => t.par == 0o1002) = true ∧
    steps (extended 0o500320010005 |> word 0o10005 0) (fun t => t.par == 0o1001) = true ∧
    steps (extended 0o500320010005 |> word 0o10005 0o777777777777) (fun t => t.par == 0o1002) = true ∧
    steps (extended 0o500320010005 |> word 0o10005 0o777777777776) (fun t => t.par == 0o1002) = true := by decide

theorem test_tngz :
    steps (extended 0o500340010005 |> word 0o10005 1) (fun t => t.par == 0o1001) = true ∧
    steps (extended 0o500340010005 |> word 0o10005 0) (fun t => t.par == 0o1002) = true ∧
    steps (extended 0o500340010005 |> word 0o10005 0o777777777777) (fun t => t.par == 0o1002) = true ∧
    steps (extended 0o500340010005 |> word 0o10005 0o777777777776) (fun t => t.par == 0o1002) = true := by decide

theorem test_tskp :
    steps (extended 0o500360010005 |> word 0o10005 1) (fun t => t.par == 0o1002) = true ∧
    steps (extended 0o500360010005 |> word 0o10005 0) (fun t => t.par == 0o1002) = true ∧
    steps (extended 0o500360010005 |> word 0o10005 0o777777777777) (fun t => t.par == 0o1002) = true ∧
    steps (extended 0o500360010005 |> word 0o10005 0o777777777776) (fun t => t.par == 0o1002) = true := by decide

/-- Vector J-JZ-0. -/
theorem test_jz :
    steps ((basic 0o740000001100) |> cell 12 0) (fun t =>
      t.par == 0o1100 && t.dr == 0o2000000) = true := by decide

/-- Vector J-JNZ-0777777777777. -/
theorem test_jnz :
    steps ((basic 0o740400001100) |> cell 12 0o777777777777) (fun t =>
      t.par == 0o1001 && t.dr == 0o2000000) = true := by decide

/-- Vector J-JP-0. -/
theorem test_jp :
    steps ((basic 0o741000001100) |> cell 12 0) (fun t =>
      t.par == 0o1100 && t.dr == 0o2000000) = true := by decide

/-- Vector J-JN-0777777777777. -/
theorem test_jn :
    steps ((basic 0o741400001100) |> cell 12 0o777777777777) (fun t =>
      t.par == 0o1100 && t.dr == 0o2000000) = true := by decide

/-- Vector J-Jx. -/
theorem test_j :
    steps ((basic 0o742001400100) |> cell 1 0o2001000) (fun t =>
      t.grs[1] == 0o2001002 && t.par == 0o1100 && t.dr == 0o2000000) = true := by decide

/-- Vector J-NOP. -/
theorem test_nop :
    steps ((basic 0o743001400000) |> cell 1 0o3000010) (fun t =>
      t.grs[1] == 0o3000013 && t.par == 0o1001 && t.dr == 0o2000000) = true := by decide

/-- Vector J-JMGI1. -/
theorem test_jmgi :
    steps ((basic 0o745020001100) |> cell 1 0o777777000002) (fun t =>
      t.grs[1] == 0o777777000001 && t.par == 0o1100 && t.dr == 0o2000000) = true := by decide

/-- Vector J-LMJ-ext. -/
theorem test_lmj :
    steps ((extended 0o745660001100) |> cell 11 0) (fun t =>
      t.grs[11] == 0o1001 && t.par == 0o1100 && t.dr == 0) = true := by decide

/-- Vector J-JO. -/
theorem test_jo :
    steps ((basic 0o746000001100) |> dr 0o2200000) (fun t =>
      t.par == 0o1100 && t.dr == 0o2200000) = true := by decide

/-- Vector J-JDF. -/
theorem test_jdf :
    steps ((basic 0o746060001100) |> dr 0o2020000) (fun t =>
      t.par == 0o1100 && t.dr == 0o2000000) = true := by decide

/-- Vector J-JNO. -/
theorem test_jno :
    steps ((basic 0o746400001100) |> dr 0o2200000) (fun t =>
      t.par == 0o1001 && t.dr == 0o2200000) = true := by decide

/-- Vector J-JNDF. -/
theorem test_jndf :
    steps ((basic 0o746460001100) |> dr 0o2020000) (fun t =>
      t.par == 0o1001 && t.dr == 0o2000000) = true := by decide

/-- Vector J-JC. -/
theorem test_jc :
    steps ((basic 0o747000001100) |> dr 0o2400000) (fun t =>
      t.par == 0o1100 && t.dr == 0o2400000) = true := by decide

/-- Vector J-JNC. -/
theorem test_jnc :
    steps ((basic 0o747400001100) |> dr 0o2400000) (fun t =>
      t.par == 0o1001 && t.dr == 0o2400000) = true := by decide

/-- Vector J-JGD6. -/
theorem test_jgd :
    steps ((basic 0o700300001100) |> cell 12 2 |> cell 108 0o11 |> dr 0o3000000) (fun t =>
      t.grs[12] == 1 && t.par == 0o1100 && t.dr == 0o3000000) = true := by decide

/-- Vector J-DJZ1. -/
theorem test_djz :
    steps ((basic 0o717000001100) |> cell 12 0 |> cell 13 0) (fun t =>
      t.par == 0o1100 && t.dr == 0o2000000) = true := by decide

/-- Vector J-SLJ. -/
theorem test_slj :
    steps ((basic 0o720400002000) |> word 0o2000 0o444444000000) (fun t =>
      t.memory.read 0o2000 == 0o444444001001 && t.par == 0o2001 && t.dr == 0o2000000) = true := by decide

/-- Vector S1. -/
theorem test_ts :
    steps ((basic 0o737400002000) |> word 0o2000 0) (fun t =>
      t.memory.read 0o2000 == 0o10000000000 && t.par == 0o1001 && t.dr == 0o2000000) = true := by decide

/-- Vector S3. -/
theorem test_tss :
    steps ((basic 0o737420002000) |> word 0o2000 0) (fun t =>
      t.memory.read 0o2000 == 0o10000000000 && t.par == 0o1002 && t.dr == 0o2000000) = true := by decide

/-- Vector S5. -/
theorem test_tcs :
    steps ((basic 0o737440002000) |> word 0o2000 0o10000000005) (fun t =>
      t.memory.read 0o2000 == 5 && t.par == 0o1002 && t.dr == 0o2000000) = true := by decide

/-- Vector S11. -/
theorem test_ld :
    steps ((extended 0o736620010005) |> word 0o10005 0o100) (fun t =>
      t.par == 0o1001 && t.dr == 0o100) = true := by decide

/-- Vector S14. -/
theorem test_sd :
    steps ((extended 0o736640010005) |> dr 0o400100) (fun t =>
      t.memory.read 0o10005 == 0o400100 && t.par == 0o1001 && t.dr == 0o400100) = true := by decide

/-! ### Further steps -/

/-- Vector S8. -/
theorem test_halt : steps (basic 0o737540000123) (fun t =>
    t.par == 0o1001 && !t.running && t.stopReason == .normalHalt && t.stopDetail == 0o123) = true := by decide

/-- Vector S10. -/
theorem test_halt_2 : step (basic 0o737540000000 |> dr 0o6000000) = .refused .privilegedInstruction := by rfl

/-- UR pops the frame of an earlier entry (spec/45_system.md R368). -/
theorem test_ur : steps (handled (extended 0o736660000000) |> cell 111 0o10 |> word 0o60000 0o1234 |> word 0o60001 0o400000)
    (fun t => t.par == 0o1234 && t.dr == 0o400000 && t.grs[111] == 0 && t.pb == bank 0 0o1000 0o1777) = true := by decide

/-- Vector S15. -/
theorem test_ur_2 : steps (handled (extended 0o736660000000)) (fun t =>
    t.par == 0o1000 && !t.running && t.stopReason == .icsUnderflow && t.stopDetail == 0) = true := by decide

/-- Vector S2, with an entry instead of a stop: storage is as it was, and the detail names the location. -/
theorem test_ts_2 : steps (handled (basic 0o737400002000) |> word 0o2000 0o010000000007) (fun t =>
    t.memory.read 0o2000 == 0o010000000007 && t.memory.read 0o60002 == 0o15 && t.memory.read 0o60003 == 0o640000002000 &&
      t.par == 0o1500) = true := by decide

/-- Vector E4b, with an entry instead of a stop: the frame holds the PAR of the divide and the DR with divideCheck set, and
the handler runs with the DR of spec/60_exceptions.md R400. -/
theorem test_di_2 : steps (handled (extended 0o347000000000) |> cell 12 5 |> dr 0o100) (fun t =>
    t.grs[12] == 5 && t.grs[111] == 0o10 && t.memory.read 0o60000 == 0o1000 && t.memory.read 0o60001 == 0o20100 &&
      t.memory.read 0o60002 == 0o20 && t.memory.read 0o60003 == 1 && t.par == 0o1500 && t.dr == 0o200001020100) = true := by
  decide

/-- A breakpoint that stayed pending from the instruction at 0777, in the test configuration: the PAR is put there
(spec/60_exceptions.md R393). -/
theorem test_interruptStop_late :
    steps { basic 0o107000000005 with
        pending := [PendingInt.mk .breakpoint 1 (some 0o777)]
        params := { fixtureParams with stopOnInterrupt := [.breakpoint] } } (fun t =>
      t.par == 0o777 && t.grs[12] == 5 && !t.running && t.stopReason == .interruptStop && t.stopDetail == 0o23 &&
        t.pending == []) = true := by decide

/-- Vector M10. -/
theorem test_la_2 : step (basic 0o100000000120 |> dr 0o12000000) = .refused .execGRSFromNonExec := by rfl

/-- DL A1,014: the second location is A1's cell, whose pending write the second read sees (spec/41_load_store.md R194;
spec/10_state.md R26). -/
theorem test_dl_2 : steps ((basic 0o715420000014) |> cell 12 1 |> cell 13 2 |> cell 14 3) (fun t =>
    t.grs[12] == 1 && t.grs[13] == 1 && t.grs[14] == 1) = true := by decide

/-- DLN A1,014: the second read sees the complement that the first write left (R195). -/
theorem test_dln_2 : steps ((basic 0o716020000014) |> cell 12 1 |> cell 13 2 |> cell 14 3) (fun t =>
    t.grs[13] == 0o777777777776 && t.grs[14] == 1) = true := by decide

/-- DLM A1,014: both words are read first (R196). -/
theorem test_dlm_2 : steps ((basic 0o716420000014) |> cell 12 1 |> cell 13 2 |> cell 14 3) (fun t =>
    t.grs[13] == 1 && t.grs[14] == 2) = true := by decide

/-- DS A0,015: the first location is A1's cell, so A1 is read as A0 was written to it (R197). -/
theorem test_ds_2 : steps ((basic 0o715000000015) |> cell 12 1 |> cell 13 2 |> cell 14 3) (fun t =>
    t.grs[12] == 1 && t.grs[13] == 1 && t.grs[14] == 1) = true := by decide

/-- Vector M36. -/
theorem test_stuck : step (extended 0o100000050005 |> inSlot 5 (bank 0o77777 0 0o777)) = .fault (.absentStorage 0o100004) := by
  rfl

/-- How a word placed in the reset state runs (notes/assumptions/4.md): LA,U A0,5. -/
theorem test_withFetchWord : steps (State.reset.withFetchWord 36 0o107000000005) (fun t => t.grs[12] == 5) = true := by decide

/-! ### States that meet the hypotheses of the statements -/

/-- A piece answers a value. -/
def Answers {α : Type} (x : Res α) : Prop := ∃ v r, x = .ok v r

theorem quiet_basic (w : Word) : (basic w).Quiet := ⟨rfl, rfl⟩
theorem wf_basic (w : Word) : (basic w).memory.wf := Memory.wf_write reset_memory_wf _ _

theorem sound_basic (w : Word) : (basic w).Sound :=
  have hb : ∀ k : Fin 16, (basic 0).br[k].legal 36 = true := by decide
  have hp : fixtureParams.admissible := by unfold Params.admissible; decide
  ⟨wf_basic w, List.Pairwise.nil, ⟨hb, rfl⟩, rfl, hp⟩

theorem witness_DecodeOfEncode :
    (Instr.j (at18 0o177777)).availableIn .basic = true ∧ (Instr.tskp 15 (at18 0)).availableIn .extended = true ∧
      (Instr.la 15 15 (at18 0)).availableIn .basic = true ∧ (Instr.ur).availableIn .extended = true := by decide

theorem witness_StepRunsDecoded :
    ∃ r i, (basic 0o100000002000).running = true ∧ (basic 0o100000002000).discard.fetch = .ok 0o100000002000 r ∧
      decode (basic 0o100000002000).mode 0o100000002000 = .ok i := ⟨_, _, rfl, rfl, rfl⟩

/-- Fetch at offset 01000, at the boundaries of each check. -/
theorem witness_FetchOutcomes :
    ((basic 0).basicMode = true ∧ (basic 0).basicBankSelect 0o1000 = some .b12) ∧
      ({ basic 0 with params := { fixtureParams with basicBanks := [] } } : State).basicBankSelect 0o1000 = none ∧
      ((extended 0).basicMode = false ∧ (extended 0).pb = bank 0 0o1000 0o1777) ∧
      ((inSlot 12 voidBank (basic 0)).basicBankSelect 0o1000 = some .b12 ∧ voidBank.isVoid = true) ∧
      (0o1000 < (bank 0 0o1001 0o1777).lower ∧ (bank 0 0 0o777).upper < 0o1000) ∧
      ((granted { bank 0 0o1000 0o1000 with sap := Perms.read } (AccessKey.mk 0 0)).e = false ∧
        (granted (bank 0 0o1000 0o1000) (AccessKey.mk 0 0)).e = true) ∧
      (fixtureParams.storageSize ≤ (bank 0o77000 0 0o1000).base + 0o1000 ∧
        (bank 0o76777 0 0o1000).base + 0o1000 < fixtureParams.storageSize) := by decide

theorem witness_StepFaults :
    (∃ c d r, (inSlot 12 voidBank (basic 0)).running = true ∧ (inSlot 12 voidBank (basic 0)).discard.fetch = .raised c d r) ∧
      (∃ r e, (basic 0).discard.fetch = .ok 0 r ∧ decode (basic 0).mode 0 = .error e ∧
        (basic 0).recognized (fieldsOf 0) = false) ∧
      ({ basic 0 with params := { fixtureParams with recognized := [RecognizedCode.mk true 0 0 0] } } : State).recognized
        (fieldsOf 0) = true := ⟨⟨_, _, _, rfl, rfl⟩, ⟨_, _, rfl, rfl, rfl⟩, rfl⟩

theorem witness_StoppedStays : State.reset.running = false := rfl

theorem witness_StepKeepsSound : (basic 0o100000002000).Sound ∧ ∃ t, step (basic 0o100000002000) = .next t :=
  ⟨sound_basic _, _, rfl⟩

theorem witness_HostCallKeepsSound :
    ((basic 0).Sound ∧ (∃ t, hostCall .stop (basic 0) = .next t) ∧ ∃ t, hostCall (.post 31 5) (basic 0) = .next t) ∧
      State.reset.running = false ∧ (voidBank.isVoid = true ∧ voidBank.base < 2 ^ State.reset.params.absAddrBits) ∧
      ((bank (2 ^ 36 - 1) 5 5).lower ≤ (bank (2 ^ 36 - 1) 5 5).upper ∧
        (bank (2 ^ 36 - 1) 5 5).base < 2 ^ State.reset.params.absAddrBits) ∧
      ((bank 0 6 5).isVoid = false ∧ (bank 0 6 5).upper < (bank 0 6 5).lower) ∧
      2 ^ State.reset.params.absAddrBits ≤ (bank (2 ^ 36) 0 0).base ∧ State.reset.memory.wf ∧
      2 ^ 36 - 1 + [(5 : Word)].length ≤ State.reset.params.storageSize :=
  ⟨⟨sound_basic 0, ⟨_, rfl⟩, _, rfl⟩, rfl, by decide, by decide, by decide, by decide, reset_memory_wf, by decide⟩

theorem witness_WritesOnlyItsDRBits :
    (∃ t, exec (.jdf (at18 0o1500)) (basic 0) = .next t) ∧ ∃ t, exec .ur (handled (basic 0)) = .next t := ⟨⟨_, rfl⟩, _, rfl⟩

/-- An LD that changes the privilege, and an entry that does. -/
theorem witness_PrivilegeChanges :
    (∃ t, step (word 0o2000 0o14000000 (basic 0o736620002000) |> word 0o2000 0o16000000) = .next t ∧ t.pp ≠ (basic 0).pp) ∧
      (∃ t, step (handled (basic 0o100000002000) |> dr 0o6000000 |> inSlot 13 voidBank |> word 0o70011 0o1500) = .next t ∧
        t.pp ≠ (dr 0o6000000 (basic 0)).pp) ∧
      ∃ t, hostCall (.setDR 0o4000000) State.reset = .next t ∧ t.pp ≠ State.reset.pp :=
  ⟨⟨_, rfl, by decide⟩, ⟨_, rfl, by decide⟩, _, rfl, by decide⟩

theorem witness_BaseRegistersByInstallOnly :
    (∃ t, step (basic 0o100000002000) = .next t) ∧
      ∃ t, hostCall (.installBaseRegister 15 (bank 0 0 0)) State.reset = .next t ∧ t.br ≠ State.reset.br :=
  ⟨⟨_, rfl⟩, _, rfl, by decide⟩

theorem witness_KeyAndParameters :
    (∃ t, step (basic 0o100000002000) = .next t) ∧ ∃ t, hostCall (.setKey (AccessKey.mk 3 1)) State.reset = .next t :=
  ⟨⟨_, rfl⟩, _, rfl⟩

/-- A specifier with an increment of X1, and one that is indirect. -/
def bumping : AddrSpec := AddrSpec.mk 1 true false 0o2000
def indirect : AddrSpec := AddrSpec.mk 0 false true 0o2000

theorem witness_ResolverWrites :
    Answers ((basic 0).operandLoc Perms.write bumping) ∧ Answers ((basic 0).operandLocs Perms.read bumping) ∧
      Answers ((basic 0).operand 15 bumping) ∧ Answers ((basic 0).target bumping) ∧
      Answers ((basic 0).locate 0o2000 Perms.readWrite) :=
  ⟨⟨_, _, rfl⟩, ⟨_, _, rfl⟩, ⟨_, _, rfl⟩, ⟨_, _, rfl⟩, _, _, rfl⟩

theorem witness_PostIncrement :
    ((basic 0).dr.getLsbD 33 = false ∧ (dr 0o100002000000 (basic 0)).dr.getLsbD 33 = true) ∧
      ((at18 0o2000).x = 0 ∧ bumping.x ≠ 0 ∧ bumping.h = true ∧ (AddrSpec.mk 1 false false 0).x ≠ 0 ∧
        (AddrSpec.mk 1 false false 0).h = false) ∧ (127 : Fin 128) ≠ (basic 0).xCell 1 := by decide

theorem witness_ImmediateOperand :
    (0o2003 : BitVec 18) = (if bumping.x = 0 then BitVec.ofBool bumping.h ++ BitVec.ofBool bumping.i ++ bumping.u
        else BitVec.ofNat 18 ((bumping.u.toNat + (cell 1 3 (basic 0)).modifier ((cell 1 3 (basic 0)).readX bumping.x)) %
          2 ^ (if (basic 0).dr.getLsbD 33 then 24 else 18))) ∧
      (0o602000 : BitVec 18) = BitVec.ofBool true ++ BitVec.ofBool true ++ (0o2000 : BitVec 16) := by decide

theorem witness_RegisterOperand :
    ((basic 0).basicMode = true ∧ (basic 0).indexed 0o177 (at18 0o177) = 0o177 ∧ (basic 0).pp = 0) ∧
      ((extended 0).basicMode = false ∧ (at18 0o177).x = 0 ∧ (at18 0o177).b = 0 ∧ (at18 0o177).d.toNat = 0o177) ∧
      ((dr 0o16000000 (basic 0)).pp ≠ 0 ∧ (dr 0o16000000 (basic 0)).indexed 0o120 (at18 0o120) = 0o120 ∧
        (dr 0o16000000 (basic 0)).indexed 0o117 (at18 0o117) = 0o117) := by decide

/-- The clauses of `BankChecks` at their boundaries, for a location at relative address 0777: `StorageOperand`, `Indirection`
and `StoreLocationJump` say it of their locations. The special permissions hold for the same domain or a lower ring. -/
theorem witness_BankChecks :
    voidBank.isVoid = true ∧ 0o777 < (bank 0 0o1000 0o1000).lower ∧ (bank 0 0 0o776).upper < 0o777 ∧
      ¬Permits (granted { bank 0 0 0o777 with sap := Perms.read } (AccessKey.mk 0 0)) Perms.write ∧
      Permits (granted (bank 0 0o777 0o777) (AccessKey.mk 0 0)) Perms.readWrite ∧
      granted { bank 0 0 0 with lock := AccessKey.mk 1 2, gap := Perms.read } (AccessKey.mk 0 5) = rights ∧
      granted { bank 0 0 0 with lock := AccessKey.mk 1 2, gap := Perms.read } (AccessKey.mk 3 2) = rights ∧
      granted { bank 0 0 0 with lock := AccessKey.mk 1 2, gap := Perms.read } (AccessKey.mk 1 5) = Perms.read ∧
      fixtureParams.storageSize ≤ (bank 0o77001 0 0o777).base + 0o777 ∧
      (bank 0o77000 0 0o777).base + 0o777 < fixtureParams.storageSize := by unfold Permits; decide

/-- A basic-mode operand at 02000 and an extended-mode operand at the last word of B2. -/
theorem witness_StorageOperand :
    ((basic 0).basicMode = true ∧ (basic 0).indexed 0o2000 (at18 0o2000) = 0o2000 ∧
        (basic 0).basicBankSelect 0o2000 = some .b13) ∧
      ((extended 0).basicMode = false ∧ (extended 0).indexed 0o777 (at18 0o20777) = 0o777 ∧ (at18 0o20777).b = 2) ∧
      ((cell 5 1 (basic 0)).params = (basic 0).params ∧ (cell 5 1 (basic 0)).pp = (basic 0).pp) := by decide

/-- The double-word clauses: each failure of the first word, the last cells of each kind, the last word of a bank and of
storage, and the words before them. -/
theorem witness_StorageOperand_double :
    ((∃ c d r, (inSlot 13 voidBank (basic 0)).operandLoc Perms.read (at18 0o2000) = .raised c d r) ∧
      (∃ w, (dr 0o6000000 (basic 0)).operandLoc Perms.read (at18 0o120) = .refused w) ∧
      ∃ f, (inSlot 5 (bank 0o77777 0 0o777) (extended 0)).operandLoc Perms.read (at18 0o50005) = .stuck f) ∧
    ((∃ r, (basic 0).operandLoc Perms.write (at18 0o177) = .ok (.grs 127) r) ∧
      (∃ r, (basic 0).operandLoc Perms.write (at18 0o176) = .ok (.grs 126) r) ∧ (basic 0).pp = 0 ∧
      (dr 0o6000000 (basic 0)).pp ≠ 0 ∧
      (∃ r, (dr 0o6000000 (basic 0)).operandLoc Perms.write (at18 0o116) = .ok (.grs 78) r) ∧
      ∃ r, (dr 0o6000000 (basic 0)).operandLoc Perms.write (at18 0o117) = .ok (.grs 79) r) ∧
    (∃ r, (extended 0).operandLoc Perms.read (at18 0o20777) = .ok (.mem 2 0o777 0o20777) r ∧
      (extended 0).br[(2 : Fin 16)].upper < 0o777 + 1) ∧
    (∃ r, (inSlot 2 (bank 0o77000 0 0o1000) (extended 0)).operandLoc Perms.read (at18 0o20777) =
        .ok (.mem 2 0o777 0o77777) r ∧ (bank 0o77000 0 0o1000).upper = 0o777 + 1 ∧ fixtureParams.storageSize = 0o77777 + 1) ∧
    ∃ r, (extended 0).operandLoc Perms.read (at18 0o20776) = .ok (.mem 2 0o776 0o20776) r ∧
      (extended 0).br[(2 : Fin 16)].upper = 0o776 + 1 ∧ 0o20776 + 1 < fixtureParams.storageSize :=
  ⟨⟨⟨_, _, _, rfl⟩, ⟨_, rfl⟩, _, rfl⟩, ⟨⟨_, rfl⟩, ⟨_, rfl⟩, rfl, by decide, ⟨_, rfl⟩, _, rfl⟩, ⟨_, rfl, by decide⟩,
    ⟨_, rfl, by decide, by decide⟩, _, rfl, by decide, by decide⟩

theorem witness_OperandWithoutBank :
    ((basic 0).basicMode = true ∧ (basic 0).indexed 0o200 (at18 0o200) = 0o200 ∧ (basic 0).basicBankSelect 0o200 = none) ∧
      ((extended 0).basicMode = false ∧ (at18 0o200).b = 0 ∧ (at18 0o200).d.toNat = 0o200) ∧
      (AddrSpec.mk 1 false false 0).b = 0 := by decide

/-- The word at 02000 is an indirect word that names itself. -/
def looping : State := word 0o2000 0o202000 (basic 0)

theorem witness_Indirection :
    (∃ p t w u, indirect.i = true ∧ (basic 0).params.maxIndirect = 3 + 1 ∧
      ((basic 0).afterIndex indirect).place ((basic 0).indexed ((basic 0).operandDisp indirect) indirect) indirect = .ok p t ∧
        t.readChecked p = .ok w u) ∧
      ∃ p w, indirect.x = 0 ∧ looping.operandDisp indirect = 0o2000 ∧ looping.place 0o2000 indirect = .ok p looping ∧
        looping.readChecked p = .ok w looping ∧ specOf w = indirect ∧ looping.basicMode = true :=
  ⟨⟨_, _, _, _, rfl, rfl, rfl, rfl⟩, _, _, rfl, rfl, rfl, rfl, by decide, rfl⟩

/-- A direct specifier, the places of a failing indirect word, and its fetch with each failure. -/
theorem witness_Indirection_failures :
    bumping.i = false ∧ indirect.i = true ∧ (extended 0).basicMode = false ∧ (basic 0).basicMode = true ∧
      (∃ c d r, (basic 0).place 0o200 (AddrSpec.mk 0 false true 0o200) = .raised c d r) ∧
      (∃ w, (dr 0o6000000 (basic 0)).place 0o120 (AddrSpec.mk 0 false true 0o120) = .refused w) ∧
      (∃ c d r, (inSlot 13 voidBank (basic 0)).readChecked (.mem 13 0o2000) = .raised c d r) ∧
      (∃ f, (inSlot 13 (bank 0o77777 0 0o7777) (basic 0)).readChecked (.mem 13 0o2000) = .stuck f) ∧
      ∃ w r, (basic 0).readChecked (.grs 127) = .ok w r :=
  ⟨rfl, rfl, rfl, rfl, ⟨_, _, _, rfl⟩, ⟨_, rfl⟩, ⟨_, _, _, rfl⟩, ⟨_, rfl⟩, _, _, rfl⟩

/-- The places at their boundaries: the last cell, the first address past the window, and the exec cells. -/
theorem witness_Indirection_places :
    ((basic 0).basicMode = true ∧ 0o177 < 0o200 ∧ (127 : Fin 128).val = 0o177 ∧ (basic 0).pp = 0) ∧
      ({ basic 0 with params := { fixtureParams with basicBanks := [BankRange.mk none none 0o200 0o200 .b14] } } :
        State).basicBankSelect 0o200 = some .b14 ∧
      ((extended 0).basicMode = false ∧ (at18 0o177).x = 0 ∧ (at18 0o177).b = 0 ∧ (at18 0o177).d.toNat = 0o177 ∧
        (at18 0o10000).b ≠ 0) ∧
      ((dr 0o6000000 (basic 0)).pp ≠ 0 ∧ (79 : Fin 128).val < 0o120 ∧ (80 : Fin 128).val = 0o120) := by decide

theorem witness_Indirection_target :
    indirect.i = true ∧ (basic 0).basicMode = true ∧
      ∃ p t w u, ((basic 0).afterIndex indirect).place ((basic 0).indexed indirect.u.toNat indirect) indirect = .ok p t ∧
        t.readChecked p = .ok w u := ⟨rfl, rfl, _, _, _, _, rfl, rfl⟩

theorem witness_DirectTarget : bumping.i = false ∧ indirect.i = true ∧ (extended 0).basicMode = false := ⟨rfl, rfl, rfl⟩

theorem witness_FailedResolution :
    (∃ c d r, resolution (.la 0 0 bumping) (inSlot 13 voidBank (basic 0)).discard = .raised c d r) ∧
      (∃ w, resolution (.j indirect) (extended 0).discard = .refused w) ∧
      ∃ f, resolution (.la 0 0 (at18 0o50005)) (inSlot 5 (bank 0o77777 0 0o777) (extended 0)).discard = .stuck f :=
  ⟨⟨_, _, _, rfl⟩, ⟨_, rfl⟩, _, rfl⟩

theorem witness_FieldStoreRead : 11 < Overlay.t2.width ∧ 11 < Overlay.t2.lo ∧ Overlay.t2.lo + Overlay.t2.width ≤ 24 := by
  decide

theorem witness_FieldStoreRead_operand :
    (basic 0).pw = [] ∧ (13 : BitVec 4).toNat < 0o16 ∧ Answers ((basic 0).operandLoc Perms.read bumping) ∧
      (∃ c d r, (inSlot 13 voidBank (basic 0)).operandLoc Perms.read (at18 0o2000) = .raised c d r) ∧
      (∃ w, (dr 0o6000000 (basic 0)).operandLoc Perms.read (at18 0o120) = .refused w) ∧
      ∃ f, (inSlot 5 (bank 0o77777 0 0o777) (extended 0)).operandLoc Perms.read (at18 0o50005) = .stuck f :=
  ⟨rfl, by decide, ⟨_, _, rfl⟩, ⟨_, _, _, rfl⟩, ⟨_, rfl⟩, _, rfl⟩

theorem witness_NoNegativeZeroRead :
    isFieldDesignator 13 = true ∧ isFieldDesignator 1 = true ∧ (1 : BitVec 4) ≠ 0 ∧ isFieldDesignator 14 = false ∧
      isFieldDesignator 15 = false ∧ Overlay.h1 ≠ .w := by decide

/-- The hypotheses of the loads, the logical instructions and the products: a field operand, and an immediate. -/
theorem witness_LoadResults :
    (basic 0).Quiet ∧ Answers ((basic 0).discard.operand 13 bumping) ∧ Answers ((basic 0).discard.operand 14 bumping) :=
  ⟨quiet_basic 0, ⟨_, _, rfl⟩, _, _, rfl⟩

/-- Register pairs, one of them overlapping A1 and A2, and a pair in storage. -/
theorem witness_PairMoveResults :
    (basic 0).Quiet ∧ (basic 0).memory.wf ∧ (1 : BitVec 4) ≠ 15 ∧
      (∃ r, (basic 0).discard.operandLocs Perms.read (at18 0o14) = .ok (.grs 12, .grs ((basic 0).aCell 1)) r) ∧
      Answers ((basic 0).discard.operandLocs Perms.read (at18 0o176)) ∧
      Answers ((basic 0).discard.operandLocs Perms.read (at18 0o7776)) ∧
      (∃ r, (basic 0).discard.operandLocs Perms.write (at18 0o15) = .ok (.grs ((basic 0).aCell (0 + 1)), .grs 14) r) ∧
      Answers ((basic 0).discard.operandLocs Perms.write (at18 0o7776)) :=
  ⟨quiet_basic 0, wf_basic 0, by decide, ⟨_, rfl⟩, ⟨_, _, rfl⟩, ⟨_, _, rfl⟩, ⟨_, rfl⟩, _, _, rfl⟩

theorem witness_StoreResults :
    (basic 0).Quiet ∧ (basic 0).memory.wf ∧ isFieldDesignator 13 = true ∧
      Answers ((basic 0).discard.operandLoc (storeAccess 13) bumping) ∧
      Answers ((basic 0).discard.operandLoc (storeAccess 0) (at18 0o177)) :=
  ⟨quiet_basic 0, wf_basic 0, rfl, ⟨_, _, rfl⟩, _, _, rfl⟩

theorem witness_ImmediateForms :
    (Instr.sa 14 0 (at18 5)).hasStoreField = false ∧ (Instr.inc 15 (at18 5)).hasStoreField = false ∧
      ((dr 0o6000000 (basic 0)).basicMode = true ∧ (dr 0o6000000 (basic 0)).pp ≠ 0) ∧ (extended 0).basicMode = false ∧
      (basic 0).pp = 0 := by decide

/-- A state in which overflow is a fault: A0 holds the largest number, and adding 1 overflows. -/
def faulting : State :=
  { basic 0 with
    grs := (State.reset.grs.set 12 0o377777777777).set 16 0o377777777777
    params := { fixtureParams with overflowIsFault := true } }

theorem witness_AddResults :
    (basic 0).Quiet ∧ Answers ((basic 0).discard.operand 14 bumping) ∧ (basic 0).params.overflowIsFault = false ∧
      (add36 0 0).ovf = false ∧ (14 : BitVec 4) ≠ 15 ∧ Answers ((basic 0).discard.operandLocs Perms.read (at18 0o7776)) :=
  ⟨quiet_basic 0, ⟨_, _, rfl⟩, rfl, rfl, by decide, _, _, rfl⟩

theorem witness_OverflowFaults :
    faulting.Quiet ∧ faulting.memory.wf ∧ faulting.params.overflowIsFault = true ∧
      (∃ u r, faulting.discard.operand 14 (at18 1) = .ok u r ∧ (add36 (r.readA 0) u).ovf = true) ∧
      (∃ l r, faulting.discard.operandLocs Perms.read (at18 0o14) = .ok l r ∧ (add72 (pairOf r 0) (wordsAt r l)).ovf = true) ∧
      (∃ l r, faulting.discard.operandLoc Perms.readWrite (at18 0o20) = .ok l r ∧
        (add36 (readField faulting.quarterWord 0 (r.readLoc l)) 1).ovf = true) ∧
      faulting.arithExceptionEnabled = false ∧ (dr 0o2000100 faulting).arithExceptionEnabled = true :=
  ⟨⟨rfl, rfl⟩, wf_basic 0, rfl, ⟨_, _, rfl, by decide⟩, ⟨_, _, rfl, by decide⟩, ⟨_, _, rfl, by decide⟩, rfl, rfl⟩

theorem witness_MultiplyResult :
    (basic 0).Quiet ∧ (14 : BitVec 4) ≠ 15 ∧ Answers ((basic 0).discard.operand 0 (at18 0o2000)) :=
  ⟨quiet_basic 0, by decide, _, _, rfl⟩

/-- A dividend of 2^35 - 1 and the divisor 1 give the largest quotient. -/
theorem witness_DivideResults :
    faulting.Quiet ∧ (∃ u r, (cell 13 0o377777777777 (basic 0)).discard.operand 14 (at18 1) = .ok u r ∧ val u ≠ 0 ∧
      ((val (pairOf r 0)).tdiv (val u)).natAbs ≤ 2 ^ 35 - 1) ∧
      ∃ u r, (cell 12 1 (basic 0)).discard.operand 14 (at18 2) = .ok u r ∧ val u ≠ 0 ∧
        ((val (r.readA 0) * 2 ^ 35).tdiv (val u)).natAbs ≤ 2 ^ 35 - 1 :=
  ⟨⟨rfl, rfl⟩, ⟨_, _, rfl, by decide, by decide⟩, _, _, rfl, by decide, by decide⟩

/-- A zero divisor, and a dividend of 2^35, whose quotient by 1 is the smallest that does not fit. -/
theorem witness_DivideCheckPaths :
    (∃ u r, (basic 0).discard.operand 14 (at18 0) = .ok u r ∧ val u = 0) ∧
      (∃ u r, (cell 13 0o400000000000 (basic 0)).discard.operand 14 (at18 1) = .ok u r ∧ val u ≠ 0 ∧
        2 ^ 35 - 1 < ((val (pairOf r 0)).tdiv (val u)).natAbs) ∧
      (basic 0).arithExceptionEnabled = false ∧ (basic 0).Quiet ∧ (dr 0o2000100 (basic 0)).arithExceptionEnabled = true :=
  ⟨⟨_, _, rfl, by decide⟩, ⟨_, _, rfl, by decide, by decide⟩, rfl, quiet_basic 0, rfl⟩

theorem witness_IncrementResults :
    (basic 0).Quiet ∧ (basic 0).memory.wf ∧ isFieldDesignator 0 = true ∧
      Answers ((basic 0).discard.operandLoc Perms.readWrite bumping) := ⟨quiet_basic 0, wf_basic 0, rfl, _, _, rfl⟩

theorem witness_CountedAddResults :
    (basic 0).Quiet ∧ (basic 0).memory.wf ∧ isFieldDesignator 13 = true ∧
      Answers ((basic 0).discard.operandLoc Perms.readWrite bumping) ∧ (basic 0).params.overflowIsFault = false :=
  ⟨quiet_basic 0, wf_basic 0, rfl, ⟨_, _, rfl⟩, rfl⟩

theorem witness_LogicalResults :
    (basic 0).Quiet ∧ (14 : BitVec 4) ≠ 15 ∧ Answers ((basic 0).discard.operand 15 bumping) :=
  ⟨quiet_basic 0, by decide, _, _, rfl⟩

theorem witness_ShiftResults :
    (basic 0).Quiet ∧ (14 : BitVec 4) ≠ 15 ∧ Answers ((basic 0).discard.target bumping) :=
  ⟨quiet_basic 0, by decide, _, _, rfl⟩

theorem witness_ShiftBits : (36 : Nat) = 36 ∧ 35 < 36 ∧ (72 : Nat) = 72 ∧ 71 < 72 := by decide

/-- A test that holds and one that does not, and the range test at its boundary. -/
theorem witness_CompareTests :
    (basic 0).Quiet ∧ (14 : BitVec 4) ≠ 15 ∧ Answers ((basic 0).discard.operand 15 bumping) ∧
      ∃ u r, (cell 13 1 (basic 0)).discard.operand 14 (at18 1) = .ok u r ∧ val (r.readA 0) < val u ∧
        val u ≤ val (r.readA (0 + 1)) ∧ val u ≠ val (r.readA 0) :=
  ⟨quiet_basic 0, by decide, ⟨_, _, rfl⟩, _, _, rfl, by decide, by decide, by decide⟩

theorem witness_BasicTests :
    (basic 0).Quiet ∧ (∃ u r, (basic 0).discard.operand 14 (at18 0) = .ok u r ∧ u = 0 ∧ u.getLsbD 35 = false) ∧
      ∃ u r, (basic 0).discard.operand 15 (AddrSpec.mk 0 true true 0o177776) = .ok u r ∧ u ≠ 0 ∧ u.getLsbD 35 = true :=
  ⟨quiet_basic 0, ⟨_, _, rfl, by decide, by decide⟩, _, _, rfl, by decide, by decide⟩

theorem witness_MaskTests :
    (extended 0).Quiet ∧ (∃ u r, (extended 0).discard.operand 0 (at18 0o10000) = .ok u r ∧ u = 0) ∧
      ∃ u r, (word 0o10000 0o777777777777 (extended 0)).discard.operand 0 (at18 0o10000) = .ok u r ∧
        u = 0o777777777777 :=
  ⟨⟨rfl, rfl⟩, ⟨_, _, rfl, by decide⟩, _, _, rfl, by decide⟩

theorem witness_JumpResults :
    (basic 0).Quiet ∧ (14 : BitVec 4) ≠ 15 ∧ (∃ n r, (basic 0).discard.target bumping = .ok n r ∧ r.readA 0 = 0 ∧
      r.readA (0 + 1) = 0 ∧ r.dr.getLsbD 16 = false ∧ r.dr.getLsbD 17 = false) ∧
      ∃ n r, (cell 12 0o400000000000 (dr 0o2600000 (basic 0))).discard.target bumping = .ok n r ∧
        (r.readA 0).getLsbD 35 = true ∧ r.dr.getLsbD 16 = true ∧ r.dr.getLsbD 17 = true :=
  ⟨quiet_basic 0, by decide, ⟨_, _, rfl, by decide, by decide, rfl, rfl⟩, _, _, rfl, by decide, by decide, by decide⟩

theorem witness_DivideFaultJumps : (basic 0).Quiet ∧ Answers ((basic 0).discard.target indirect) :=
  ⟨quiet_basic 0, _, _, rfl⟩

theorem witness_IndexJumps : (basic 0).Quiet ∧ Answers ((basic 0).discard.target bumping) := ⟨quiet_basic 0, _, _, rfl⟩

theorem witness_CountJump :
    Answers ((basic 0).discard.target bumping) ∧ (basic 0).Quiet ∧ (basic 0).pp = 0 ∧ (jgdCell 7 15).val = 0o177 ∧
      (jgdCell 5 0).val = 0o120 ∧ (jgdCell 4 15).val < 0o120 ∧ (dr 0o6000000 (basic 0)).pp ≠ 0 ∧
      Answers ((dr 0o6000000 (basic 0)).discard.target bumping) :=
  ⟨⟨_, _, rfl⟩, quiet_basic 0, rfl, by decide, by decide, by decide, by decide, _, _, rfl⟩

theorem witness_StoreLocationJump :
    (basic 0).Quiet ∧ (basic 0).memory.wf ∧
      (∃ n q, (basic 0).discard.target (at18 0o2000) = .ok n q ∧ Answers (q.locate n Perms.readWrite)) ∧
      (∃ n q, (basic 0).discard.target (at18 0o177) = .ok n q ∧ Answers (q.locate n Perms.readWrite)) ∧
      (0o177 : BitVec 18).toNat < 0o200 ∧ 0o200 ≤ (0o200 : BitVec 18).toNat ∧ (basic 0).basicBankSelect 0o200 = none ∧
      (basic 0).basicBankSelect 0o1777 = some .b12 ∧ (basic 0).basicBankSelect 0o2000 = some .b13 :=
  ⟨quiet_basic 0, wf_basic 0, ⟨_, _, rfl, _, _, rfl⟩, ⟨_, _, rfl, _, _, rfl⟩, by decide, by decide, rfl, rfl, rfl⟩

theorem witness_TestAndSetResults :
    (basic 0).memory.wf ∧ (basic 0).Quiet ∧
      (∃ l r, (basic 0).discard.operandLoc Perms.readWrite (at18 0o2000) = .ok l r ∧ (r.readLoc l).getLsbD 30 = false) ∧
      ∃ l r, (cell 16 0o010000000000 (basic 0)).discard.operandLoc Perms.readWrite (at18 0o20) = .ok l r ∧
        (r.readLoc l).getLsbD 30 = true :=
  ⟨wf_basic 0, quiet_basic 0, ⟨_, _, rfl, by decide⟩, _, _, rfl, by decide⟩

theorem witness_HaltResult : (basic 0).pp = 0 ∧ (dr 0o16000000 (basic 0)).pp ≠ 0 := by decide

theorem witness_DesignatorAccess :
    ((∃ l r, (basic 0).discard.operandLoc Perms.read (at18 0o2000) = .ok l r ∧
        (r.readLoc l).getLsbD 19 ≠ (basic 0).basicMode) ∧
      ∃ l r, (word 0o2000 0o2000000 (basic 0)).discard.operandLoc Perms.read (at18 0o2000) = .ok l r ∧
        (r.readLoc l).getLsbD 19 = (basic 0).basicMode) ∧
      Answers ((basic 0).discard.operandLoc Perms.write (at18 0o2000)) ∧ (basic 0).pp = 0 ∧ (basic 0).pending = [] ∧
      (basic 0).stopRequested = false ∧ (dr 0o6000000 (basic 0)).pp ≠ 0 ∧
      Answers ((dr 0o6000000 (basic 0)).discard.operandLoc Perms.read (at18 0o2000)) :=
  ⟨⟨⟨_, _, rfl, by decide⟩, _, _, rfl, by decide⟩, ⟨_, _, rfl⟩, rfl, rfl, rfl, by decide, _, _, rfl⟩

/-- A state with one frame on the ICS. -/
def framed : State := handled (extended 0) |> cell 111 0o10 |> word 0o60000 0o1234

theorem witness_ReturnResult :
    framed.pp = 0 ∧ framed.pending = [] ∧ framed.stopRequested = false ∧
      0o10 = (framed.grs[framed.params.icsPointer].extractLsb' 0 18).toNat ∧ 0 + framed.params.icsFrameSize = 0o10 ∧
      0o60000 = framed.br[framed.params.icsSlot].base + 0 ∧ framed.br[framed.params.icsSlot].isVoid = false ∧
      framed.br[framed.params.icsSlot].lower ≤ 0 ∧ 0 + 1 ≤ framed.br[framed.params.icsSlot].upper ∧
      (granted framed.br[framed.params.icsSlot] framed.key).r = true ∧ 0o60000 + 1 < framed.params.storageSize ∧
      (framed.memory.read (0o60000 + 1)).getLsbD 19 = false ∧
      framed.loadPB (framed.memory.read 0o60000) = .ok (bank 0 0o1000 0o1777) ∧
      ((word 0o60001 0o2000000 framed).memory.read (0o60000 + 1)).getLsbD 19 = true ∧ (dr 0o4000000 framed).pp ≠ 0 :=
  ⟨rfl, rfl, rfl, by decide, rfl, by decide, by decide, by decide, by decide, by decide, by decide, by decide, rfl, by decide,
    by decide⟩

theorem witness_ReturnStops :
    (extended 0).pp = 0 ∧ ((extended 0).grs[(extended 0).params.icsPointer].extractLsb' 0 18).toNat <
        (extended 0).params.icsFrameSize ∧
      ((inSlot 15 voidBank framed).br[(inSlot 15 voidBank framed).params.icsSlot].isVoid = true ∧ 0 < (bank 0 1 7).lower ∧
        (bank 0 0 0).upper < 0 + 1 ∧ (granted { bank 0 0 7 with sap := Perms.write } framed.key).r = false) ∧
      (inSlot 0 voidBank framed).loadPB 0 = .fails .vectorFault ∧
      (inSlot 0 voidBank framed).br[framed.params.icsSlot] = framed.br[framed.params.icsSlot] :=
  ⟨rfl, by decide, by decide, rfl, by decide⟩

theorem witness_PairRefused :
    (Instr.dl 15 (at18 0o2000)).pairInRange = false ∧
      (∃ r, resolution (.dl 15 (at18 0o2000)) (basic 0).discard = .ok () r) ∧
      (Instr.djz 15 bumping).pairInRange = false ∧ ∃ r, resolution (.djz 15 bumping) (basic 0).discard = .ok () r :=
  ⟨rfl, ⟨_, rfl⟩, rfl, _, rfl⟩

/-- Two pending classes, 19 and 20, the second deferred. -/
def waiting : State :=
  { handled (basic 0) with
    pending := [PendingInt.mk .breakpoint 1 (some 0o1000), PendingInt.mk .quantumTimer 2 none]
    memory := ((handled (basic 0)).memory).write 0o70023 0o1500 }

theorem wf_waiting : waiting.memory.wf := Memory.wf_write (Memory.wf_write (Memory.wf_write (wf_basic 0) _ _) _ _) _ _

theorem sound_waiting : waiting.Sound :=
  ⟨wf_waiting, by unfold State.pendingSorted; decide, ⟨by decide, rfl⟩, rfl, by unfold Params.admissible; decide⟩

theorem witness_PriorityAndDeferral :
    waiting.pendingSorted ∧ waiting.dueInterrupt = some (PendingInt.mk .breakpoint 1 (some 0o1000)) ∧
      (∃ t, waiting.interruptCheck = .next t) ∧
      { waiting with pending := [PendingInt.mk .quantumTimer 2 none] }.dueInterrupt = none :=
  ⟨sound_waiting.pending, rfl, ⟨_, rfl⟩, rfl⟩

theorem witness_EntryEffect :
    waiting.Sound ∧ waiting.stopRequested = false ∧
      ∃ p e, waiting.dueInterrupt = some p ∧ (waiting.removePending p.cls).entryChecks p.cls = .ok e ∧
        4 < waiting.params.icsFrameSize :=
  ⟨sound_waiting, rfl, _, _, rfl, rfl, by decide⟩

/-- Parameters with a pair for another class and the state's own DR and key. -/
theorem witness_EntryDesignator :
    ∀ q : Params, q = { waiting.params with
        entryDRs := [EntryDR.mk waiting.dr .signal 5], entryKeys := [EntryKey.mk waiting.key .signal (AccessKey.mk 1 1)] } →
      (∀ e ∈ q.entryDRs, e.before = waiting.dr → e.cls ≠ .breakpoint) ∧
        (∀ e ∈ q.entryKeys, e.before = waiting.key → e.cls ≠ .breakpoint) ∧
        (∃ e ∈ q.entryDRs, e.before = waiting.dr ∧ e.cls = .signal) ∧
        (∀ e ∈ q.entryDRs, e.before = waiting.dr → e.cls = .signal → e.after = 5) ∧
        (∃ e ∈ q.entryKeys, e.before = waiting.key ∧ e.cls = .signal) ∧
        ∀ e ∈ q.entryKeys, e.before = waiting.key → e.cls = .signal → e.after = AccessKey.mk 1 1 := by
  rintro _ rfl
  decide

theorem witness_EntryStops :
    (∃ r, ((basic 0).removePending .breakpoint).entryChecks .breakpoint = .fails r) ∧
      IntClass.signal ∈ ({ fixtureParams with stopOnInterrupt := [.signal] } : Params).stopOnInterrupt ∧
      IntClass.signal ∉ fixtureParams.stopOnInterrupt ∧ (basic 0).br[0].isVoid = true ∧
      19 < (bank 0 20 31).lower ∧ (bank 0 0 18).upper < 19 ∧
      ((cell 111 0o40 waiting).readVector .breakpoint = .ok 0o1500 ∧
        (cell 111 0o40 waiting).params.icsMaxEntries * (cell 111 0o40 waiting).params.icsFrameSize <
          (cell 111 0o40 waiting).icsPointer.toNat + (cell 111 0o40 waiting).params.icsFrameSize) ∧
      ((cell 111 0o30 waiting).icsPointer.toNat + (cell 111 0o30 waiting).params.icsFrameSize ≤
          (cell 111 0o30 waiting).params.icsMaxEntries * (cell 111 0o30 waiting).params.icsFrameSize ∧
        (bank 0 0 0o36).upper + 1 < 0o30 + 0o10) :=
  ⟨⟨_, rfl⟩, by decide, by decide, rfl, by decide, by decide, ⟨rfl, by decide⟩, by decide⟩

/-- A handler whose PB cannot be reloaded: its descriptor is invalid. -/
def unloadable : State := { waiting with params := { waiting.params with descriptors := [] } }

theorem witness_EntryStops_reload :
    (IntClass.breakpoint ∉ unloadable.params.stopOnInterrupt ∧ unloadable.readVector .breakpoint = .ok 0o1500 ∧
      unloadable.icsPointer.toNat + unloadable.params.icsFrameSize ≤
        unloadable.params.icsMaxEntries * unloadable.params.icsFrameSize ∧
      unloadable.checkICS unloadable.icsPointer.toNat unloadable.params.icsFrameSize Perms.write = .ok 0o60000 ∧
      (unloadable.entryDR .breakpoint).getLsbD 19 = false ∧ unloadable.loadPB 0o1500 = .fails .vectorFault) ∧
    ((0o1500 : Word).extractLsb' 33 3 = 0 ∧ ((0o700000000000 : Word).extractLsb' 33 3).toNat = (6 : Fin 7).val + 1) ∧
    (0 < (bank 0 1 7).lower ∧ (bank 0 0 6).upper < 0 + 7) ∧
    (waiting.br[(0 : Fin 16)].isVoid = false ∧ waiting.br[(0 : Fin 16)].lower ≤ 0 ∧ 0 + 7 ≤ waiting.br[(0 : Fin 16)].upper ∧
      fixtureParams.storageSize ≤ (bank 0o77771 0 0o37).base + 0 + 7 ∧
      (∀ n : Fin 8, (Vector.replicate 8 (0 : Word))[n] = waiting.memory.read (waiting.br[(0 : Fin 16)].base + 0 + n.val)) ∧
      waiting.br[(0 : Fin 16)].base + 0 + 7 < waiting.params.storageSize ∧
      unloadable.decodeBankDescriptor (Vector.replicate 8 0) = none ∧
      waiting.decodeBankDescriptor (Vector.replicate 8 0) = some (bank 0 0o1000 0o1777)) :=
  ⟨⟨by decide, rfl, by decide, rfl, rfl, rfl⟩, by decide, by decide, rfl, by decide, by decide, by decide, by decide, by decide,
    rfl, rfl⟩

theorem witness_EntryThenReturn :
    ∃ e pb, { waiting with pending := [] }.Sound ∧ { waiting with pending := [] }.entryChecks .breakpoint = .ok e ∧
      ({ waiting with pending := [] }.applyEntry (PendingInt.mk .breakpoint 1 (some 0o1000)) e).pp = 0 ∧
      (granted waiting.br[waiting.params.icsSlot] (waiting.entryKey .breakpoint)).r = true ∧
      waiting.dr.getLsbD 19 = true ∧ (dr 0 waiting).dr.getLsbD 19 = false ∧
      ({ dr 0 waiting with pending := [] }.applyEntry (PendingInt.mk .breakpoint 1 (some 0o1000)) e).loadPB 0o1000 = .ok pb :=
  ⟨_, _, ⟨wf_waiting, List.Pairwise.nil, sound_waiting.banks, rfl, sound_waiting.params⟩, rfl, rfl, rfl, rfl, rfl, rfl⟩

/-- The outcomes of a vector's read and of the ICS check at their boundaries: class 19 in a table of 20 words, the last word of
storage and the one after it, and a frame that ends with its bank. -/
theorem witness_EntryStops_checks :
    ((bank 0 19 19).lower ≤ 19 ∧ 19 ≤ (bank 0 19 19).upper ∧ (bank 0 19 19).isVoid = false) ∧
      (fixtureParams.storageSize ≤ (bank (0o100000 - 19) 19 19).base + 19 ∧
        (bank (0o77777 - 19) 19 19).base + 19 < fixtureParams.storageSize) ∧
      ((bank 0 8 15).lower ≤ 8 ∧ 8 + 8 ≤ (bank 0 8 15).upper + 1) ∧
      Permits (granted (bank 0 8 15) (AccessKey.mk 0 0)) Perms.write := by unfold Permits; decide

theorem witness_PostResults :
    waiting.pendingSorted ∧ IntClass.ofNumber 21 = none ∧ IntClass.ofNumber 8 = some .referenceViolation ∧
      IntClass.ofNumber 19 = some .breakpoint ∧ IntClass.ofNumber 2 = some .diagnostic ∧
      IntClass.ofNumber 20 = some .quantumTimer := ⟨sound_waiting.pending, rfl, rfl, rfl, rfl, rfl⟩

theorem witness_HostStop :
    (basic 0).running = true ∧ State.reset.running = false ∧
      ({ basic 0 with stopRequested := true }.running = true ∧ { basic 0 with stopRequested := true }.stopRequested = true ∧
        { basic 0 with stopRequested := true }.dueInterrupt = none) ∧
      (∃ p e t, { waiting with stopRequested := true }.running = true ∧
        { waiting with stopRequested := true }.dueInterrupt = some p ∧
        ({ waiting with stopRequested := true }.removePending p.cls).entryChecks p.cls = .ok e ∧
        { waiting with stopRequested := true }.interruptCheck = .next t) ∧
      HostCall.start ≠ .stop ∧ ∀ n d, HostCall.start ≠ .post n d :=
  ⟨rfl, rfl, ⟨rfl, rfl, rfl⟩, ⟨_, _, _, rfl, rfl, rfl, rfl⟩, by decide, fun _ _ h => by cases h⟩

end Sys2Proof.Tests
end

section
/-! Partial-word reads and stores through `j` (spec/00_scope.md R11, R12; spec/20_memory.md R104, R105): the bits of each
overlay operation, the row of the partial-word table that a designator names, and the pending-visible value of a cell. -/

namespace Sys2Proof

/-! ### Overlay fields (R11) -/

/-- A field lies in its word. -/
theorem Overlay.lo_add_width_le (o : Overlay) : o.lo + o.width ≤ 36 := by cases o <;> decide

theorem Overlay.width_pos (o : Overlay) : 0 < o.width := by cases o <;> decide

/-- Only the whole word has the width of a word. -/
theorem Overlay.width_lt {o : Overlay} (h : o ≠ .w) : o.width < 36 := by
  cases o with
  | w => exact absurd rfl h
  | _ => decide

theorem Overlay.getLsbD_mask (o : Overlay) (k : Nat) :
    o.mask.getLsbD k = decide (o.lo ≤ k ∧ k < o.lo + o.width) := by
  have hin := o.lo_add_width_le
  rw [Overlay.mask, BitVec.getLsbD_shiftLeft, BitVec.getLsbD_setWidth, BitVec.getLsbD_allOnes, Bool.eq_iff_iff]
  simp only [Bool.and_eq_true, Bool.not_eq_true', decide_eq_true_eq, decide_eq_false_iff_not]
  omega

/-- A store writes the bits of the field with the low bits stored, and keeps the others (R105). -/
theorem Overlay.getLsbD_put (o : Overlay) (v x : Word) (k : Nat) :
    (o.put v x).getLsbD k = if o.lo ≤ k ∧ k < o.lo + o.width then x.getLsbD (k - o.lo) else v.getLsbD k := by
  have hin := o.lo_add_width_le
  simp only [Overlay.put, BitVec.getLsbD_or, BitVec.getLsbD_and, BitVec.getLsbD_not, BitVec.getLsbD_shiftLeft,
    Overlay.getLsbD_mask]
  by_cases hk : o.lo ≤ k ∧ k < o.lo + o.width
  · have hword : k < 36 := by omega
    simp [hk, hword]
  · by_cases hword : k < 36
    · simp [hk, hword]
    · simp [hk, hword, BitVec.getLsbD_of_ge v k (by omega)]

theorem Overlay.getLsbD_getZ (o : Overlay) (v : Word) (k : Nat) :
    (o.getZ v).getLsbD k = (decide (k < o.width) && v.getLsbD (o.lo + k)) := by
  have hin := o.lo_add_width_le
  rw [Overlay.getZ, BitVec.getLsbD_setWidth, BitVec.getLsbD_extractLsb']
  by_cases hk : k < o.width
  · have hword : k < 36 := by omega
    simp [hk, hword]
  · simp [hk]

/-- A stored field reads back, with zeros above it, as the low bits stored. -/
theorem Overlay.getLsbD_getZ_put (o : Overlay) (v x : Word) (k : Nat) :
    (o.getZ (o.put v x)).getLsbD k = (decide (k < o.width) && x.getLsbD k) := by
  rw [Overlay.getLsbD_getZ, Overlay.getLsbD_put]
  by_cases hk : k < o.width
  · rw [if_pos (by omega), Nat.add_sub_cancel_left]
  · simp [hk]

/-! ### Sign extension (R12) -/

theorem canon_ne_negZero (v : Word) : canon v ≠ negZero := by
  unfold canon
  split
  · decide
  · assumption

/-- A field narrower than a word, extended with zeros, is not negative zero: bit 35 is clear. -/
theorem setWidth_ne_negZero {n : Nat} (hn : n < 36) (x : BitVec n) : x.setWidth 36 ≠ negZero := by
  intro h
  have hbit := congrArg (·.getLsbD 35) h
  simp [BitVec.getLsbD_of_ge x 35 (by omega)] at hbit

/-- A field of all ones is the negative zero that R12 replaces. -/
theorem Overlay.getS_allOnes (o : Overlay) : o.getS (BitVec.allOnes 36) = 0 := by
  have hin := o.lo_add_width_le
  have hpos := o.width_pos
  have hfield : (BitVec.allOnes 36).extractLsb' o.lo o.width = BitVec.allOnes o.width := by
    apply BitVec.eq_of_getLsbD_eq
    intro k hk
    have hword : o.lo + k < 36 := by omega
    simp only [BitVec.getLsbD_extractLsb', BitVec.getLsbD_allOnes, hk, hword, decide_true, Bool.and_self]
  have hext : (BitVec.allOnes o.width).signExtend 36 = negZero := by
    apply BitVec.eq_of_getLsbD_eq
    intro k hk
    simp [BitVec.getLsbD_signExtend, BitVec.msb_allOnes hpos, hk]
  rw [Overlay.getS, hfield, hext, canon, if_pos rfl]

theorem isFieldDesignator_iff (j : BitVec 4) : isFieldDesignator j = true ↔ j.toNat < 0o16 := by
  revert j; decide

end Sys2Proof

namespace Sys2Proof.Machine

/-! ### The partial-word table (R104) -/

/-- The field that a designator below 016 names stands where R11 puts it, reads as the table's row, and is a part of the word
unless the designator is 00. -/
theorem designated_spec (qw : Bool) {j : BitVec 4} (h : j.toNat < 0o16) :
    ∃ o sx, designated qw j = some (o, sx) ∧ fieldPlace qw j.toNat = (o.lo, o.width) ∧ (j.toNat ≠ 0 → o ≠ .w) ∧
      ∀ v, fieldTable qw v j.toNat = if sx then o.getS v else o.getZ v := by
  unfold designated
  generalize j.toNat = n at h
  interval_cases n
  · exact ⟨.w, false, rfl, rfl, by decide, fun v => by simp [fieldTable, Overlay.getZ, Overlay.lo, Overlay.width]⟩
  all_goals
    cases qw
    · exact ⟨_, _, rfl, rfl, by decide, fun v => rfl⟩
    · exact ⟨_, _, rfl, rfl, by decide, fun v => rfl⟩

theorem readField_eq_fieldTable (qw : Bool) {j : BitVec 4} (v : Word) (h : j.toNat < 0o16) :
    readField qw j v = fieldTable qw v j.toNat := by
  obtain ⟨o, sx, hd, -, -, htable⟩ := designated_spec qw h
  rw [readField, hd, htable]
  cases sx <;> rfl

theorem getLsbD_mergeField (qw : Bool) {j : BitVec 4} (v x : Word) (k : Nat) (h : j.toNat < 0o16) :
    (mergeField qw j v x).getLsbD k =
      if (fieldPlace qw j.toNat).1 ≤ k ∧ k < (fieldPlace qw j.toNat).1 + (fieldPlace qw j.toNat).2 then
        x.getLsbD (k - (fieldPlace qw j.toNat).1) else v.getLsbD k := by
  obtain ⟨o, sx, hd, hplace, -, -⟩ := designated_spec qw h
  rw [mergeField, hd, hplace]
  exact o.getLsbD_put v x k

/-- A read through a designator other than 00 is of a part of the word, so it is never negative zero (R12). -/
theorem readField_ne_negZero (qw : Bool) {j : BitVec 4} (v : Word) (h : j.toNat < 0o16) (h0 : j.toNat ≠ 0) :
    readField qw j v ≠ negZero := by
  obtain ⟨o, sx, hd, -, hpart, -⟩ := designated_spec qw h
  rw [readField, hd]
  cases sx with
  | true => exact canon_ne_negZero _
  | false => exact setWidth_ne_negZero (Overlay.width_lt (hpart h0)) _

/-- An immediate is 18 bits, extended with zeros or canonicalised (R107). -/
theorem immediateValue_ne_negZero (j : BitVec 4) (v : BitVec 18) : immediateValue j v ≠ negZero := by
  unfold immediateValue
  split
  · exact setWidth_ne_negZero (by decide) v
  · exact canon_ne_negZero _

/-! ### The operand of a field designator (spec/41_load_store.md R180) -/

section
variable {α β : Type}

/-- A bound computation fails as its first part does, and goes on with its value. -/
theorem goesOn_bind (x : Res α) (f : α → State → Res β) : GoesOn x (x.bind f) f := by
  refine ⟨⟨?_, ?_, ?_⟩, ?_⟩
  · rintro c d r rfl; rfl
  · rintro w rfl; rfl
  · rintro e rfl; rfl
  · rintro v r rfl; rfl

/-- How a computation goes on matters only at the values that its first part answers. -/
theorem GoesOn.congr {x : Res α} {y : Res β} {f g : α → State → Res β} (h : GoesOn x y f)
    (hfg : ∀ v r, x = .ok v r → f v r = g v r) : GoesOn x y g :=
  ⟨h.1, fun v r hx => (h.2 v r hx).trans (hfg v r hx)⟩

end

theorem State.operand_of_field (s : State) {j : BitVec 4} (m : AddrSpec) (h : isFieldDesignator j = true) :
    s.operand j m = (s.operandLoc Perms.read m).bind fun l r => .ok (readField r.quarterWord j (r.readLoc l)) r :=
  if_pos h

/-- A resolution keeps the DR. -/
theorem State.dr_of_operandLoc {s r : State} {acc : Perms} {m : AddrSpec} {l : Loc} (h : s.operandLoc acc m = .ok l r) :
    r.dr = s.dr := by
  have hres := resolves_operandLoc s acc m
  rw [h] at hres
  obtain ⟨-, hdr, -⟩ := hres.fields
  exact hdr

/-- The operand is the word of the resolved location read through the table, with the quarter-word bit at the start. -/
theorem State.operand_goesOn (s : State) {j : BitVec 4} (m : AddrSpec) (h : j.toNat < 0o16) :
    GoesOn (s.operandLoc Perms.read m) (s.operand j m)
      fun l r => .ok (fieldTable (s.dr.getLsbD 3) (r.readLoc l) j.toNat) r := by
  rw [s.operand_of_field m ((isFieldDesignator_iff j).2 h)]
  refine (goesOn_bind _ _).congr fun l r hr => ?_
  rw [readField_eq_fieldTable _ _ h, State.quarterWord, State.dr_of_operandLoc hr]

/-! ### The pending-visible value of a cell (spec/10_state.md R26) -/

/-- One more pending write falls over what the cell read as before it. -/
theorem State.readGrs_pend (s : State) (w : PendingWrite) (n : Fin 128) :
    (s.pend w).readGrs n = overlayGrs n (s.readGrs n) w := by
  simp [State.readGrs, List.foldl_append]

theorem State.readGrs_of_pw_nil {s : State} (h : s.pw = []) (n : Fin 128) : s.readGrs n = s.grs[n] := by
  rw [State.readGrs, h, List.foldl_nil]

/-! ### The statements -/

/-- Settles O23: the bits of the overlay operations, the table row of a designator, and the operand as a bound resolution. -/
theorem fieldStoreRead : Obligations.FieldStoreRead := by
  unfold Obligations.FieldStoreRead
  refine ⟨fun o v x k => ⟨fun hk => ?_, fun hk => ?_, o.getLsbD_getZ_put v x k⟩,
    fun qw j v x k h => ⟨readField_eq_fieldTable qw v h, getLsbD_mergeField qw v x k h⟩,
    fun s j m => ⟨isFieldDesignator_iff j, s.operand_goesOn m⟩,
    fun s => ⟨fun _ => rfl, fun _ _ _ => rfl, State.readGrs_of_pw_nil, fun w n => ?_⟩⟩
  · rw [o.getLsbD_put, if_pos (by omega), Nat.add_sub_cancel_left]
  · rw [o.getLsbD_put, if_neg (by omega)]
  · cases w with
    | grs k v => exact s.readGrs_pend (.grs k v) n
    | mem a v => exact s.readGrs_pend (.mem a v) n
    | dr mask v survives => exact s.readGrs_pend (.dr mask v survives) n

/-- Settles O24: a part of a word extended with zeros leaves bit 35 clear, and a sign extension is canonicalised. -/
theorem noNegativeZeroRead : Obligations.NoNegativeZeroRead := by
  unfold Obligations.NoNegativeZeroRead
  refine ⟨fun qw j v hfield hj => ?_, fun j v _ => immediateValue_ne_negZero j v, fun o _ => o.getS_allOnes⟩
  have hzero : j.toNat ≠ 0 := fun h => hj (BitVec.eq_of_toNat_eq h)
  exact readField_ne_negZero qw v ((isFieldDesignator_iff j).1 hfield) hzero

end Sys2Proof.Machine
end

section
/-! What a step can come to, and what it keeps (spec/10_state.md; spec/40_cycle.md R160): the state at the InterruptCheck of a
step, what InterruptCheck then does to it, and the fields that host calls leave alone. -/

namespace Sys2Proof.Machine

/-! ### The DR after pending writes that stay within some bits (R29) -/

/-- One write within the bits `D` keeps the others. -/
theorem applyDr_and_not {D : Word} {w : PendingWrite} (h : w.within D) (d : Word) :
    applyDr d w &&& ~~~D = d &&& ~~~D := by
  cases w with
  | dr mask v survives =>
    apply BitVec.eq_of_getLsbD_eq
    intro k hk
    have hmask : mask.getLsbD k = true → D.getLsbD k = true := fun hm => by
      simpa [hm, hk] using congrArg (·.getLsbD k) (show mask &&& ~~~D = 0 from h)
    simp only [applyDr, BitVec.getLsbD_and, BitVec.getLsbD_or, BitVec.getLsbD_not, hk, decide_true, Bool.true_and]
    by_cases hm : mask.getLsbD k = true
    · simp [hmask hm]
    · simp [hm]
  | _ => rfl

theorem foldl_applyDr_and_not {D : Word} (l : List PendingWrite) (h : ∀ w ∈ l, w.within D) (d : Word) :
    l.foldl applyDr d &&& ~~~D = d &&& ~~~D := by
  induction l generalizing d with
  | nil => rfl
  | cons w l ih =>
    rw [List.foldl_cons, ih (fun w hw => h w (List.mem_cons_of_mem _ hw)), applyDr_and_not (h w List.mem_cons_self)]

/-! ### The state at the InterruptCheck of a step (R160) -/

/-- The state `u` at the InterruptCheck of a step from `s`, or at the stop that takes its place: besides what `AtCheck` says, the
DR differs within the bits `D` only, and `u` is sound if `s` is. -/
structure ReachesCheck (D : Word) (s u : State) : Prop extends AtCheck s u where
  dr : u.dr &&& ~~~D = s.dr &&& ~~~D
  sound : s.Sound → u.Sound

section
variable {D : Word} {s t u : State}

/-- A raise keeps some of the pending writes, so what is left stays within the same bits. -/
theorem Grows.keepSurvivors (h : Grows D s.discard t) : Grows D s.discard t.keepSurvivors :=
  { h with
    writes := by
      obtain ⟨l, hpw, hwithin⟩ := h.writes
      exact ⟨t.pw.filter PendingWrite.survives, rfl, fun w hw => hwithin w (by simpa [hpw] using List.mem_of_mem_filter hw)⟩ }

theorem Grows.discard (h : Grows D s.discard t) : Grows D s.discard t.discard :=
  { h with writes := ⟨[], rfl, fun _ hw => absurd hw List.not_mem_nil⟩ }

/-- The pending writes of an instruction, performed. -/
theorem Grows.reachesCheck (h : Grows D s.discard t) : ReachesCheck D s t.commit where
  br := t.commit_br.trans h.br
  key := t.commit_key.trans h.key
  running := t.commit_running.trans h.running
  stopReason := t.commit_stopReason.trans h.stopReason
  stopDetail := t.commit_stopDetail.trans h.stopDetail
  stopRequested := t.commit_stopRequested.trans h.stopRequested
  params := t.commit_params.trans h.params
  pw := t.commit_pw
  pending := .inl (t.commit_pending.trans h.pending)
  dr := by
    obtain ⟨l, hpw, hwithin⟩ := h.writes
    rw [t.commit_dr, h.dr, hpw]
    exact foldl_applyDr_and_not l hwithin s.dr
  sound hs := State.sound_commit (hs.discard.of_grows h)

theorem ReachesCheck.withPar (h : ReachesCheck D s u) (par : Word) : ReachesCheck D s { u with par := par } :=
  { h with sound := fun hs => (h.sound hs).withPar par }

/-- A raise makes its class pending with the PAR of the step's instruction (R173). -/
theorem ReachesCheck.addPending (h : ReachesCheck D s u) (hpending : u.pending = s.pending) (c : IntClass) (d : Word) :
    ReachesCheck D s (u.addPending (PendingInt.mk c d (some s.par))) :=
  { h with
    pending := .inr ⟨c, d, congrArg (insertPending _) hpending⟩
    sound := fun hs => (h.sound hs).addPending _ }

/-- A raise drops the pending writes but the survivors, performs these, and takes its interrupt at an InterruptCheck (R173). -/
theorem Grows.takeSync (h : Grows D s.discard t) (c : IntClass) (d : Word) :
    ∃ u, ReachesCheck D s u ∧ t.keepSurvivors.commit.takeSync c d = u.interruptCheck := by
  have hkept := h.keepSurvivors
  have hpar : t.keepSurvivors.commit.par = s.par := t.keepSurvivors.commit_par.trans hkept.par
  refine ⟨_, hkept.reachesCheck.addPending (t.keepSurvivors.commit_pending.trans hkept.pending) c d, ?_⟩
  rw [State.takeSync, hpar]

/-- The end of an instruction that answers a next state: an InterruptCheck, or the stop of a HALT or of a fatal condition. -/
theorem Res.finish_cases {x : Res Act} (hx : x.Grown D s.discard) (h : x.finish = .next t) :
    ∃ u, ReachesCheck D s u ∧ (x.finish = u.interruptCheck ∨ ∃ r d, t = u.stopWith r d) := by
  cases x with
  | ok act r =>
    refine ⟨r.writeback act, (Grows.reachesCheck hx).withPar _, ?_⟩
    cases act with
    | halt d => cases h; exact .inr ⟨_, _, rfl⟩
    | _ => exact .inl rfl
  | raised c d r =>
    obtain ⟨u, hu, hcheck⟩ := Grows.takeSync hx c d
    exact ⟨u, hu, .inl hcheck⟩
  | fatal e d r => cases h; exact ⟨_, (Grows.discard hx).reachesCheck, .inr ⟨e, d, rfl⟩⟩
  | refused w => cases h
  | stuck f => cases h

/-- The end of a step that answers a next state: a stopped IP that stays so, an InterruptCheck, or a stop in its place. -/
theorem step_ends (h : step s = .next t) :
    t = s ∨ ∃ D u, ReachesCheck D s u ∧ (step s = u.interruptCheck ∨ ∃ r d, t = u.stopWith r d) := by
  rcases step_cases h with ⟨-, hstay⟩ | ⟨c, d, hsync⟩ | ⟨w, r, i, -, -, hexec⟩
  · exact .inl hstay
  · obtain ⟨u, hu, hcheck⟩ := Grows.takeSync (Grows.refl 0 s.discard) c d
    exact .inr ⟨0, u, hu, .inl (hsync.trans hcheck)⟩
  · obtain ⟨x, hx, hgrown⟩ := exec_eq_finish i s
    have hfinish : step s = x.finish := hexec.trans hx
    rw [hfinish] at h ⊢
    exact .inr ⟨drBits i, Res.finish_cases hgrown h⟩

/-! ### What InterruptCheck does (R167) -/

theorem State.honourStop_keeps (s : State) :
    s.honourStop.dr = s.dr ∧ s.honourStop.br = s.br ∧ s.honourStop.key = s.key ∧ s.honourStop.params = s.params := by
  rcases s.honourStop_cases with hstop | ⟨-, -, hstop⟩ <;> rw [hstop] <;> exact ⟨rfl, rfl, rfl, rfl⟩

theorem State.interruptCheck_keeps (h : s.interruptCheck = .next t) : t.br = s.br ∧ t.params = s.params := by
  rcases State.interruptCheck_cases h with ⟨-, rfl⟩ | ⟨p, -, ⟨e, -, rfl⟩ | ⟨r, -, rfl⟩⟩
  all_goals
    obtain ⟨-, hbr, -, hparams⟩ := State.honourStop_keeps _
    exact ⟨hbr, hparams⟩

theorem State.interruptCheck_sound (hs : s.Sound) (h : s.interruptCheck = .next t) : t.Sound := by
  rcases State.interruptCheck_cases h with ⟨-, rfl⟩ | ⟨p, -, ⟨e, he, rfl⟩ | ⟨r, -, rfl⟩⟩
  · exact hs.honourStop
  · exact ((hs.removePending p.cls).applyEntry he).honourStop
  · exact ((hs.removePending p.cls).stopEntry p r).honourStop

/-- Only an entry writes the DR and the access key: it gives the key of R400. -/
theorem ReachesCheck.keeps_or_enters (hu : ReachesCheck D s u) {x : Result} (hx : x = u.interruptCheck) (h : x = .next t) :
    t.dr = u.dr ∧ t.key = u.key ∨ ∃ p, Enters x s u p t ∧ t.key = u.entryKey p.cls := by
  rcases State.interruptCheck_cases (hx.symm.trans h) with ⟨-, ht⟩ | ⟨p, hdue, ⟨e, he, ht⟩ | ⟨r, -, ht⟩⟩
  all_goals
    obtain ⟨hdr, -, hkey, -⟩ := State.honourStop_keeps _
    rw [← ht] at hdr hkey
  · exact .inl ⟨hdr, hkey⟩
  · exact .inr ⟨p, ⟨hu.toAtCheck, hx, hdue, e, he, ht⟩, hkey⟩
  · exact .inl ⟨hdr, hkey⟩

end

/-- The key that an entry gives depends on the key and on the parameters only (R400). -/
theorem State.entryKey_congr {s u : State} (hkey : u.key = s.key) (hparams : u.params = s.params) (c : IntClass) :
    u.entryKey c = s.entryKey c := by
  rw [State.entryKey, State.entryKey, hkey, hparams]

/-! ### What host calls leave alone (R424) -/

theorem State.post_eq_next {s t : State} {n : Nat} {d : Word} (h : s.post n d = .next t) :
    ∃ c, t = s.addPending (PendingInt.mk c d none) := by
  unfold State.post at h
  split at h
  · cases h
  · split at h
    · cases h
    · cases h; exact ⟨_, rfl⟩

theorem State.load_eq_next {s t : State} {n : Nat} {ws : List Word} (h : s.load n ws = .next t) :
    t = { s with memory := s.memory.writeList n ws } := by
  unfold State.load at h
  split at h
  · cases h; rfl
  · cases h

/-- The one call that writes a base register, the one that writes the key, and that none writes a parameter. -/
theorem State.hostEffect_keeps {s t : State} {c : HostCall} (h : s.hostEffect c = .next t) :
    (t.br = s.br ∨ ∃ k b, c = .installBaseRegister k b ∧ t.br = s.br.set k b) ∧
      (t.key = s.key ∨ ∃ k, c = .setKey k ∧ t.key = k) ∧ t.params = s.params := by
  cases c with
  | installBaseRegister k b =>
    obtain ⟨rfl, -⟩ := State.acceptBank_eq_next h
    exact ⟨.inr ⟨k, b, rfl, rfl⟩, .inl rfl, rfl⟩
  | setProgramBank b =>
    obtain ⟨rfl, -⟩ := State.acceptBank_eq_next h
    exact ⟨.inl rfl, .inl rfl, rfl⟩
  | setKey k => cases h; exact ⟨.inl rfl, .inr ⟨k, rfl, rfl⟩, rfl⟩
  | post n d =>
    obtain ⟨c, rfl⟩ := State.post_eq_next h
    exact ⟨.inl rfl, .inl rfl, rfl⟩
  | load n ws =>
    obtain rfl := State.load_eq_next h
    exact ⟨.inl rfl, .inl rfl, rfl⟩
  | stop =>
    simp only [State.hostEffect] at h
    split at h <;> cases h <;> exact ⟨.inl rfl, .inl rfl, rfl⟩
  | _ => cases h; exact ⟨.inl rfl, .inl rfl, rfl⟩

/-- A call that is allowed has its effect (R440). -/
theorem hostEffect_of_hostCall {s t : State} {c : HostCall} (h : hostCall c s = .next t) : s.hostEffect c = .next t := by
  unfold hostCall at h
  split at h
  · cases h
  · exact h

/-! ### The statements -/

/-- Settles O7: the state at the InterruptCheck is sound, and so is what InterruptCheck or a stop makes of it. -/
theorem stepKeepsSound : Obligations.StepKeepsSound := by
  unfold Obligations.StepKeepsSound
  intro s t hs h
  rcases step_ends h with rfl | ⟨D, u, hu, hcheck | ⟨r, d, rfl⟩⟩
  · exact hs
  · exact State.interruptCheck_sound (hu.sound hs) (hcheck.symm.trans h)
  · exact (hu.sound hs).stopWith r d

/-- Settles O10: up to the InterruptCheck the DR differs within the bits of the instruction, and then only an entry writes it. -/
theorem writesOnlyItsDRBits : Obligations.WritesOnlyItsDRBits := by
  unfold Obligations.WritesOnlyItsDRBits
  intro i s t h
  obtain ⟨x, hx, hgrown⟩ := exec_eq_finish i s
  rw [hx] at h ⊢
  obtain ⟨u, hu, hcheck | ⟨r, d, rfl⟩⟩ := Res.finish_cases hgrown h
  · rcases hu.keeps_or_enters hcheck h with ⟨hdr, -⟩ | ⟨p, henters, -⟩
    · exact .inl (hdr ▸ hu.dr)
    · exact .inr ⟨u, p, henters, hu.dr⟩
  · exact .inl hu.dr

/-- Settles O12: nothing up to the InterruptCheck, nor that check, writes a base register; the host's calls by their effects. -/
theorem baseRegistersByInstallOnly : Obligations.BaseRegistersByInstallOnly := by
  unfold Obligations.BaseRegistersByInstallOnly
  refine ⟨fun s t h => ?_, fun c s t h hne => ?_⟩
  · rcases step_ends h with rfl | ⟨D, u, hu, hcheck | ⟨r, d, rfl⟩⟩
    · rfl
    · exact (State.interruptCheck_keeps (hcheck.symm.trans h)).1.trans hu.br
    · exact hu.br
  · obtain ⟨hbr, -⟩ := State.hostEffect_keeps (hostEffect_of_hostCall h)
    exact hbr.resolve_left hne

/-- Settles O13: only an entry of the InterruptCheck writes the key, from the key and the parameters that the step began with. -/
theorem keyAndParameters : Obligations.KeyAndParameters := by
  unfold Obligations.KeyAndParameters
  refine ⟨fun s t h => ?_, fun c s t h => (State.hostEffect_keeps (hostEffect_of_hostCall h)).2⟩
  rcases step_ends h with rfl | ⟨D, u, hu, hcheck | ⟨r, d, rfl⟩⟩
  · exact ⟨.inl rfl, rfl⟩
  · refine ⟨?_, (State.interruptCheck_keeps (hcheck.symm.trans h)).2.trans hu.params⟩
    rcases hu.keeps_or_enters hcheck h with ⟨-, hkey⟩ | ⟨p, henters, hkey⟩
    · exact .inl (hkey.trans hu.key)
    · exact .inr ⟨u, p, henters, hkey.trans (State.entryKey_congr hu.key hu.params p.cls)⟩
  · exact ⟨.inl hu.key, hu.params⟩

end Sys2Proof.Machine
end

section
/-! Step 1 of a resolution and the operands that are GRS cells (spec/10_state.md R21 to R31; spec/20_memory.md R86 to R97). -/

namespace Sys2Proof.Machine

/-! ### Index words (R27, R88) -/

section
variable {s : State} (r : Word)

theorem State.modifier_of_18 (h : s.ix24 = false) : s.modifier r = (r.extractLsb' 0 18).toNat := if_neg (by simp [h])

theorem State.modifier_of_24 (h : s.ix24 = true) : s.modifier r = (r.extractLsb' 0 24).toNat := if_pos h

theorem State.increment_of_18 (h : s.ix24 = false) : s.increment r = (r.extractLsb' 18 18).toNat := if_neg (by simp [h])

theorem State.increment_of_24 (h : s.ix24 = true) : s.increment r = ((r.extractLsb' 24 12).signExtend 24).toNat := if_pos h

theorem State.incremented_of_18 (h : s.ix24 = false) :
    s.incremented r = r.extractLsb' 18 18 ++ (r.extractLsb' 0 18 + r.extractLsb' 18 18) := by
  rw [State.incremented, State.withModifier, if_neg (by simp [h]), State.modifier_of_18 r h, State.increment_of_18 r h]
  simp only [BitVec.ofNat_add, BitVec.ofNat_toNat, BitVec.setWidth_eq]

theorem State.incremented_of_24 (h : s.ix24 = true) :
    s.incremented r = r.extractLsb' 24 12 ++ (r.extractLsb' 0 24 + (r.extractLsb' 24 12).signExtend 24) := by
  rw [State.incremented, State.withModifier, if_pos h, State.modifier_of_24 r h, State.increment_of_24 r h]
  simp only [BitVec.ofNat_add, BitVec.ofNat_toNat, BitVec.setWidth_eq]

end

/-! ### Indexing (R86 to R89) -/

theorem State.operandDisp_eq (s : State) (m : AddrSpec) :
    s.operandDisp m = if s.dr.getLsbD 19 then m.u.toNat else (m.u.extractLsb' 0 12).toNat := rfl

theorem State.indexed_of_unindexed (s : State) {m : AddrSpec} (h : m.x = 0) (disp : Nat) : s.indexed disp m = disp := if_pos h

theorem State.indexed_of_18 (s : State) {m : AddrSpec} (hx : m.x ≠ 0) (h : s.ix24 = false) (disp : Nat) :
    s.indexed disp m = (disp + ((s.readX m.x).extractLsb' 0 18).toNat) % 2 ^ 18 := by
  rw [State.indexed, if_neg hx, State.modifier_of_18 _ h, State.indexWidth, h]; rfl

theorem State.indexed_of_24 (s : State) {m : AddrSpec} (hx : m.x ≠ 0) (h : s.ix24 = true) (disp : Nat) :
    s.indexed disp m = (disp + ((s.readX m.x).extractLsb' 0 24).toNat) % 2 ^ 24 := by
  rw [State.indexed, if_neg hx, State.modifier_of_24 _ h, State.indexWidth, h]; rfl

theorem State.afterIndex_of_not (s : State) {m : AddrSpec} (h : m.x = 0 ∨ m.h = false) : s.afterIndex m = s :=
  if_neg fun ⟨hx, hh⟩ => h.elim hx fun hf => by simp [hf] at hh

theorem State.afterIndex_of_bump (s : State) {m : AddrSpec} (hx : m.x ≠ 0) (hh : m.h = true) : s.afterIndex m = s.bump m.x :=
  if_pos ⟨hx, hh⟩

theorem State.afterIndex_dr (s : State) (m : AddrSpec) : (s.afterIndex m).dr = s.dr := by
  obtain ⟨-, hdr, -⟩ := (Indexes.afterIndex s m).fields
  exact hdr

theorem State.afterIndex_basicMode (s : State) (m : AddrSpec) : (s.afterIndex m).basicMode = s.basicMode :=
  congrArg (·.getLsbD 19) (s.afterIndex_dr m)

theorem State.afterIndex_pp (s : State) (m : AddrSpec) : (s.afterIndex m).pp = s.pp := congrArg ppOf (s.afterIndex_dr m)

/-! ### The cells of the registers (R21 to R24) -/

theorem State.aCell_val (s : State) (n : BitVec 4) : (s.aCell n).val = (if s.dr.getLsbD 18 then 108 else 12) + n.toNat := by
  have hn := n.isLt
  refine Nat.mod_eq_of_lt ?_
  split <;> omega

theorem State.xCell_val (s : State) (n : BitVec 4) : (s.xCell n).val = (if s.dr.getLsbD 18 then 96 else 0) + n.toNat := by
  have hn := n.isLt
  refine Nat.mod_eq_of_lt ?_
  split <;> omega

theorem State.rCell_val (s : State) (n : BitVec 4) : (s.rCell n).val = (if s.dr.getLsbD 18 then 80 else 64) + n.toNat := by
  have hn := n.isLt
  refine Nat.mod_eq_of_lt ?_
  split <;> omega

/-- The A registers overlap the X registers from X12 on, in both sets (R22). -/
theorem State.aCell_eq_xCell_iff (s : State) (n k : BitVec 4) : s.aCell n = s.xCell k ↔ k.toNat = 12 + n.toNat := by
  rw [Fin.ext_iff, s.aCell_val, s.xCell_val]
  split <;> omega

/-! ### Direct operands that are GRS cells (R95 to R97) -/

theorem State.grsPlace_of_allowed (s : State) {n : Fin 128} (h : s.pp = 0 ∨ n.val < 0o120) : s.grsPlace n = .ok (.grs n) s :=
  if_neg fun ⟨hexec, hpp⟩ => h.elim hpp (Nat.not_lt.2 hexec)

theorem State.grsPlace_of_refused (s : State) {n : Fin 128} (hpp : s.pp ≠ 0) (h : 0o120 ≤ n.val) :
    s.grsPlace n = .refused .execGRSFromNonExec := if_pos ⟨h, hpp⟩

/-- In basic mode a relative address below 0200 is a cell (R95). -/
theorem State.basicPlace_of_cell (s : State) (n : Fin 128) : s.basicPlace n.val = s.grsPlace n := by
  rw [State.basicPlace, if_pos n.isLt, Fin.ofNat_val_eq_self]

/-- In extended mode an unindexed `d` below 0200 with `b` zero is a cell (R96). -/
theorem State.extendedPlace_of_cell (s : State) (rel : Nat) {m : AddrSpec} {n : Fin 128} (hx : m.x = 0) (hb : m.b = 0)
    (hd : m.d.toNat = n.val) : s.extendedPlace rel m = s.grsPlace n := by
  rw [State.extendedPlace, hd, if_pos ⟨hx, hb, n.isLt⟩, Fin.ofNat_val_eq_self]

/-- Without indirection the place is the one that the specifier names (R114). -/
theorem resolvePlace_of_direct (fuel : Nat) {m : AddrSpec} (h : m.i = false) (s : State) :
    resolvePlace fuel m s = (s.afterIndex m).place (s.indexed (s.operandDisp m) m) m := by
  rw [resolvePlace]
  cases (s.afterIndex m).place (s.indexed (s.operandDisp m) m) m <;> simp [h]

section
variable {s : State} {m : AddrSpec} {n : Fin 128}
  (hcell : s.basicMode = true ∧ s.indexed m.u.toNat m = n.val ∨ s.basicMode = false ∧ m.x = 0 ∧ m.b = 0 ∧ m.d.toNat = n.val)
include hcell

/-- The place of an operand that names a cell, in either mode (R91). -/
theorem State.place_of_cell : (s.afterIndex m).place (s.indexed (s.operandDisp m) m) m = (s.afterIndex m).grsPlace n := by
  rw [State.place, s.afterIndex_basicMode]
  rcases hcell with ⟨hbasic, hrel⟩ | ⟨hext, hx, hb, hd⟩
  · rw [if_pos hbasic, State.operandDisp, if_pos hbasic, hrel, State.basicPlace_of_cell]
  · rw [if_neg (by simp [hext]), State.extendedPlace_of_cell _ _ hx hb hd]

/-- The privilege decides whether a direct operand may be the cell that it names (R97). -/
theorem State.operandLoc_of_cell (acc : Perms) (hi : m.i = false) :
    s.operandLoc acc m = ((s.afterIndex m).grsPlace n).bind fun p r => r.check acc p := by
  rw [State.operandLoc, resolvePlace_of_direct _ hi, State.place_of_cell hcell]

end

/-! ### The statements -/

/-- Settles O15: the index word after an increment by its two halves, and the increment as one pending write. -/
theorem postIncrement : Obligations.PostIncrement := by
  unfold Obligations.PostIncrement
  refine ⟨fun s v => ⟨fun h => ?_, fun h => ?_⟩, fun s m disp => ?_, fun s m => ?_, fun s n => ?_⟩
  · rw [State.incremented_of_18 v h]
    exact ⟨BitVec.extractLsb'_append_eq_left, BitVec.extractLsb'_append_eq_right, State.modifier_of_18 v h⟩
  · rw [State.incremented_of_24 v h]
    exact ⟨BitVec.extractLsb'_append_eq_left, BitVec.extractLsb'_append_eq_right, State.modifier_of_24 v h⟩
  · exact ⟨s.operandDisp_eq m, fun hx => s.indexed_of_unindexed hx disp, fun hx h => s.indexed_of_18 hx h disp,
      fun hx h => s.indexed_of_24 hx h disp⟩
  · exact ⟨s.afterIndex_of_not, s.afterIndex_of_bump⟩
  · exact ⟨rfl, s.readGrs_writeGrs_self _ _, fun k hk => s.readGrs_writeGrs_of_ne _ hk⟩

/-- Settles O17: the fields by their definitions, the cells as numbers, and a direct operand through the place that it names. -/
theorem registerOperand : Obligations.RegisterOperand := by
  unfold Obligations.RegisterOperand
  refine ⟨fun s => ⟨rfl, rfl, rfl, rfl, rfl⟩,
    fun s n k => ⟨rfl, rfl, rfl, s.aCell_val n, s.xCell_val n, s.rCell_val n, s.aCell_eq_xCell_iff n k⟩,
    fun s m acc n hi hcell => ?_⟩
  have hpp := s.afterIndex_pp m
  rw [State.operandLoc_of_cell hcell acc hi]
  refine ⟨fun hallowed => ?_, fun hne hexec => ?_⟩
  · rw [State.grsPlace_of_allowed _ (hpp.symm ▸ hallowed)]; rfl
  · rw [State.grsPlace_of_refused _ (hpp.symm ▸ hne) hexec]; rfl

end Sys2Proof.Machine
end

section
/-! What a resolution can come to (spec/20_memory.md R91 to R118): every piece of it ends without a fatal stop, the pieces
after indexing change no state, and a whole resolution leaves increments of index registers alone. -/

namespace Sys2Proof.Machine

/-! ### Outcomes without a fatal stop -/

section
variable {α β : Type}

/-- The outcome is no fatal stop, and every state that it carries satisfies `P`. -/
def Res.StopFree (P : State → Prop) : Res α → Prop
  | .ok _ s => P s
  | .raised _ _ s => P s
  | .fatal _ _ _ => False
  | .refused _ => True
  | .stuck _ => True

/-- The state of an answer satisfies what every carried state does. -/
theorem Res.StopFree.of_eq_ok {P : State → Prop} {x : Res α} {v : α} {t : State} (h : x.StopFree P) (hx : x = .ok v t) :
    P t := by
  rw [hx] at h
  exact h

theorem Res.StopFree.ne_fatal {P : State → Prop} {x : Res α} (h : x.StopFree P) (e : StopReason) (d : Word) (r : State) :
    x ≠ .fatal e d r := by
  rintro rfl
  exact h

theorem Res.StopFree.mono {P Q : State → Prop} {x : Res α} (h : x.StopFree P) (hPQ : ∀ s, P s → Q s) : x.StopFree Q := by
  cases x with
  | ok v s => exact hPQ s h
  | raised c d s => exact hPQ s h
  | fatal r d s => exact h
  | refused r => trivial
  | stuck e => trivial

theorem Res.StopFree.bind {P : State → Prop} {x : Res α} {f : α → State → Res β} (h : x.StopFree P)
    (hf : ∀ a s, P s → (f a s).StopFree P) : (x.bind f).StopFree P := by
  cases x with
  | ok a s => exact hf a s h
  | raised c d s => exact h
  | fatal r d s => exact h
  | refused r => trivial
  | stuck e => trivial

/-- A piece that changes no state and is no fatal stop. -/
abbrev Stays (s : State) (x : Res α) : Prop := x.StopFree (· = s)

theorem Stays.bind {s : State} {x : Res α} {f : α → State → Res β} (hx : Stays s x) (hf : ∀ a, Stays s (f a s)) :
    Stays s (x.bind f) :=
  Res.StopFree.bind hx fun a t ht => by subst ht; exact hf a

/-- A piece that increments index registers, changes nothing else, and is no fatal stop. -/
abbrev Bumps (s : State) (x : Res α) : Prop := x.StopFree (Bumped s)

theorem Stays.bumps {s : State} {x : Res α} (h : Stays s x) : Bumps s x :=
  h.mono fun t ht => by subst ht; exact Bumped.refl

theorem Bumped.trans {s t u : State} (h : Bumped s t) (k : Bumped t u) : Bumped s u := by
  induction k with
  | refl => exact h
  | bump v n _ hn ih => exact .bump v n ih hn

theorem Bumps.bind {s : State} {x : Res α} {f : α → State → Res β} (hx : Bumps s x) (hf : ∀ a t, Bumps t (f a t)) :
    Bumps s (x.bind f) :=
  Res.StopFree.bind hx fun a t ht => (hf a t).mono fun _ hu => ht.trans hu

end

/-! ### Places and checks change no state (R113) -/

theorem stays_grsPlace (s : State) (n : Fin 128) : Stays s (s.grsPlace n) := by
  unfold State.grsPlace
  split
  · trivial
  · exact rfl

theorem stays_basicPlace (s : State) (rel : Nat) : Stays s (s.basicPlace rel) := by
  unfold State.basicPlace
  split
  · exact stays_grsPlace s _
  · split <;> exact rfl

theorem stays_extendedPlace (s : State) (rel : Nat) (m : AddrSpec) : Stays s (s.extendedPlace rel m) := by
  unfold State.extendedPlace
  split
  · exact stays_grsPlace s _
  · split
    · trivial
    · exact rfl

theorem stays_place (s : State) (rel : Nat) (m : AddrSpec) : Stays s (s.place rel m) := by
  unfold State.place
  split
  · exact stays_basicPlace s rel
  · exact stays_extendedPlace s rel m

theorem stays_check (s : State) (acc : Perms) (p : Place) : Stays s (s.check acc p) := by
  cases p with
  | grs n => exact rfl
  | mem slot rel =>
    simp only [State.check]
    split
    · exact rfl
    · split
      · exact rfl
      · split
        · exact rfl
        · split
          · trivial
          · exact rfl

theorem stays_readChecked (s : State) (p : Place) : Stays s (s.readChecked p) :=
  (stays_check s _ p).bind fun _ => rfl

theorem stays_successor (s : State) (p : Place) : Stays s (s.successor p) := by
  cases p with
  | grs n =>
    simp only [State.successor]
    split
    · trivial
    · exact stays_grsPlace s _
  | mem slot rel => exact rfl

theorem stays_locate (s : State) (t : BitVec 18) (acc : Perms) : Stays s (s.locate t acc) :=
  (stays_basicPlace s _).bind fun p => stays_check s acc p

/-! ### One level of a resolution (R98 to R100, R109, R114) -/

section
variable {m : AddrSpec} (s : State)

/-- With no indirect word left, an indirect operand raises once its place is formed (R100). -/
theorem resolvePlace_zero_of_indirect (h : m.i = true) :
    resolvePlace 0 m s = ((s.afterIndex m).place (s.indexed (s.operandDisp m) m) m).bind fun _ t =>
      .raised .terminalAddressingException (BitVec.ofNat 36 (s.indexed (s.operandDisp m) m)) t := by
  rw [resolvePlace]
  simp only [h, Bool.not_true, Bool.false_eq_true, if_false]

/-- An indirect operand is the one that the fetched word specifies (R98, R99). -/
theorem resolvePlace_succ_of_indirect (fuel : Nat) (h : m.i = true) :
    resolvePlace (fuel + 1) m s = ((s.afterIndex m).place (s.indexed (s.operandDisp m) m) m).bind fun p t =>
      (t.readChecked p).bind fun w u => resolvePlace fuel (specOf w) u := by
  rw [resolvePlace]
  simp only [h, Bool.not_true, Bool.false_eq_true, if_false]

/-- A direct target is its relative address (R109). -/
theorem resolveTarget_of_direct (fuel : Nat) (h : m.i = false) :
    resolveTarget fuel m s = .ok (s.indexed m.u.toNat m) (s.afterIndex m) := by
  unfold resolveTarget
  simp only [h, Bool.not_false, if_true]

/-- An indirect target is refused in extended mode (R109). -/
theorem resolveTarget_of_extended (fuel : Nat) (h : m.i = true) (hmode : s.basicMode = false) :
    resolveTarget fuel m s = .refused .extendedIndirectTarget := by
  unfold resolveTarget
  simp only [h, s.afterIndex_basicMode, hmode, Bool.not_true, Bool.not_false, Bool.false_eq_true, if_false, if_true]

/-- With no indirect word left, an indirect target raises (R100, R109). -/
theorem resolveTarget_zero_of_basic (h : m.i = true) (hmode : s.basicMode = true) :
    resolveTarget 0 m s =
      .raised .terminalAddressingException (BitVec.ofNat 36 (s.indexed m.u.toNat m)) (s.afterIndex m) := by
  rw [resolveTarget]
  simp only [h, s.afterIndex_basicMode, hmode, Bool.not_true, Bool.false_eq_true, if_false]

/-- An indirect target in basic mode is the one that the fetched word specifies (R109). -/
theorem resolveTarget_succ_of_basic (fuel : Nat) (h : m.i = true) (hmode : s.basicMode = true) :
    resolveTarget (fuel + 1) m s = ((s.afterIndex m).place (s.indexed m.u.toNat m) m).bind fun p t =>
      (t.readChecked p).bind fun w u => resolveTarget fuel (specOf w) u := by
  rw [resolveTarget]
  simp only [h, s.afterIndex_basicMode, hmode, Bool.not_true, Bool.false_eq_true, if_false]

end

/-! ### A resolution increments index registers and does nothing else (R88, R113) -/

theorem bumped_afterIndex (s : State) (m : AddrSpec) : Bumped s (s.afterIndex m) := by
  by_cases h : m.x = 0 ∨ m.h = false
  · rw [s.afterIndex_of_not h]
    exact .refl
  · obtain ⟨hx, hh⟩ := not_or.1 h
    rw [s.afterIndex_of_bump hx (Bool.eq_true_of_not_eq_false hh)]
    exact .bump s m.x .refl hx

/-- The place that a specifier names, after its indexing. -/
theorem bumps_place (s : State) (rel : Nat) (m : AddrSpec) : Bumps s ((s.afterIndex m).place rel m) :=
  (stays_place _ rel m).mono fun t ht => by subst ht; exact bumped_afterIndex s m

theorem bumps_resolvePlace (fuel : Nat) (m : AddrSpec) (s : State) : Bumps s (resolvePlace fuel m s) := by
  induction fuel generalizing m s with
  | zero =>
    cases hi : m.i with
    | false => rw [resolvePlace_of_direct 0 hi]; exact bumps_place s _ m
    | true =>
      rw [resolvePlace_zero_of_indirect s hi]
      exact (bumps_place s _ m).bind fun _ _ => Bumped.refl
  | succ fuel ih =>
    cases hi : m.i with
    | false => rw [resolvePlace_of_direct _ hi]; exact bumps_place s _ m
    | true =>
      rw [resolvePlace_succ_of_indirect s fuel hi]
      exact (bumps_place s _ m).bind fun p t => (stays_readChecked t p).bumps.bind fun w u => ih (specOf w) u

theorem bumps_resolveTarget (fuel : Nat) (m : AddrSpec) (s : State) : Bumps s (resolveTarget fuel m s) := by
  induction fuel generalizing m s with
  | zero =>
    cases hi : m.i with
    | false => rw [resolveTarget_of_direct s 0 hi]; exact bumped_afterIndex s m
    | true =>
      cases hmode : s.basicMode with
      | false => rw [resolveTarget_of_extended s 0 hi hmode]; trivial
      | true => rw [resolveTarget_zero_of_basic s hi hmode]; exact bumped_afterIndex s m
  | succ fuel ih =>
    cases hi : m.i with
    | false => rw [resolveTarget_of_direct s _ hi]; exact bumped_afterIndex s m
    | true =>
      cases hmode : s.basicMode with
      | false => rw [resolveTarget_of_extended s _ hi hmode]; trivial
      | true =>
        rw [resolveTarget_succ_of_basic s fuel hi hmode]
        exact (bumps_place s _ m).bind fun p t => (stays_readChecked t p).bumps.bind fun w u => ih (specOf w) u

theorem bumps_operandLoc (s : State) (acc : Perms) (m : AddrSpec) : Bumps s (s.operandLoc acc m) :=
  (bumps_resolvePlace _ m s).bind fun p t => (stays_check t acc p).bumps

theorem bumps_operandLocs (s : State) (acc : Perms) (m : AddrSpec) : Bumps s (s.operandLocs acc m) :=
  (bumps_resolvePlace _ m s).bind fun p t => (stays_check t acc p).bumps.bind fun _ t =>
    (stays_successor t p).bumps.bind fun p2 t => (stays_check t acc p2).bumps.bind fun _ _ => Bumped.refl

theorem bumps_operand (s : State) (j : BitVec 4) (m : AddrSpec) : Bumps s (s.operand j m) := by
  unfold State.operand
  split
  · exact (bumps_operandLoc s _ m).bind fun _ _ => Bumped.refl
  · exact bumped_afterIndex s m

theorem bumps_target (s : State) (m : AddrSpec) : Bumps s (s.target m) :=
  (bumps_resolveTarget _ m s).bind fun _ _ => Bumped.refl

/-! ### The statement -/

/-- Settles O14: every piece of a resolution either changes no state or forms one index increment. -/
theorem resolverWrites : Obligations.ResolverWrites := by
  unfold Obligations.ResolverWrites
  intro s t m
  exact ⟨fun acc _ h => (bumps_operandLoc s acc m).of_eq_ok h, fun acc _ h => (bumps_operandLocs s acc m).of_eq_ok h,
    fun j _ h => (bumps_operand s j m).of_eq_ok h, fun _ h => (bumps_target s m).of_eq_ok h,
    fun n acc _ h => (stays_locate s n acc).of_eq_ok h⟩

end Sys2Proof.Machine
end

section
/-! The statements about immediates, targets, places and indirection (spec/20_memory.md R86 to R118): the checks of a bank in
their order, and where one level of a resolution goes on. -/

namespace Sys2Proof.Machine

/-! ### Immediates (R107) -/

theorem signedField_eq_canon {n : Nat} (x : BitVec n) : signedField x = canon (x.signExtend 36) := rfl

theorem State.operand_of_immediate (s : State) {j : BitVec 4} (m : AddrSpec) (h : isFieldDesignator j = false) :
    s.operand j m = .ok (immediateValue j (s.immediate18 m)) (s.afterIndex m) := by
  rw [State.operand, h, if_neg Bool.false_ne_true]

theorem State.immediate18_eq (s : State) (m : AddrSpec) :
    s.immediate18 m = if m.x = 0 then BitVec.ofBool m.h ++ BitVec.ofBool m.i ++ m.u
      else BitVec.ofNat 18 ((m.u.toNat + s.modifier (s.readX m.x)) % 2 ^ (if s.dr.getLsbD 33 then 24 else 18)) := by
  unfold State.immediate18
  split
  · rfl
  · next hx => rw [State.indexed, if_neg hx, State.indexWidth, State.ix24]

/-- Settles O16: 016 and 017 are no field designators, so the operand is the immediate and the state that indexing leaves. -/
theorem immediateOperand : Obligations.ImmediateOperand := by
  unfold Obligations.ImmediateOperand
  intro s m v hv
  rw [← s.immediate18_eq m] at hv
  subst hv
  exact ⟨s.afterIndex m, rfl, s.operand_of_immediate m rfl, s.operand_of_immediate m rfl⟩

/-! ### Targets (R109) -/

/-- Settles O21: a direct target is its relative address, and an extended indirect one is refused before any place is formed. -/
theorem directTarget : Obligations.DirectTarget := by
  unfold Obligations.DirectTarget
  refine fun s m => ⟨fun hi => ?_, fun hi hmode => ?_⟩
  · rw [State.target, resolveTarget_of_direct s _ hi, Res.bind_ok]
  · rw [State.target, resolveTarget_of_extended s _ hi hmode, Res.bind_refused]

/-! ### The checks of a bank in their order (R101, R102, R106, R115, R116) -/

theorem BaseRegister.holds_eq_true_iff (b : BaseRegister) (rel : Nat) : b.holds rel = true ↔ b.lower ≤ rel ∧ rel ≤ b.upper := by
  rw [BaseRegister.holds, Bool.and_eq_true, decide_eq_true_eq, decide_eq_true_eq]

theorem Perms.subset_eq_true_iff (p acc : Perms) : acc.subset p = true ↔ Permits p acc := by
  simp only [Perms.subset, Permits, Bool.and_eq_true, Bool.or_eq_true, Bool.not_eq_true', and_assoc, ← Bool.not_eq_true,
    imp_iff_not_or]

theorem State.check_grs (s : State) (acc : Perms) (n : Fin 128) : s.check acc (.grs n) = .ok (.grs n) s := rfl

section
variable {s : State} {acc : Perms} {slot : Fin 16} {rel : Nat}

theorem State.check_of_void (hvoid : s.br[slot].isVoid = true) :
    s.check acc (.mem slot rel) = .raised .addressingException (BitVec.ofNat 36 slot.val) s := if_pos hvoid

theorem State.check_of_outside (hvoid : s.br[slot].isVoid = false) (hout : rel < s.br[slot].lower ∨ s.br[slot].upper < rel) :
    s.check acc (.mem slot rel) = .raised .referenceViolation (memDetail slot rel) s := by
  have hholds : s.br[slot].holds rel = false := by
    rw [← Bool.not_eq_true, BaseRegister.holds_eq_true_iff]
    omega
  simp only [State.check, hvoid, hholds, Bool.false_eq_true, if_false, Bool.not_false, if_true]

section
variable (hvoid : s.br[slot].isVoid = false) (hlo : s.br[slot].lower ≤ rel) (hhi : rel ≤ s.br[slot].upper)
include hvoid hlo hhi

/-- Inside the limits of a bank that is not void the permissions come next (R115). -/
theorem State.check_of_unpermitted (hperm : ¬Permits (granted s.br[slot] s.key) acc) :
    s.check acc (.mem slot rel) = .raised .referenceViolation (memDetail slot rel) s := by
  have hholds : s.br[slot].holds rel = true := (BaseRegister.holds_eq_true_iff _ _).2 ⟨hlo, hhi⟩
  have hsubset : acc.subset (s.br[slot].permissions s.key) = false :=
    Bool.eq_false_of_not_eq_true fun h => hperm ((Perms.subset_eq_true_iff _ _).1 h)
  simp only [State.check, hvoid, hholds, hsubset, Bool.false_eq_true, if_false, Bool.not_true, Bool.not_false, if_true]

/-- The end of storage is the last check (R106). -/
theorem State.check_of_permitted (hperm : Permits (granted s.br[slot] s.key) acc) :
    s.check acc (.mem slot rel) =
      if s.params.storageSize ≤ s.br[slot].base + rel then .stuck (.absentStorage (s.br[slot].base + rel))
      else .ok (.mem slot rel (s.br[slot].base + rel)) s := by
  have hholds : s.br[slot].holds rel = true := (BaseRegister.holds_eq_true_iff _ _).2 ⟨hlo, hhi⟩
  have hsubset : acc.subset (s.br[slot].permissions s.key) = true := (Perms.subset_eq_true_iff _ _).2 hperm
  simp only [State.check, hvoid, hholds, hsubset, Bool.false_eq_true, if_false, Bool.not_true]

end

/-- A storage place that passes its checks. -/
theorem State.of_check_mem_eq_ok {l : Loc} {t : State} (h : s.check acc (.mem slot rel) = .ok l t) :
    s.br[slot].isVoid = false ∧ s.br[slot].lower ≤ rel ∧ rel ≤ s.br[slot].upper ∧ Permits (granted s.br[slot] s.key) acc ∧
      l = .mem slot rel (s.br[slot].base + rel) := by
  cases hvoid : s.br[slot].isVoid with
  | true => rw [State.check_of_void hvoid] at h; cases h
  | false =>
    by_cases hin : s.br[slot].lower ≤ rel ∧ rel ≤ s.br[slot].upper
    · obtain ⟨hlo, hhi⟩ := hin
      by_cases hperm : Permits (granted s.br[slot] s.key) acc
      · rw [State.check_of_permitted hvoid hlo hhi hperm] at h
        split at h
        · cases h
        · cases h
          exact ⟨rfl, hlo, hhi, hperm, rfl⟩
      · rw [State.check_of_unpermitted hvoid hlo hhi hperm] at h
        cases h
    · rw [State.check_of_outside hvoid (by omega)] at h
      cases h

end

theorem bankChecks_check (s : State) (acc : Perms) (slot : Fin 16) (rel : Nat) :
    BankChecks s acc slot rel (s.check acc (.mem slot rel)) := by
  rintro b rfl
  refine ⟨fun hvoid => State.check_of_void hvoid, fun hvoid hout => State.check_of_outside hvoid hout,
    fun hvoid hlo hhi hperm => State.check_of_unpermitted hvoid hlo hhi hperm,
    fun hvoid hlo hhi hperm => ⟨fun hend => ?_, fun hend => ?_⟩⟩
  · rw [State.check_of_permitted hvoid hlo hhi hperm, if_pos hend]
  · rw [State.check_of_permitted hvoid hlo hhi hperm, if_neg (Nat.not_le.2 hend)]

/-! ### The place that a specifier names (R91 to R97, R118) -/

theorem cellNamed_grsPlace (s : State) (n : Fin 128) {k : Nat} (h : n.val = k) : CellNamed s k (s.grsPlace n) .grs := by
  subst h
  intro c hc
  obtain rfl : c = n := Fin.ext hc
  exact ⟨s.grsPlace_of_allowed, s.grsPlace_of_refused⟩

section
variable (s : State) {rel : Nat} {m : AddrSpec}

theorem State.place_of_basic (hmode : s.basicMode = true) : s.place rel m = s.basicPlace rel := if_pos hmode

theorem State.place_of_extended (hmode : s.basicMode = false) : s.place rel m = s.extendedPlace rel m :=
  if_neg (by simp [hmode])

theorem State.place_of_basic_cell (hmode : s.basicMode = true) (hrel : rel < 0o200) :
    s.place rel m = s.grsPlace ⟨rel, hrel⟩ := by
  rw [s.place_of_basic hmode]
  exact s.basicPlace_of_cell ⟨rel, hrel⟩

theorem State.place_of_basic_slot (hmode : s.basicMode = true) (hrel : 0o200 ≤ rel) {k : BasicSlot}
    (hk : s.basicBankSelect rel = some k) : s.place rel m = .ok (.mem k.number rel) s := by
  rw [s.place_of_basic hmode, State.basicPlace, if_neg (Nat.not_lt.2 hrel), hk]

theorem State.place_of_basic_none (hmode : s.basicMode = true) (hrel : 0o200 ≤ rel) (hk : s.basicBankSelect rel = none) :
    s.place rel m = .raised .referenceViolation (BitVec.ofNat 36 rel) s := by
  rw [s.place_of_basic hmode, State.basicPlace, if_neg (Nat.not_lt.2 hrel), hk]

theorem State.place_of_extended_cell (hmode : s.basicMode = false) (hx : m.x = 0) (hb : m.b = 0) (hd : m.d.toNat < 0o200) :
    s.place rel m = s.grsPlace ⟨m.d.toNat, hd⟩ := by
  rw [s.place_of_extended hmode]
  exact s.extendedPlace_of_cell rel hx hb rfl

theorem State.place_of_extended_slot (hmode : s.basicMode = false) (hb : m.b ≠ 0) :
    s.place rel m = .ok (.mem m.b.toFin rel) s := by
  rw [s.place_of_extended hmode, State.extendedPlace, if_neg fun ⟨_, h, _⟩ => hb h, if_neg hb]

theorem State.place_of_extended_b0 (hmode : s.basicMode = false) (hb : m.b = 0) (h : m.x ≠ 0 ∨ 0o200 ≤ m.d.toNat) :
    s.place rel m = .refused .b0Operand := by
  have hcell : ¬(m.x = 0 ∧ m.b = 0 ∧ m.d.toNat < 0o200) := fun ⟨hx, _, hd⟩ => h.elim (· hx) (Nat.not_le.2 hd)
  rw [s.place_of_extended hmode, State.extendedPlace, if_neg hcell, if_pos hb]

/-- The selection reads the parameters, the privilege and DR bit 4, and nothing else of the state (R92). -/
theorem State.basicBankSelect_congr {s t : State} (rel : Nat) (hparams : t.params = s.params) (hpp : t.pp = s.pp)
    (hbit : t.dr.getLsbD 4 = s.dr.getLsbD 4) : t.basicBankSelect rel = s.basicBankSelect rel := by
  rw [State.basicBankSelect, hparams, hpp, hbit, State.basicBankSelect]

theorem State.afterIndex_basicBankSelect (m : AddrSpec) (rel : Nat) :
    (s.afterIndex m).basicBankSelect rel = s.basicBankSelect rel := by
  obtain ⟨-, hdr, -, -, -, -, -, -, -, -, -, -, hparams⟩ := (Indexes.afterIndex s m).fields
  exact State.basicBankSelect_congr rel hparams (s.afterIndex_pp m) (by rw [hdr])

theorem State.operandDisp_of_basic (hmode : s.basicMode = true) : s.operandDisp m = m.u.toNat := if_pos hmode

theorem State.operandDisp_of_extended (hmode : s.basicMode = false) : s.operandDisp m = m.d.toNat :=
  if_neg (by simp [hmode])

end

/-! ### Outcomes that fail alike -/

section
variable {α β γ : Type}

theorem FailsAs.refl (x : Res α) : FailsAs x x := ⟨fun _ _ _ => id, fun _ => id, fun _ => id⟩

theorem FailsAs.trans {x : Res α} {y : Res β} {z : Res γ} (h : FailsAs x y) (k : FailsAs y z) : FailsAs x z := by
  obtain ⟨hraised, hrefused, hstuck⟩ := h
  obtain ⟨kraised, krefused, kstuck⟩ := k
  exact ⟨fun c d r hx => kraised c d r (hraised c d r hx), fun w hx => krefused w (hrefused w hx),
    fun f hx => kstuck f (hstuck f hx)⟩

/-- A bound computation fails as its first part does. -/
theorem FailsAs.bind (x : Res α) (f : α → State → Res β) : FailsAs x (x.bind f) := (goesOn_bind x f).1

/-- After one and the same first part, what fails alike does so. -/
theorem FailsAs.bind_congr (x : Res α) {f : α → State → Res β} {g : α → State → Res γ}
    (h : ∀ a s, FailsAs (f a s) (g a s)) : FailsAs (x.bind f) (x.bind g) := by
  cases x with
  | ok a s => exact h a s
  | raised c d s => simp [FailsAs]
  | fatal r d s => simp [FailsAs]
  | refused r => simp [FailsAs]
  | stuck e => simp [FailsAs]

end

/-! ### Operand forms without a bank -/

/-- The first place of an operand that raises or is refused ends the resolution, whether or not the operand is indirect. -/
theorem State.operandLoc_failsAs_place (s : State) (acc : Perms) (m : AddrSpec) :
    FailsAs ((s.afterIndex m).place (s.indexed (s.operandDisp m) m) m) (s.operandLoc acc m) := by
  refine FailsAs.trans ?_ (FailsAs.bind _ _)
  cases hi : m.i with
  | false => rw [resolvePlace_of_direct _ hi]; exact FailsAs.refl _
  | true =>
    cases s.params.maxIndirect with
    | zero => rw [resolvePlace_zero_of_indirect s hi]; exact FailsAs.bind _ _
    | succ fuel => rw [resolvePlace_succ_of_indirect s fuel hi]; exact FailsAs.bind _ _

/-- Settles O19: the place without a bank fails, at the first level and at any other, and the operand fails as its first place. -/
theorem operandWithoutBank : Obligations.OperandWithoutBank := by
  unfold Obligations.OperandWithoutBank
  intro s m acc
  obtain ⟨hraised, hrefused, -⟩ := s.operandLoc_failsAs_place acc m
  refine ⟨fun hmode hrel hk => hraised _ _ _ ?_, fun hmode hb h => hrefused _ ?_,
    fun rel => s.place_of_basic_none, fun rel => s.place_of_extended_b0⟩
  · rw [s.operandDisp_of_basic hmode]
    exact State.place_of_basic_none _ (s.afterIndex_basicMode m ▸ hmode) hrel (s.afterIndex_basicBankSelect m _ ▸ hk)
  · exact State.place_of_extended_b0 _ (s.afterIndex_basicMode m ▸ hmode) hb h

end Sys2Proof.Machine
end

section
/-! Indirection, operands in storage, and the second word of a double-word operand (spec/20_memory.md R91 to R118). -/

namespace Sys2Proof.Machine

/-! ### An indirect word that names itself (R100) -/

section
variable {s : State} {m : AddrSpec} {p : Place} {w : Word} {rel : Nat} (hi : m.i = true) (hx : m.x = 0)
  (hrel : rel = s.operandDisp m) (hplace : s.place rel m = .ok p s) (hread : s.readChecked p = .ok w s) (hw : specOf w = m)
include hi hx hrel hplace hread hw

theorem resolvePlace_of_self (fuel : Nat) :
    resolvePlace fuel m s = .raised .terminalAddressingException (BitVec.ofNat 36 rel) s := by
  have hindexed : s.indexed (s.operandDisp m) m = rel := by rw [s.indexed_of_unindexed hx, hrel]
  induction fuel with
  | zero =>
    rw [resolvePlace_zero_of_indirect s hi, s.afterIndex_of_not (.inl hx), hindexed, hplace, Res.bind_ok]
  | succ fuel ih =>
    rw [resolvePlace_succ_of_indirect s fuel hi, s.afterIndex_of_not (.inl hx), hindexed, hplace, Res.bind_ok, hread,
      Res.bind_ok, hw, ih]

theorem resolveTarget_of_self (hmode : s.basicMode = true) (fuel : Nat) :
    resolveTarget fuel m s = .raised .terminalAddressingException (BitVec.ofNat 36 rel) s := by
  have hindexed : s.indexed m.u.toNat m = rel := by rw [s.indexed_of_unindexed hx, hrel, s.operandDisp_of_basic hmode]
  induction fuel with
  | zero => rw [resolveTarget_zero_of_basic s hi hmode, s.afterIndex_of_not (.inl hx), hindexed]
  | succ fuel ih =>
    rw [resolveTarget_succ_of_basic s fuel hi hmode, s.afterIndex_of_not (.inl hx), hindexed, hplace, Res.bind_ok, hread,
      Res.bind_ok, hw, ih]

end

/-! ### Indirection -/

/-- Where a computation goes on past two bound parts: it fails as the first, and after that as the second (R98). -/
theorem failsAs_and_goesOn_bind {α β γ : Type} (x : Res α) (y : α → State → Res β) (f : β → State → Res γ) :
    FailsAs x (x.bind fun a t => (y a t).bind f) ∧
      ∀ a t, x = .ok a t → GoesOn (y a t) (x.bind fun a t => (y a t).bind f) f := by
  refine ⟨FailsAs.bind _ _, ?_⟩
  rintro a t rfl
  exact goesOn_bind _ _

/-- Settles O20: one level of a resolution by its equations, the places and checks by theirs, and the chain that does not end by
induction on the indirect words left. -/
theorem indirection : Obligations.Indirection := by
  unfold Obligations.Indirection
  refine ⟨?operand, ?self, ?placeLevel, ?targetLevel, ?start, ?places, fun s p => goesOn_bind _ _,
    fun s acc => ⟨s.check_grs acc, bankChecks_check s acc⟩, fun w => rfl⟩
  case operand =>
    intro s t u m acc p w k hi hmax hplace hread
    rw [State.operandLoc, hmax, resolvePlace_succ_of_indirect s k hi, hplace, Res.bind_ok, hread, Res.bind_ok]
  case self =>
    intro s m rel p w hi hx hrel hplace hread hw
    refine ⟨fun acc => ?_, fun hmode => ?_⟩
    · rw [State.operandLoc, resolvePlace_of_self hi hx hrel hplace hread hw, Res.bind_raised]
    · rw [State.target, resolveTarget_of_self hi hx hrel hplace hread hw hmode, Res.bind_raised]
  case placeLevel =>
    rintro s m k rel rfl
    refine ⟨fun hi => resolvePlace_of_direct k hi s, fun hi => ?_, fun hi => ?_⟩
    · rw [resolvePlace_zero_of_indirect s hi]
      exact goesOn_bind _ _
    · rw [resolvePlace_succ_of_indirect s k hi]
      exact failsAs_and_goesOn_bind _ _ _
  case targetLevel =>
    rintro s m k rel rfl
    refine ⟨resolveTarget_of_direct s k, resolveTarget_of_extended s k,
      fun hi hmode => ⟨resolveTarget_zero_of_basic s hi hmode, ?_⟩⟩
    rw [resolveTarget_succ_of_basic s k hi hmode]
    exact failsAs_and_goesOn_bind _ _ _
  case start => exact fun s m => ⟨fun acc => goesOn_bind _ _, goesOn_bind _ _⟩
  case places =>
    refine fun s m rel => ⟨fun hmode hrel => ?_, fun hmode hrel k => s.place_of_basic_slot hmode hrel,
      fun hmode hx hb hd => ?_, s.place_of_extended_slot⟩
    · rw [s.place_of_basic_cell hmode hrel]
      exact cellNamed_grsPlace s _ rfl
    · rw [s.place_of_extended_cell hmode hx hb hd]
      exact cellNamed_grsPlace s _ rfl

/-! ### The second word of a double-word operand (R110) -/

/-- A direct operand in storage is the checked place of its slot. -/
theorem State.operandLoc_of_slot {s : State} {m : AddrSpec} {slot : Fin 16} {rel : Nat} (acc : Perms) (hi : m.i = false)
    (h : s.basicMode = true ∧ rel = s.indexed m.u.toNat m ∧ 0o200 ≤ rel ∧
        (∃ k, s.basicBankSelect rel = some k ∧ slot = k.number) ∨
      s.basicMode = false ∧ rel = s.indexed m.d.toNat m ∧ m.b ≠ 0 ∧ slot = m.b.toFin) :
    s.operandLoc acc m = (s.afterIndex m).check acc (.mem slot rel) := by
  rw [State.operandLoc, resolvePlace_of_direct _ hi]
  rcases h with ⟨hmode, rfl, hrel, k, hk, rfl⟩ | ⟨hmode, rfl, hb, rfl⟩
  · rw [s.operandDisp_of_basic hmode, State.place_of_basic_slot _ (s.afterIndex_basicMode m ▸ hmode) hrel
      (s.afterIndex_basicBankSelect m _ ▸ hk), Res.bind_ok]
  · rw [s.operandDisp_of_extended hmode, State.place_of_extended_slot _ (s.afterIndex_basicMode m ▸ hmode) hb, Res.bind_ok]

/-- Both words of a double-word operand once its first word is checked. -/
def State.withSuccessor (s : State) (acc : Perms) (p : Place) (l : Loc) : Res (Loc × Loc) :=
  (s.successor p).bind fun p2 t => (t.check acc p2).bind fun l2 u => .ok (l, l2) u

/-- Where the single-word operand answers, the double-word operand goes on to the successor of the same place. -/
theorem State.operandLocs_of_operandLoc {s r : State} {acc : Perms} {m : AddrSpec} {l : Loc}
    (h : s.operandLoc acc m = .ok l r) :
    ∃ p, r.check acc p = .ok l r ∧ s.operandLocs acc m = r.withSuccessor acc p l := by
  obtain ⟨p, t, hp, hcheck⟩ := Res.bind_eq_ok.1 h
  obtain rfl : r = t := (stays_check t acc p).of_eq_ok hcheck
  exact ⟨p, hcheck, by rw [State.operandLocs, hp, Res.bind_ok, hcheck, Res.bind_ok, State.withSuccessor]⟩

theorem State.operandLocs_failsAs_operandLoc (s : State) (acc : Perms) (m : AddrSpec) :
    FailsAs (s.operandLoc acc m) (s.operandLocs acc m) :=
  FailsAs.bind_congr _ fun _ _ => FailsAs.bind _ _

/-- A location that is a cell comes from the place that names it. -/
theorem State.eq_grs_of_check {s t : State} {acc : Perms} {p : Place} {n : Fin 128} (h : s.check acc p = .ok (.grs n) t) :
    p = .grs n := by
  cases p with
  | grs k => cases h; rfl
  | mem slot rel =>
    obtain ⟨-, -, -, -, hl⟩ := State.of_check_mem_eq_ok h
    cases hl

/-- A location in storage comes from the place of its slot and relative address, which passed the checks. -/
theorem State.eq_mem_of_check {s t : State} {acc : Perms} {p : Place} {slot : Fin 16} {rel abs : Nat}
    (h : s.check acc p = .ok (.mem slot rel abs) t) :
    p = .mem slot rel ∧ s.br[slot].isVoid = false ∧ s.br[slot].lower ≤ rel ∧ Permits (granted s.br[slot] s.key) acc ∧
      abs = s.br[slot].base + rel := by
  cases p with
  | grs k => cases h
  | mem slot' rel' =>
    obtain ⟨hvoid, hlo, -, hperm, hl⟩ := State.of_check_mem_eq_ok h
    cases hl
    exact ⟨rfl, hvoid, hlo, hperm, rfl⟩

/-- The second cell of a pair: none after cell 127, and an exec cell like any other (R97, R110). -/
theorem State.withSuccessor_grs (s : State) (acc : Perms) (n : Fin 128) :
    (n = 127 → s.withSuccessor acc (.grs n) (.grs n) = .refused .grsPairOverflow) ∧
    (n ≠ 127 → (s.pp = 0 ∨ n.val + 1 < 0o120) → s.withSuccessor acc (.grs n) (.grs n) = .ok (.grs n, .grs (n + 1)) s) ∧
    (n ≠ 127 → s.pp ≠ 0 → 0o120 ≤ n.val + 1 → s.withSuccessor acc (.grs n) (.grs n) = .refused .execGRSFromNonExec) := by
  have hval : n ≠ 127 → (n + 1).val = n.val + 1 := fun hn => Fin.val_add_one_of_lt' (by omega)
  refine ⟨fun hn => ?_, fun hn hallowed => ?_, fun hn hpp hexec => ?_⟩
  · rw [State.withSuccessor, State.successor, if_pos hn, Res.bind_refused]
  · rw [State.withSuccessor, State.successor, if_neg hn, s.grsPlace_of_allowed (by rwa [hval hn]), Res.bind_ok,
      State.check_grs, Res.bind_ok]
  · rw [State.withSuccessor, State.successor, if_neg hn, s.grsPlace_of_refused hpp (by rwa [hval hn]), Res.bind_refused]

/-- The second storage word: the bank and the permissions are those of the first, so the upper limit and the end of storage are
left to check (R102, R106, R110). -/
theorem State.withSuccessor_mem (s : State) {acc : Perms} {slot : Fin 16} {rel : Nat} (l : Loc)
    (hvoid : s.br[slot].isVoid = false) (hlo : s.br[slot].lower ≤ rel) (hperm : Permits (granted s.br[slot] s.key) acc) :
    (s.br[slot].upper < rel + 1 →
      s.withSuccessor acc (.mem slot rel) l = .raised .referenceViolation (memDetail slot (rel + 1)) s) ∧
    (rel + 1 ≤ s.br[slot].upper → s.params.storageSize ≤ s.br[slot].base + (rel + 1) →
      s.withSuccessor acc (.mem slot rel) l = .stuck (.absentStorage (s.br[slot].base + (rel + 1)))) ∧
    (rel + 1 ≤ s.br[slot].upper → s.br[slot].base + (rel + 1) < s.params.storageSize →
      s.withSuccessor acc (.mem slot rel) l = .ok (l, .mem slot (rel + 1) (s.br[slot].base + (rel + 1))) s) := by
  have hlo' : s.br[slot].lower ≤ rel + 1 := Nat.le_succ_of_le hlo
  refine ⟨fun hhi => ?_, fun hhi hend => ?_, fun hhi hend => ?_⟩
  · rw [State.withSuccessor, State.successor, Res.bind_ok, State.check_of_outside hvoid (.inr hhi), Res.bind_raised]
  · rw [State.withSuccessor, State.successor, Res.bind_ok, State.check_of_permitted hvoid hlo' hhi hperm, if_pos hend,
      Res.bind_stuck]
  · rw [State.withSuccessor, State.successor, Res.bind_ok, State.check_of_permitted hvoid hlo' hhi hperm,
      if_neg (Nat.not_le.2 hend), Res.bind_ok]

/-- Settles O18: a direct operand as the checked place of its slot, and the second word as the successor of the place whose
check gave the first. -/
theorem storageOperand : Obligations.StorageOperand := by
  unfold Obligations.StorageOperand
  refine ⟨fun s m acc slot rel hi hslot => ?_, fun b key p acc => ⟨rfl, Perms.subset_eq_true_iff p acc⟩, ⟨rfl, rfl, rfl⟩,
    fun s t rel => State.basicBankSelect_congr rel, fun m => ⟨rfl, rfl⟩, ⟨rfl, rfl, rfl, rfl⟩, fun s m acc =>
      ⟨s.operandLocs_failsAs_operandLoc acc m, fun n r hloc => ?_, fun slot rel abs r hloc => ?_⟩⟩
  · obtain ⟨-, -, -, hbr, -, hkey, -, -, -, -, -, -, hparams⟩ := (Indexes.afterIndex s m).fields
    rw [State.operandLoc_of_slot acc hi hslot]
    exact ⟨hbr, hkey, hparams, bankChecks_check _ acc slot rel⟩
  · obtain ⟨p, hcheck, hlocs⟩ := State.operandLocs_of_operandLoc hloc
    obtain rfl := State.eq_grs_of_check hcheck
    have hpp : r.pp = s.pp := congrArg ppOf (State.dr_of_operandLoc hloc)
    rw [hlocs, ← hpp]
    exact r.withSuccessor_grs acc n
  · have hres := resolves_operandLoc s acc m
    rw [hloc] at hres
    obtain ⟨-, -, -, hbr, -, -, -, -, -, -, -, -, hparams⟩ := hres.fields
    obtain ⟨p, hcheck, hlocs⟩ := State.operandLocs_of_operandLoc hloc
    obtain ⟨rfl, hvoid, hlo, hperm, rfl⟩ := State.eq_mem_of_check hcheck
    rw [hlocs, ← hbr, ← hparams]
    exact ⟨rfl, r.withSuccessor_mem _ hvoid hlo hperm⟩

end Sys2Proof.Machine
end

section
/-! The end of an instruction whose resolution fails (spec/20_memory.md R103; spec/40_cycle.md R171, R173). -/

namespace Sys2Proof.Machine

/-! ### What a resolution is -/

theorem bumps_forget {α : Type} {s : State} {x : Res α} (h : Bumps s x) : Bumps s (forget x) :=
  h.bind fun _ _ => Bumped.refl

theorem bumps_storeResolution (s : State) (acc : Perms) (j : BitVec 4) (m : AddrSpec) :
    Bumps s (storeResolution s acc j m) := by
  unfold storeResolution
  split
  · exact bumps_forget (bumps_operandLoc s acc m)
  · exact Bumped.refl

/-- The resolution of an instruction increments index registers and does nothing else (R113). -/
theorem bumps_resolution (i : Instr) (s : State) : Bumps s (resolution i s) := by
  cases i with
  | sa j a m | sna j a m | sma j a m | sr j a m | sx j a m => exact bumps_storeResolution s _ j m
  | sz j m | snz j m | sp1 j m | sn1 j m | sfs j m | sfz j m | sas j m | saz j m => exact bumps_storeResolution s _ j m
  | inc j m | dec j m | inc2 j m | dec2 j m | enz j m | add1 j m | sub1 j m => exact bumps_storeResolution s _ j m
  | ds a m | dl a m | dln a m | dlm a m | da a m | dan a m => exact bumps_forget (bumps_operandLocs s _ m)
  | ssc a m | dsc a m | ssl a m | dsl a m | ssa a m | dsa a m | lssc a m | ldsc a m | lssl a m | ldsl a m =>
    exact bumps_forget (bumps_target s m)
  | jz a m | jnz a m | jp a m | jn a m | jmgi a m | lmj a m | djz a m => exact bumps_forget (bumps_target s m)
  | j m | nop m | jo m | jdf m | jno m | jndf m | jc m | jnc m => exact bumps_forget (bumps_target s m)
  | jgd j a m => exact (bumps_target s m).bind fun _ t => bumps_forget (stays_grsPlace t _).bumps
  | slj m => exact (bumps_target s m).bind fun n t => bumps_forget (stays_locate t n _).bumps
  | ts m | tss m | tcs m | ld m | sd m => exact bumps_forget (bumps_operandLoc s _ m)
  | halt d | ur => exact Bumped.refl
  | _ => exact bumps_forget (bumps_operand s _ _)

/-! ### The body of an instruction fails as its resolution does (R103) -/

section
variable {α β : Type}

/-- Only a value is dropped by `forget`, so what goes on from the value fails as the outcome without it. -/
theorem failsAs_forget (x : Res α) (f : α → State → Res β) : FailsAs (forget x) (x.bind f) :=
  FailsAs.bind_congr x fun a s => by simp [FailsAs]

/-- An outcome that answers is no failure. -/
theorem failsAs_ok (v : α) (s : State) (y : Res β) : FailsAs (Res.ok v s) y := by simp [FailsAs]

end

theorem State.operand2_bind {β : Type} (s : State) (m : AddrSpec) (f : Word × Word → State → Res β) :
    (s.operand2 m).bind f = (s.operandLocs Perms.read m).bind fun l t => f (t.readLoc l.1, t.readLoc l.2) t :=
  Res.bind_assoc _ _ _

/-- What goes on from the two words of a double operand fails as its resolution does. -/
theorem failsAs_operand2 {β : Type} (s : State) (m : AddrSpec) (f : Word × Word → State → Res β) :
    FailsAs (forget (s.operandLocs Perms.read m)) ((s.operand2 m).bind f) := by
  rw [s.operand2_bind]
  exact failsAs_forget _ _

/-- A piece that resolves a location only for a field designator. -/
theorem failsAs_storeResolution {β : Type} (s : State) (acc : Perms) (j : BitVec 4) (m : AddrSpec)
    (f : Loc → State → Res β) (y : Res β) :
    FailsAs (storeResolution s acc j m) (if isFieldDesignator j then (s.operandLoc acc m).bind f else y) := by
  unfold storeResolution
  split
  · exact failsAs_forget _ _
  · exact failsAs_ok _ s y

/-- Every instruction is a piece that fails as the instruction's resolution, and then the end of that piece. -/
theorem exec_failsAs_resolution (i : Instr) (s : State) :
    ∃ x : Res Act, exec i s = x.finish ∧ FailsAs (resolution i s.discard) x := by
  cases i with
  | sa j a m | sna j a m | sma j a m | sr j a m | sx j a m => exact ⟨_, rfl, failsAs_storeResolution _ _ j m _ _⟩
  | sz j m | snz j m | sp1 j m | sn1 j m | sfs j m | sfz j m | sas j m | saz j m =>
    exact ⟨_, rfl, failsAs_storeResolution _ _ j m _ _⟩
  | inc j m | dec j m | inc2 j m | dec2 j m | enz j m | add1 j m | sub1 j m =>
    exact ⟨_, rfl, failsAs_storeResolution _ _ j m _ _⟩
  | dlm a m | da a m | dan a m => exact ⟨_, rfl, failsAs_operand2 _ m _⟩
  | jgd j a m | slj m => exact ⟨_, rfl, FailsAs.bind_congr _ fun _ _ => failsAs_forget _ _⟩
  | halt d | ur => exact ⟨_, rfl, failsAs_ok _ _ _⟩
  | _ => exact ⟨_, rfl, failsAs_forget _ _⟩

/-- Increments as `Bumped` counts them are increments as `Indexes` lists them. -/
theorem Bumped.indexes {s t : State} (h : Bumped s t) : Indexes s t := by
  induction h with
  | refl => exact Indexes.refl s
  | bump t n _ hn ih =>
    exact ih.trans ⟨[.grs (t.xCell n) (t.incremented (t.readX n))], rfl, by simpa using ⟨n, hn, rfl⟩⟩

/-- Settles O22: the body of the instruction fails as its resolution, and a raise out of increments alone drops them all, so the
interrupt is taken on the state at Fetch. -/
theorem failedResolution : Obligations.FailedResolution := by
  unfold Obligations.FailedResolution
  intro i s
  have hbumps := bumps_resolution i s.discard
  obtain ⟨x, hexec, hraised, hrefused, hstuck⟩ := exec_failsAs_resolution i s
  refine ⟨fun c d r h => ?_, fun w h => ?_, fun f h => ?_, fun e d r => hbumps.ne_fatal e d r, rfl⟩
  · rw [h] at hbumps
    rw [hexec, hraised c d r h, Res.finish_raised, (Bumped.indexes hbumps).keepSurvivors_commit]
  · rw [hexec, hrefused w h, Res.finish_refused]
  · rw [hexec, hstuck f h, Res.finish_stuck]

end Sys2Proof.Machine
end

section
/-! Decoding (spec/30_encoding.md R130 to R150): the encoding of an instruction decodes to it, what a step does where there is
no instruction to run, and the refusal of a register pair that starts at A15 (R143). -/

namespace Sys2Proof

/-! ### The row that an instruction's fields match (R137) -/

/-- The per-instruction laws of decoding as one law of every instruction. -/
theorem Laws.DecodeFields.statement : (i : Instr) → DecodeFields.Statement i
  | .la .. => la _ _ _ | .lna .. => lna _ _ _ | .lma .. => lma _ _ _ | .lnma .. => lnma _ _ _ | .lr .. => lr _ _ _
  | .lx .. => lx _ _ _ | .lxm .. => lxm _ _ _ | .lxi .. => lxi _ _ _ | .sa .. => sa _ _ _ | .sna .. => sna _ _ _
  | .sma .. => sma _ _ _ | .sr .. => sr _ _ _ | .sx .. => sx _ _ _ | .ds .. => ds _ _ | .dl .. => dl _ _
  | .dln .. => dln _ _ | .dlm .. => dlm _ _ | .sz .. => sz _ _ | .snz .. => snz _ _ | .sp1 .. => sp1 _ _
  | .sn1 .. => sn1 _ _ | .sfs .. => sfs _ _ | .sfz .. => sfz _ _ | .sas .. => sas _ _ | .saz .. => saz _ _
  | .aa .. => aa _ _ _ | .ana .. => ana _ _ _ | .ama .. => ama _ _ _ | .anma .. => anma _ _ _ | .au .. => au _ _ _
  | .anu .. => anu _ _ _ | .ax .. => ax _ _ _ | .anx .. => anx _ _ _ | .mi .. => mi _ _ _ | .di .. => di _ _ _
  | .dsf .. => dsf _ _ _ | .df .. => df _ _ _ | .da .. => da _ _ | .dan .. => dan _ _ | .inc .. => inc _ _
  | .dec .. => dec _ _ | .inc2 .. => inc2 _ _ | .dec2 .. => dec2 _ _ | .enz .. => enz _ _ | .add1 .. => add1 _ _
  | .sub1 .. => sub1 _ _ | .or .. => or _ _ _ | .xor .. => xor _ _ _ | .and .. => and _ _ _ | .mlu .. => mlu _ _ _
  | .ssc .. => ssc _ _ | .dsc .. => dsc _ _ | .ssl .. => ssl _ _ | .dsl .. => dsl _ _ | .ssa .. => ssa _ _
  | .dsa .. => dsa _ _ | .lssc .. => lssc _ _ | .ldsc .. => ldsc _ _ | .lssl .. => lssl _ _ | .ldsl .. => ldsl _ _
  | .te .. => te _ _ _ | .tne .. => tne _ _ _ | .tle .. => tle _ _ _ | .tg .. => tg _ _ _ | .tw .. => tw _ _ _
  | .tnw .. => tnw _ _ _ | .tzBasic .. => tzBasic _ _ | .tnzBasic .. => tnzBasic _ _ | .tpBasic .. => tpBasic _ _
  | .tnBasic .. => tnBasic _ _ | .tnop .. => tnop _ _ | .tgz .. => tgz _ _ | .tpz .. => tpz _ _ | .tp .. => tp _ _
  | .tmz .. => tmz _ _ | .tmzg .. => tmzg _ _ | .tz .. => tz _ _ | .tnlz .. => tnlz _ _ | .tlz .. => tlz _ _
  | .tnz .. => tnz _ _ | .tpzl .. => tpzl _ _ | .tnmz .. => tnmz _ _ | .tn .. => tn _ _ | .tnpz .. => tnpz _ _
  | .tngz .. => tngz _ _ | .tskp .. => tskp _ _ | .jz .. => jz _ _ | .jnz .. => jnz _ _ | .jp .. => jp _ _
  | .jn .. => jn _ _ | .j .. => j _ | .nop .. => nop _ | .jmgi .. => jmgi _ _ | .lmj .. => lmj _ _ | .jo .. => jo _
  | .jdf .. => jdf _ | .jno .. => jno _ | .jndf .. => jndf _ | .jc .. => jc _ | .jnc .. => jnc _
  | .jgd .. => jgd _ _ _ | .djz .. => djz _ _ | .slj .. => slj _ | .ts .. => ts _ | .tss .. => tss _
  | .tcs .. => tcs _ | .halt .. => halt _ | .ld .. => ld _ | .sd .. => sd _ | .ur => ur

theorem decode_of_rowOf {m : Mode} {w : Word} {i : Instr} (h : rowOf m (fieldsOf w) = some i) : decode m w = .ok i := by
  rw [decode, h]

/-- Encoding keeps the fields (R130), and the fields select the row (R137). -/
theorem decode_encode {m : Mode} {i : Instr} (h : i.availableIn m = true) : decode m (encode i) = .ok i :=
  decode_of_rowOf (by rw [encode, fieldsOf_toWord, Laws.DecodeFields.statement i m h])

/-- Settles O1, from the decoding of an encoding. -/
theorem decodeOfEncode : Obligations.DecodeOfEncode := fun _ _ h => decode_encode h

/-- A word that is the encoding of an instruction decodes to it. -/
theorem decode_of_eq_encode {m : Mode} {w : Word} {i : Instr} (hw : w = encode i) (h : i.availableIn m = true) :
    decode m w = .ok i := hw ▸ decode_encode h

/-- Settles O2: every word but that of TZ is the encoding of its instruction; TZ ignores `a` (R139), which is 010 here, so its
word is decoded by its fields. -/
theorem decodeWords : Obligations.DecodeWords :=
  ⟨decode_of_eq_encode (by decide) rfl, decode_of_eq_encode (by decide) rfl, decode_of_eq_encode (by decide) rfl,
    decode_of_eq_encode (by decide) rfl, decode_of_eq_encode (by decide) rfl, decode_of_eq_encode (by decide) rfl,
    decode_of_eq_encode (by decide) rfl, decode_of_rowOf (by decide), decode_of_eq_encode (by decide) rfl⟩

end Sys2Proof

namespace Sys2Proof.Machine

/-! ### Steps without an instruction (R150; spec/40_cycle.md R161, R173) -/

theorem State.discard_discard (s : State) : s.discard.discard = s.discard := rfl

section
variable {s r : State}

/-- Fetch leaves the state as it is, so its raise is taken on the state at Fetch. -/
theorem step_of_fetch_raised {c : IntClass} {d : Word} (hrun : s.running = true) (hfetch : s.discard.fetch = .raised c d r) :
    step s = s.discard.takeSync c d := by
  have hr : r = s.discard := by simpa [hfetch] using s.discard.fetch_holds
  rw [step, if_pos hrun, hfetch, hr, Res.finishWith, State.keepSurvivors_commit _ (by simp), State.discard_discard]

theorem step_of_decode_error {w : Word} {e : DecodeReject} (hrun : s.running = true) (hfetch : s.discard.fetch = .ok w r)
    (hdecode : decode s.mode w = .error e) : step s = s.rejectEncoding w := by
  rw [step, if_pos hrun, hfetch, Res.finishWith, hdecode]

theorem State.rejectEncoding_of_recognized {w : Word} (h : s.recognized (fieldsOf w) = true) :
    s.rejectEncoding w = .refused .unspecifiedInstruction := if_pos h

theorem State.rejectEncoding_of_not_recognized {w : Word} (h : s.recognized (fieldsOf w) = false) :
    s.rejectEncoding w = s.discard.takeSync .invalidInstruction w := if_neg (by simp [h])

end

/-- Settles O5: the step by the outcome of Fetch, and a rejected word by the parameter `recognized`. -/
theorem stepFaults : Obligations.StepFaults := by
  unfold Obligations.StepFaults
  intro s hrun
  refine ⟨fun c d r => step_of_fetch_raised hrun, fun w r e hfetch hdecode => ?_⟩
  rw [step_of_decode_error hrun hfetch hdecode]
  exact ⟨State.rejectEncoding_of_not_recognized, State.rejectEncoding_of_recognized⟩

/-! ### Register pairs that start at A15 (R143) -/

@[simp] theorem State.pair_15 (s : State) : s.pair 15 = .refused .pairOverflow := rfl

theorem forget_eq_ok {α : Type} {x : Res α} {r : State} : forget x = .ok () r ↔ ∃ v, x = .ok v r := by
  cases x <;> simp [forget]

/-- The two words of a double operand are read where its resolution succeeds. -/
theorem State.forget_operand2 (s : State) (m : AddrSpec) : forget (s.operand2 m) = forget (s.operandLocs Perms.read m) :=
  s.operand2_bind m _

/-- An instruction that checks its pair right after its resolution `x` is refused once `x` has succeeded. -/
theorem exec_refused_of_pair {α : Type} {i : Instr} {s r : State} {a : BitVec 4} {x : Res α}
    {f : α → Unit → State → Res Act} (hexec : exec i s = (x.bind fun v t => (t.pair a).bind (f v)).finish)
    (ha : (a != 15) = false) (hx : forget x = .ok () r) : exec i s = .refused .pairOverflow := by
  obtain rfl : a = 15 := bne_eq_false_iff_eq.1 ha
  obtain ⟨v, rfl⟩ := forget_eq_ok.1 hx
  rw [hexec, Res.bind_ok, State.pair_15, Res.bind_refused, Res.finish_refused]

/-- Settles O53: an instruction out of its pair's range checks the pair of `a` = 15 right after it has resolved its operand,
its two words or its target; an instruction without a pair is never out of range. -/
theorem pairRefused : Obligations.PairRefused := by
  unfold Obligations.PairRefused
  intro i s r hpair hres
  cases i with
  | au j a m | anu j a m | mi j a m | di j a m | dsf j a m | df j a m => exact exec_refused_of_pair rfl hpair hres
  | tw j a m | tnw j a m | mlu j a m | or j a m | xor j a m | and j a m => exact exec_refused_of_pair rfl hpair hres
  | dl a m | dln a m | ds a m => exact exec_refused_of_pair rfl hpair hres
  | dlm a m | da a m | dan a m =>
    exact exec_refused_of_pair rfl hpair ((s.discard.forget_operand2 m).trans hres)
  | djz a m | dsc a m | dsl a m | dsa a m | ldsc a m | ldsl a m => exact exec_refused_of_pair rfl hpair hres
  | _ => exact Bool.noConfusion hpair

end Sys2Proof.Machine
end

section
/-! Fetch and the step that runs an instruction (spec/40_cycle.md R160 to R162, R168): the bank that Fetch reads through, its
checks in their order, and a step by `running` and by what the fetched word decodes to. -/

namespace Sys2Proof.Machine

/-! ### The bank of Fetch (R161) -/

section
variable {s : State}

theorem State.fetchBank_of_basic {k : BasicSlot} (hmode : s.basicMode = true)
    (hslot : s.basicBankSelect (parOffset s.par).toNat = some k) : s.fetchBank = .ok s.br[k.number] s := by
  rw [State.fetchBank, if_pos hmode, hslot]

theorem State.fetchBank_of_basic_none (hmode : s.basicMode = true)
    (hslot : s.basicBankSelect (parOffset s.par).toNat = none) :
    s.fetchBank = .raised .referenceViolation (BitVec.ofNat 36 (parOffset s.par).toNat) s := by
  rw [State.fetchBank, if_pos hmode, hslot, BitVec.ofNat_toNat]

theorem State.fetchBank_of_extended (hmode : s.basicMode = false) : s.fetchBank = .ok s.pb s :=
  if_neg (Bool.eq_false_iff.1 hmode)

theorem State.fetch_of_fetchBank {b : BaseRegister} (hbank : s.fetchBank = .ok b s) : s.fetch = s.fetchFrom b := by
  rw [State.fetch, hbank, Res.bind_ok]

end

/-! ### The checks of Fetch in their order (R161; spec/20_memory.md R115) -/

/-- A Fetch asks for execute permission and for nothing else. -/
theorem Perms.exec_subset (p : Perms) : Perms.exec.subset p = p.e := by
  simp [Perms.subset, Perms.exec]

section
variable {s : State} {b : BaseRegister}

theorem State.fetchFrom_of_void (hvoid : b.isVoid = true) : s.fetchFrom b = .raised .addressingException s.par s :=
  if_pos hvoid

theorem State.fetchFrom_of_outside (hvoid : b.isVoid = false)
    (hout : (parOffset s.par).toNat < b.lower ∨ b.upper < (parOffset s.par).toNat) :
    s.fetchFrom b = .raised .referenceViolation s.par s := by
  have hholds : b.holds (parOffset s.par).toNat = false := by
    rw [← Bool.not_eq_true, BaseRegister.holds_eq_true_iff]
    omega
  simp only [State.fetchFrom, hvoid, hholds, Bool.false_eq_true, if_false, Bool.not_false, if_true]

section
variable (hvoid : b.isVoid = false) (hlo : b.lower ≤ (parOffset s.par).toNat) (hhi : (parOffset s.par).toNat ≤ b.upper)
include hvoid hlo hhi

/-- Inside the limits of a bank that is not void, execute permission comes before the end of storage. -/
theorem State.fetchFrom_of_inside :
    s.fetchFrom b =
      if (granted b s.key).e = false then .raised .referenceViolation s.par s
      else if s.params.storageSize ≤ b.base + (parOffset s.par).toNat then
        .stuck (.absentStorage (b.base + (parOffset s.par).toNat))
      else .ok (s.memory.read (b.base + (parOffset s.par).toNat)) s := by
  have hholds : b.holds (parOffset s.par).toNat = true := (BaseRegister.holds_eq_true_iff _ _).2 ⟨hlo, hhi⟩
  have hperms : b.permissions s.key = granted b s.key := rfl
  simp only [State.fetchFrom, hvoid, hholds, hperms, Perms.exec_subset, Bool.not_eq_true', Bool.true_eq_false,
    Bool.false_eq_true, if_false]

theorem State.fetchFrom_of_unpermitted (hperm : (granted b s.key).e = false) :
    s.fetchFrom b = .raised .referenceViolation s.par s := by
  rw [State.fetchFrom_of_inside hvoid hlo hhi, if_pos hperm]

theorem State.fetchFrom_of_absent (hperm : (granted b s.key).e = true)
    (hend : s.params.storageSize ≤ b.base + (parOffset s.par).toNat) :
    s.fetchFrom b = .stuck (.absentStorage (b.base + (parOffset s.par).toNat)) := by
  rw [State.fetchFrom_of_inside hvoid hlo hhi, if_neg (by simp [hperm]), if_pos hend]

theorem State.fetchFrom_of_present (hperm : (granted b s.key).e = true)
    (hend : b.base + (parOffset s.par).toNat < s.params.storageSize) :
    s.fetchFrom b = .ok (s.memory.read (b.base + (parOffset s.par).toNat)) s := by
  rw [State.fetchFrom_of_inside hvoid hlo hhi, if_neg (by simp [hperm]), if_neg (Nat.not_le.2 hend)]

end

end

/-- Settles O4: the bank by the mode and the slot of the offset, then its checks one after another. -/
theorem fetchOutcomes : Obligations.FetchOutcomes := by
  unfold Obligations.FetchOutcomes
  rintro s b _ rfl
  refine ⟨fun hmode hslot => ?_, fun hbank => ?_⟩
  · rw [State.fetch, State.fetchBank_of_basic_none hmode hslot, Res.bind_raised]
    rfl
  · have hfetch : s.fetch = s.fetchFrom b := by
      obtain ⟨hmode, k, hslot, rfl⟩ | ⟨hmode, rfl⟩ := hbank
      · exact State.fetch_of_fetchBank (State.fetchBank_of_basic hmode hslot)
      · exact State.fetch_of_fetchBank (State.fetchBank_of_extended hmode)
    rw [hfetch]
    exact ⟨State.fetchFrom_of_void, State.fetchFrom_of_outside, State.fetchFrom_of_unpermitted, State.fetchFrom_of_absent,
      State.fetchFrom_of_present⟩

/-! ### The step (R160, R162, R168) -/

section
variable {s : State}

theorem step_of_decode_ok {r : State} {w : Word} {i : Instr} (hrun : s.running = true) (hfetch : s.discard.fetch = .ok w r)
    (hdecode : decode s.mode w = .ok i) : step s = exec i s := by
  rw [step, if_pos hrun, hfetch, Res.finishWith, hdecode]

theorem step_of_stopped (hstop : s.running = false) : step s = .next s := if_neg (Bool.eq_false_iff.1 hstop)

end

/-- Settles O3: the step after a Fetch that answers is the instruction that the word decodes to. -/
theorem stepRunsDecoded : Obligations.StepRunsDecoded := by
  unfold Obligations.StepRunsDecoded
  exact fun _ _ _ _ => step_of_decode_ok

/-- Settles O6: the branch of the step for a stopped processor. -/
theorem stoppedStays : Obligations.StoppedStays := by
  unfold Obligations.StoppedStays
  exact fun _ => step_of_stopped

end Sys2Proof.Machine
end

section
/-! The end of an instruction that completes (spec/40_cycle.md R160, R165, R166): the rules for Writeback of one more pending
write, what the state after Writeback holds, and the completion of an instruction that has only formed pending writes. -/

namespace Sys2Proof.Machine

/-! ### Writeback of one more pending write (R165) -/

section
variable (s : State)

theorem State.commit_dr_writeGrs (n : Fin 128) (v : Word) : (s.writeGrs n v).commit.dr = s.commit.dr := by
  simp [List.foldl_append, applyDr]

theorem State.commit_memory_writeGrs (n : Fin 128) (v : Word) : (s.writeGrs n v).commit.memory = s.commit.memory := by
  simp [List.foldl_append, applyMem]

theorem State.commit_dr_writeLoc (l : Loc) (v : Word) : (s.writeLoc l v).commit.dr = s.commit.dr := by
  cases l with
  | grs n => exact s.commit_dr_writeGrs n v
  | mem slot rel abs => simp [State.writeLoc, List.foldl_append, applyDr]

theorem State.commit_memory_writeLoc_mem (slot : Fin 16) (rel abs : Nat) (v : Word) :
    (s.writeLoc (.mem slot rel abs) v).commit.memory = s.commit.memory.write abs v := by
  simp [State.writeLoc, List.foldl_append, applyMem]

theorem State.readGrs_writeLoc_mem (slot : Fin 16) (rel abs : Nat) (v : Word) (n : Fin 128) :
    (s.writeLoc (.mem slot rel abs) v).readGrs n = s.readGrs n := s.readGrs_pend_mem n abs v

theorem State.aCell_writeLoc (l : Loc) (v : Word) (a : BitVec 4) : (s.writeLoc l v).aCell a = s.aCell a := by
  cases l <;> rfl

end

/-! ### The state that a resolution leaves (spec/20_memory.md R113) -/

section
variable {s r : State} (h : Indexes s.discard r)
include h

theorem Indexes.aCell_eq (a : BitVec 4) : r.aCell a = s.aCell a := by
  obtain ⟨hcell, -⟩ := h.views
  exact hcell a

theorem Indexes.xCell_eq (a : BitVec 4) : r.xCell a = s.xCell a := by
  obtain ⟨-, hcell, -⟩ := h.views
  exact hcell a

theorem Indexes.rCell_eq (a : BitVec 4) : r.rCell a = s.rCell a := by
  obtain ⟨-, -, hcell, -⟩ := h.views
  exact hcell a

theorem Indexes.quarterWord_eq : r.quarterWord = s.quarterWord := by
  obtain ⟨-, -, -, -, -, -, hquarter, -⟩ := h.views
  exact hquarter

theorem Indexes.commit_dr_eq : r.commit.dr = s.dr := by
  obtain ⟨-, hdr, -⟩ := h.fields
  rw [State.commit_dr, h.foldl_applyDr, hdr, State.discard_dr]

theorem Indexes.commit_memory_eq : r.commit.memory = s.memory := by
  obtain ⟨-, -, -, -, -, -, -, -, -, -, -, hmemory, -⟩ := h.fields
  rw [State.commit_memory, h.foldl_applyMem, hmemory, State.discard_memory]

end

/-- A resolution that answers has incremented index registers and done nothing else. -/
theorem Bumps.indexes {α : Type} {s r : State} {x : Res α} {v : α} (h : Bumps s x) (hx : x = .ok v r) : Indexes s r :=
  Bumped.indexes (h.of_eq_ok hx)

/-! ### The words of the statements, after Writeback -/

section
variable {s : State} (r : State) (act : Act)

theorem sets_writeback (n : Fin 128) (v : Word) : Sets r ((r.writeGrs n v).writeback act) n v := by
  refine ⟨?_, fun k hk => ?_⟩
  · rw [State.writeback_grs_getElem, State.readGrs_writeGrs_self]
  · rw [State.writeback_grs_getElem, State.readGrs_writeGrs_of_ne _ _ hk]

theorem setsTwo_writeback {n k : Fin 128} (hne : k ≠ n) (v w : Word) :
    SetsTwo r (((r.writeGrs n v).writeGrs k w).writeback act) n v k w := by
  refine ⟨?_, ?_, fun c hn hk => ?_⟩
  · rw [State.writeback_grs_getElem, State.readGrs_writeGrs_of_ne _ _ hne.symm, State.readGrs_writeGrs_self]
  · rw [State.writeback_grs_getElem, State.readGrs_writeGrs_self]
  · rw [State.writeback_grs_getElem, State.readGrs_writeGrs_of_ne _ _ hk, State.readGrs_writeGrs_of_ne _ _ hn]

variable {r act}

theorem sameStorage_of_commit_memory {u : State} (h : u.commit.memory = s.memory) : SameStorage s (u.writeback act) :=
  fun a => by rw [State.writeback_memory, h]

theorem setsLoc_writeback (h : Indexes s.discard r) (hwf : s.memory.wf) (l : Loc) (v : Word) :
    SetsLoc s r ((r.writeLoc l v).writeback act) l v := by
  cases l with
  | grs n =>
    exact ⟨sets_writeback r act n v, sameStorage_of_commit_memory ((r.commit_memory_writeGrs n v).trans h.commit_memory_eq)⟩
  | mem slot rel abs =>
    have hmemory : ((r.writeLoc (.mem slot rel abs) v).writeback act).memory = s.memory.write abs v := by
      rw [State.writeback_memory, State.commit_memory_writeLoc_mem, h.commit_memory_eq]
    refine ⟨fun k => ?_, ?_, fun b hb => ?_⟩
    · rw [State.writeback_grs_getElem, State.readGrs_writeLoc_mem]
    · rw [hmemory, Memory.read_write_self hwf]
    · rw [hmemory, Memory.read_write_of_ne _ _ hb]

end

/-! ### The two locations of a double word (spec/20_memory.md R110) -/

/-- Two successive cells, or two successive words of storage. -/
inductive AdjacentLocs : Loc × Loc → Prop where
  | grs (n : Fin 128) : AdjacentLocs (.grs n, .grs (n + 1))
  | mem (slot : Fin 16) (rel abs : Nat) : AdjacentLocs (.mem slot rel abs, .mem slot (rel + 1) (abs + 1))

/-- The double-word operand is two checked places, the second the successor of the first. -/
theorem State.operandLocs_eq_ok {s r : State} {acc : Perms} {m : AddrSpec} {l : Loc × Loc}
    (h : s.operandLocs acc m = .ok l r) :
    ∃ p p2, r.check acc p = .ok l.1 r ∧ r.successor p = .ok p2 r ∧ r.check acc p2 = .ok l.2 r := by
  obtain ⟨p, t, -, hrest⟩ := Res.bind_eq_ok.1 h
  obtain ⟨l1, u, h1, hrest'⟩ := Res.bind_eq_ok.1 hrest
  obtain ⟨p2, v, hsucc, hrest''⟩ := Res.bind_eq_ok.1 hrest'
  obtain ⟨l2, w, h2, hpair⟩ := Res.bind_eq_ok.1 hrest''
  obtain rfl := (stays_check t acc p).of_eq_ok h1
  obtain rfl := (stays_successor u p).of_eq_ok hsucc
  obtain rfl := (stays_check v acc p2).of_eq_ok h2
  cases hpair
  exact ⟨p, p2, h1, hsucc, h2⟩

theorem State.successor_grs_eq_ok {s t : State} {n : Fin 128} {p : Place} (h : s.successor (.grs n) = .ok p t) :
    p = .grs (n + 1) := by
  simp only [State.successor, State.grsPlace] at h
  split at h
  · cases h
  · split at h
    · cases h
    · cases h
      rfl

theorem adjacentLocs_of_operandLocs {s r : State} {acc : Perms} {m : AddrSpec} {l : Loc × Loc}
    (h : s.operandLocs acc m = .ok l r) : AdjacentLocs l := by
  obtain ⟨l1, l2⟩ := l
  obtain ⟨p, p2, h1, hsucc, h2⟩ := State.operandLocs_eq_ok h
  cases p with
  | grs n =>
    obtain rfl := State.successor_grs_eq_ok hsucc
    cases h1
    cases h2
    exact .grs n
  | mem slot rel =>
    cases hsucc
    obtain ⟨-, -, -, -, rfl⟩ := State.of_check_mem_eq_ok h1
    obtain ⟨-, -, -, -, rfl⟩ := State.of_check_mem_eq_ok h2
    exact .mem slot rel _

theorem setsLocs_writeback {s r : State} {act : Act} (h : Indexes s.discard r) (hwf : s.memory.wf) {l : Loc × Loc}
    (hl : AdjacentLocs l) (v w : Word) : SetsLocs s r (((r.writeLoc l.1 v).writeLoc l.2 w).writeback act) l v w := by
  cases hl with
  | grs n =>
    have hne : n + 1 ≠ n := by simp
    have hmemory : ((r.writeGrs n v).writeGrs (n + 1) w).commit.memory = s.memory := by
      rw [State.commit_memory_writeGrs, State.commit_memory_writeGrs, h.commit_memory_eq]
    exact ⟨setsTwo_writeback r act hne v w, sameStorage_of_commit_memory hmemory⟩
  | mem slot rel abs =>
    have hmemory : (((r.writeLoc (.mem slot rel abs) v).writeLoc (.mem slot (rel + 1) (abs + 1)) w).writeback act).memory =
        (s.memory.write abs v).write (abs + 1) w := by
      rw [State.writeback_memory, State.commit_memory_writeLoc_mem, State.commit_memory_writeLoc_mem, h.commit_memory_eq]
    refine ⟨fun k => ?_, ?_, ?_, fun c ha hb => ?_⟩
    · rw [State.writeback_grs_getElem, State.readGrs_writeLoc_mem, State.readGrs_writeLoc_mem]
    · rw [hmemory, Memory.read_write_of_ne _ _ (Nat.ne_of_lt abs.lt_succ_self), Memory.read_write_self hwf]
    · rw [hmemory, Memory.read_write_self (Memory.wf_write hwf _ _)]
    · rw [hmemory, Memory.read_write_of_ne _ _ hb, Memory.read_write_of_ne _ _ ha]

/-! ### Completion (R160, R166) -/

theorem parAfter_nextPar (par : Word) (act : Act) : ParAfter par (nextPar par act) act := by
  cases act with
  | seq => exact ⟨withOffset_offset _ _, withOffset_high _ _⟩
  | skip => exact ⟨withOffset_offset _ _, withOffset_high _ _⟩
  | jump n => exact ⟨withOffset_offset _ _, withOffset_high _ _⟩
  | jumpPar p => rfl
  | halt d => exact ⟨withOffset_offset _ _, withOffset_high _ _⟩

/-- The state differs from `s` in its pending writes only: what an instruction that completes has made of it before Writeback. -/
def PendsOnly (s u : State) : Prop := ∃ l, u = { s with pw := l }

theorem Indexes.pendsOnly {s r : State} (h : Indexes s.discard r) : PendsOnly s r := by
  obtain ⟨l, rfl, -⟩ := h
  exact ⟨l, rfl⟩

section
variable {s u : State} (h : PendsOnly s u)
include h

theorem PendsOnly.pend (w : PendingWrite) : PendsOnly s (u.pend w) := by
  obtain ⟨l, rfl⟩ := h
  exact ⟨l ++ [w], rfl⟩

theorem PendsOnly.writeGrs (n : Fin 128) (v : Word) : PendsOnly s (u.writeGrs n v) := h.pend _

theorem PendsOnly.writeLoc (l : Loc) (v : Word) : PendsOnly s (u.writeLoc l v) := by
  cases l with
  | grs n => exact h.writeGrs n v
  | mem slot rel abs => exact h.pend _

theorem PendsOnly.keepsRest (act : Act) : KeepsRest s (u.writeback act) := by
  obtain ⟨l, rfl⟩ := h
  exact
    { br := State.writeback_br _ act
      pb := State.writeback_pb _ act
      key := State.writeback_key _ act
      pending := State.writeback_pending _ act
      running := State.writeback_running _ act
      stopReason := State.writeback_stopReason _ act
      stopDetail := State.writeback_stopDetail _ act
      stopRequested := State.writeback_stopRequested _ act
      params := State.writeback_params _ act
      pw := State.writeback_pw _ act }

/-- An instruction that is no HALT and has only formed pending writes completes in the state that Writeback leaves, if these
writes keep the DR bit that defers interrupts (R167). -/
theorem PendsOnly.completes {i : Instr} {act : Act} {P : State → Prop} (hexec : exec i s = u.complete act)
    (hact : ∀ d, act ≠ .halt d) (hquiet : s.Quiet) (hdeferrable : u.commit.deferrableEnabled = s.deferrableEnabled)
    (hP : P (u.writeback act)) : Completes i s act P := by
  have hrest := h.keepsRest act
  have hafter : (u.writeback act).Quiet := hquiet.congr hrest.pending hdeferrable hrest.stopRequested
  have hpar : u.par = s.par := by
    obtain ⟨l, rfl⟩ := h
    rfl
  refine ⟨u.writeback act, ?_, ?_, hrest, hP⟩
  · rw [hexec, u.complete_of_quiet act hact hafter]
  · rw [State.writeback_par, hpar]
    exact parAfter_nextPar s.par act

/-- The same for an instruction that writes no bit of the DR. -/
theorem PendsOnly.completes_of_dr {i : Instr} {act : Act} {P : State → Prop} (hexec : exec i s = u.complete act)
    (hact : ∀ d, act ≠ .halt d) (hquiet : s.Quiet) (hdr : u.commit.dr = s.dr) (hP : P (u.writeback act)) :
    Completes i s act P :=
  h.completes hexec hact hquiet (congrArg (·.getLsbD 31) hdr) hP

end

theorem seq_ne_halt (d : BitVec 18) : Act.seq ≠ .halt d := Act.noConfusion

section
variable {i : Instr} {s r : State} {act : Act} (h : Indexes s.discard r) (hact : ∀ d, act ≠ .halt d) (hquiet : s.Quiet)
include h hact hquiet

/-- A resolution and one register write. -/
theorem completes_of_writeGrs {n : Fin 128} {v : Word} (hexec : exec i s = (r.writeGrs n v).complete act) :
    Completes i s act fun t => Sets r t n v ∧ t.dr = s.dr ∧ SameStorage s t := by
  have hdr : (r.writeGrs n v).commit.dr = s.dr := by rw [State.commit_dr_writeGrs, h.commit_dr_eq]
  have hmemory : (r.writeGrs n v).commit.memory = s.memory := by rw [State.commit_memory_writeGrs, h.commit_memory_eq]
  exact (h.pendsOnly.writeGrs n v).completes_of_dr hexec hact hquiet hdr
    ⟨sets_writeback r act n v, hdr, sameStorage_of_commit_memory hmemory⟩

/-- A resolution and the writes of two registers. -/
theorem completes_of_writeGrs_writeGrs {n k : Fin 128} {v w : Word} (hne : k ≠ n)
    (hexec : exec i s = ((r.writeGrs n v).writeGrs k w).complete act) :
    Completes i s act fun t => SetsTwo r t n v k w ∧ t.dr = s.dr ∧ SameStorage s t := by
  have hdr : ((r.writeGrs n v).writeGrs k w).commit.dr = s.dr := by
    rw [State.commit_dr_writeGrs, State.commit_dr_writeGrs, h.commit_dr_eq]
  have hmemory : ((r.writeGrs n v).writeGrs k w).commit.memory = s.memory := by
    rw [State.commit_memory_writeGrs, State.commit_memory_writeGrs, h.commit_memory_eq]
  exact ((h.pendsOnly.writeGrs n v).writeGrs k w).completes_of_dr hexec hact hquiet hdr
    ⟨setsTwo_writeback r act hne v w, hdr, sameStorage_of_commit_memory hmemory⟩

/-- A resolution and the write of a location. -/
theorem completes_of_writeLoc {l : Loc} {v : Word} (hwf : s.memory.wf)
    (hexec : exec i s = (r.writeLoc l v).complete act) :
    Completes i s act fun t => SetsLoc s r t l v ∧ t.dr = s.dr := by
  have hdr : (r.writeLoc l v).commit.dr = s.dr := by rw [State.commit_dr_writeLoc, h.commit_dr_eq]
  exact (h.pendsOnly.writeLoc l v).completes_of_dr hexec hact hquiet hdr ⟨setsLoc_writeback h hwf l v, hdr⟩

/-- A resolution and the writes of the two locations of a double word. -/
theorem completes_of_writeLoc_writeLoc {l : Loc × Loc} {v w : Word} (hwf : s.memory.wf) (hl : AdjacentLocs l)
    (hexec : exec i s = ((r.writeLoc l.1 v).writeLoc l.2 w).complete act) :
    Completes i s act fun t => SetsLocs s r t l v w ∧ t.dr = s.dr := by
  have hdr : ((r.writeLoc l.1 v).writeLoc l.2 w).commit.dr = s.dr := by
    rw [State.commit_dr_writeLoc, State.commit_dr_writeLoc, h.commit_dr_eq]
  exact ((h.pendsOnly.writeLoc l.1 v).writeLoc l.2 w).completes_of_dr hexec hact hquiet hdr
    ⟨setsLocs_writeback h hwf hl v w, hdr⟩

end

end Sys2Proof.Machine
end

section
/-! The statements about loads and stores (spec/41_load_store.md R181 to R206): each shape of an instruction completes with its
result once its resolution has succeeded, and the immediate form of a store ends without one. -/

namespace Sys2Proof.Machine

/-! ### Single-word loads (R181 to R188) -/

/-- An instruction that resolves its operand and then writes one register. -/
theorem loadsTo_of_exec {i : Instr} {j : BitVec 4} {m : AddrSpec} {dest : State → Fin 128} {value : State → Word → Word}
    (hexec : ∀ s, exec i s = ((s.discard.operand j m).bind fun u r => .ok .seq (r.writeGrs (dest r) (value r u))).finish)
    (hdest : ∀ s r, Indexes s.discard r → dest r = dest s) : LoadsTo i j m dest value := by
  intro s u r hquiet hoperand
  have hr : Indexes s.discard r := (bumps_operand _ j m).indexes hoperand
  refine completes_of_writeGrs hr seq_ne_halt hquiet ?_
  rw [hexec, hoperand, Res.bind_ok, Res.finish_ok, hdest s r hr]

/-- Settles O25: each load is a resolution and one register write, to A, R or X. -/
theorem loadResults : Obligations.LoadResults := by
  unfold Obligations.LoadResults
  intro j a m
  have hA (s r : State) (h : Indexes s.discard r) : r.aCell a = s.aCell a := h.aCell_eq a
  have hR (s r : State) (h : Indexes s.discard r) : r.rCell a = s.rCell a := h.rCell_eq a
  have hX (s r : State) (h : Indexes s.discard r) : r.xCell a = s.xCell a := h.xCell_eq a
  exact ⟨loadsTo_of_exec (fun _ => rfl) hA, loadsTo_of_exec (fun _ => rfl) hA, loadsTo_of_exec (fun _ => rfl) hA,
    loadsTo_of_exec (fun _ => rfl) hA, loadsTo_of_exec (fun _ => rfl) hR, loadsTo_of_exec (fun _ => rfl) hX,
    loadsTo_of_exec (fun _ => rfl) hX, loadsTo_of_exec (fun _ => rfl) hX⟩

/-! ### Double words (R194 to R197) -/

theorem State.pair_of_ne (s : State) {a : BitVec 4} (h : a ≠ 15) : s.pair a = .ok () s := if_neg h

/-- A word-by-word load: the second word is read through the pending write of A(a) (spec/10_state.md R26). -/
theorem pairLoadsTo_of_exec {i : Instr} {a : BitVec 4} {m : AddrSpec} {f : Word → Word}
    (hexec : ∀ s, exec i s = (s.discard.loadWords a m f).finish) : PairLoadsTo i a m f := by
  intro s l r hquiet ha hlocs
  have hr : Indexes s.discard r := (bumps_operandLocs _ _ m).indexes hlocs
  refine completes_of_writeGrs_writeGrs hr seq_ne_halt hquiet (s.aCell_succ_ne a ha) ?_
  rw [hexec, State.loadWords, hlocs, Res.bind_ok, r.pair_of_ne ha, Res.bind_ok, Res.finish_ok]
  simp only [State.writeA, State.writeGrs_aCell, hr.aCell_eq, State.readLoc_writeGrs]

theorem magnitude2_fst (w : Word × Word) : (magnitude2 w).1 = if w.1.msb then ~~~w.1 else w.1 := apply_ite Prod.fst _ _ _

theorem magnitude2_snd (w : Word × Word) : (magnitude2 w).2 = if w.1.msb then ~~~w.2 else w.2 := apply_ite Prod.snd _ _ _

/-- DLM reads both words before it writes (R196). -/
theorem exec_dlm {s r : State} {a : BitVec 4} {m : AddrSpec} {l : Loc × Loc} (ha : a ≠ 15)
    (hlocs : s.discard.operandLocs Perms.read m = .ok l r) :
    exec (.dlm a m) s =
      ((r.writeA a (magnitude2 (r.readLoc l.1, r.readLoc l.2)).1).writeA (a + 1)
        (magnitude2 (r.readLoc l.1, r.readLoc l.2)).2).complete .seq := by
  have hexec : exec (.dlm a m) s = (s.discard.loadPair a m magnitude2).finish := rfl
  rw [hexec, State.loadPair, State.operand2_bind, hlocs, Res.bind_ok, r.pair_of_ne ha, Res.bind_ok, Res.finish_ok]

/-- DS reads A(a+1) after it has written the first location (R197). -/
theorem exec_ds {s r : State} {a : BitVec 4} {m : AddrSpec} {l : Loc × Loc} (ha : a ≠ 15)
    (hlocs : s.discard.operandLocs Perms.write m = .ok l r) :
    exec (.ds a m) s =
      ((r.writeLoc l.1 (r.readA a)).writeLoc l.2 ((r.writeLoc l.1 (r.readA a)).readA (a + 1))).complete .seq := by
  have hexec : exec (.ds a m) s =
      ((s.discard.operandLocs Perms.write m).bind fun l r => (r.pair a).bind fun _ r =>
        .ok .seq ((r.writeLoc l.1 (r.readA a)).writeLoc l.2 ((r.writeLoc l.1 (r.readA a)).readA (a + 1)))).finish := rfl
  rw [hexec, hlocs, Res.bind_ok, r.pair_of_ne ha, Res.bind_ok, Res.finish_ok]

/-- Settles O26: a resolution of two words and two writes, the second value read before or after the first write. -/
theorem pairMoveResults : Obligations.PairMoveResults := by
  unfold Obligations.PairMoveResults
  intro a m
  refine ⟨pairLoadsTo_of_exec fun _ => rfl, pairLoadsTo_of_exec fun _ => rfl, ?dlm, ?ds⟩
  case dlm =>
    rintro s r l v w hquiet ha hlocs rfl rfl
    have hr : Indexes s.discard r := (bumps_operandLocs _ _ m).indexes hlocs
    refine completes_of_writeGrs_writeGrs hr seq_ne_halt hquiet (s.aCell_succ_ne a ha) ?_
    rw [exec_dlm ha hlocs, magnitude2_fst, magnitude2_snd, State.writeA, State.writeA, State.writeGrs_aCell,
      hr.aCell_eq, hr.aCell_eq]
  case ds =>
    intro s r l hquiet hwf ha hlocs
    have hr : Indexes s.discard r := (bumps_operandLocs _ _ m).indexes hlocs
    have hsecond : (r.writeLoc l.1 (r.readA a)).readA (a + 1) =
        if l.1 = .grs (s.aCell (a + 1)) then r.readA a else r.readA (a + 1) := by
      rw [State.readA, State.aCell_writeLoc, State.readGrs_writeLoc, ← hr.aCell_eq (a + 1)]
      rfl
    refine completes_of_writeLoc_writeLoc hr seq_ne_halt hquiet hwf (adjacentLocs_of_operandLocs hlocs) ?_
    rw [exec_ds ha hlocs, hsecond]

/-! ### Stores (R189 to R193, R198 to R205) -/

/-- A store through a field designator writes the merged word to its location, with the quarter-word bit at the start. -/
theorem storesTo_of_exec {i : Instr} {j : BitVec 4} {m : AddrSpec} {value : State → Word}
    (hexec : ∀ s, exec i s = (s.discard.store i j m value).finish) : StoresTo i j m value := by
  intro s l r hquiet hwf hfield hloc
  have hr : Indexes s.discard r := (bumps_operandLoc _ _ m).indexes hloc
  refine completes_of_writeLoc hr seq_ne_halt hquiet hwf ?_
  rw [hexec, State.store, if_pos hfield, hloc, Res.bind_ok, Res.finish_ok, State.storeField, hr.quarterWord_eq]

/-- A store of a whole word needs write access, and one of a part read access too (R111). -/
theorem storeAccess_eq (j : BitVec 4) : storeAccess j = Perms.mk false (decide (j ≠ 0)) true := by
  by_cases h : j = 0
  · rw [storeAccess, if_pos h, decide_eq_false (not_not.2 h)]; rfl
  · rw [storeAccess, if_neg h, decide_eq_true h]; rfl

/-- Settles O27: each store is a resolution with its access set and one write of the merged word. -/
theorem storeResults : Obligations.StoreResults := by
  unfold Obligations.StoreResults
  intro j a m
  exact ⟨storesTo_of_exec fun _ => rfl, storesTo_of_exec fun _ => rfl, storesTo_of_exec fun _ => rfl,
    storesTo_of_exec fun _ => rfl, storesTo_of_exec fun _ => rfl, storesTo_of_exec fun _ => rfl,
    storesTo_of_exec fun _ => rfl, storesTo_of_exec fun _ => rfl, storesTo_of_exec fun _ => rfl,
    storesTo_of_exec fun _ => rfl, storesTo_of_exec fun _ => rfl, storesTo_of_exec fun _ => rfl,
    storesTo_of_exec fun _ => rfl, storeAccess_eq j⟩

/-! ### The immediate forms (R206; spec/42_arithmetic.md R248) -/

section
variable (s : State) {j : BitVec 4} (h : isFieldDesignator j = false)
include h

theorem State.store_of_immediate (i : Instr) (m : AddrSpec) (value : State → Word) :
    s.store i j m value = s.immediateForm .immediateStore i := if_neg (Bool.eq_false_iff.1 h)

theorem State.increase_of_immediate (i : Instr) (m : AddrSpec) (k : Word) :
    s.increase i j m k = s.immediateForm .immediateIncrement i := if_neg (Bool.eq_false_iff.1 h)

theorem State.increaseFlags_of_immediate (i : Instr) (m : AddrSpec) (k : Word) :
    s.increaseFlags i j m k = s.immediateForm .immediateIncrement i := if_neg (Bool.eq_false_iff.1 h)

end

/-- An instruction in its immediate form is nothing but that form: it resolves nothing (notes/assumptions/7.md). -/
theorem exec_of_immediate {i : Instr} (h : i.hasStoreField = false) (s : State) :
    exec i s = (s.discard.immediateForm (immediateRefusal i) i : Res Act).finish := by
  cases i with
  | sa j a m | sna j a m | sma j a m | sr j a m | sx j a m =>
    exact congrArg Res.finish (State.store_of_immediate _ h _ m _)
  | sz j m | snz j m | sp1 j m | sn1 j m | sfs j m | sfz j m | sas j m | saz j m =>
    exact congrArg Res.finish (State.store_of_immediate _ h _ m _)
  | inc j m | dec j m | inc2 j m | dec2 j m | enz j m =>
    exact congrArg Res.finish (State.increase_of_immediate _ h _ m _)
  | add1 j m | sub1 j m => exact congrArg Res.finish (State.increaseFlags_of_immediate _ h _ m _)
  | _ => exact Bool.noConfusion h

/-- Settles O28: the raise has no pending write to drop, so its interrupt is taken on the state at Fetch. -/
theorem immediateForms : Obligations.ImmediateForms := by
  unfold Obligations.ImmediateForms
  intro i s h
  rw [exec_of_immediate h, State.immediateForm, State.discard_basicMode, State.discard_pp]
  refine ⟨fun hmode hpp => ?_, fun hother => ?_⟩
  · rw [if_pos ⟨hmode, hpp⟩, Res.finish_raised, (Indexes.refl s.discard).keepSurvivors_commit]
  · have hnot : ¬(s.basicMode = true ∧ s.pp ≠ 0) := fun ⟨hmode, hpp⟩ =>
      hother.elim (fun hext => Bool.noConfusion (hmode.symm.trans hext)) hpp
    rw [if_neg hnot, Res.finish_refused]

end Sys2Proof.Machine
end

section
/-! The ones'-complement adder (spec/42_arithmetic.md R222, R223, R249; spec/00_scope.md R9): its sum as one number of three cases,
and the laws of sum, carry and overflow at every width. -/

namespace Sys2Proof

section
variable {n : Nat}

/-- Two words are both all ones exactly when their unsigned sum is as large as it gets. -/
theorem allOnes_and_allOnes_iff (p q : BitVec n) :
    (p = BitVec.allOnes n ∧ q = BitVec.allOnes n) ↔ p.toNat + q.toNat = 2 * (2 ^ n - 1) := by
  have hp := p.isLt
  have hq := q.isLt
  simp only [← BitVec.toNat_inj, BitVec.toNat_allOnes]
  omega

/-! ### The sum (R222) -/

/-- The sum as a number: +0 for two numbers whose raw sum is all ones, and else with the carry brought round. -/
theorem toNat_onesSum (p q : BitVec n) :
    (onesSum p q).toNat =
      if p.toNat + q.toNat = 2 ^ n - 1 then 0
      else if 2 ^ n ≤ p.toNat + q.toNat then p.toNat + q.toNat - 2 ^ n + 1 else p.toNat + q.toNat := by
  have hp := p.isLt
  have hq := q.isLt
  have hraw := toNat_endAround p q
  have hmax := allOnes_and_allOnes_iff p q
  have hones : endAround p q = BitVec.allOnes n ↔ (endAround p q).toNat = 2 ^ n - 1 := by
    rw [← BitVec.toNat_inj, BitVec.toNat_allOnes]
  unfold onesSum
  split
  · next h =>
    obtain ⟨hall, hnot⟩ := h
    rw [hones] at hall
    rw [hmax] at hnot
    rw [BitVec.ofNat_eq_ofNat, BitVec.toNat_zero]
    split_ifs at hraw ⊢ <;> omega
  · next h =>
    rw [hones, hmax] at h
    rw [hraw] at h ⊢
    split_ifs at h ⊢ <;> omega

theorem endAroundSum_eq {p q : Nat} (hp : p < 2 ^ n) (hq : q < 2 ^ n) :
    endAroundSum n p q =
      if p + q = 2 ^ n - 1 then 0 else if 2 ^ n ≤ p + q then p + q - 2 ^ n + 1 else p + q := by
  have hraw : (p + q) % 2 ^ n + (p + q) / 2 ^ n = if 2 ^ n ≤ p + q then p + q - 2 ^ n + 1 else p + q := by
    split
    · next h =>
      rw [Nat.mod_eq_sub_mod h, Nat.mod_eq_of_lt (by omega),
        show (p + q) / 2 ^ n = 1 from Nat.div_eq_of_lt_le (by omega) (by omega)]
    · next h =>
      rw [Nat.mod_eq_of_lt (by omega), Nat.div_eq_of_lt (by omega), Nat.add_zero]
  unfold endAroundSum
  rw [hraw]
  split_ifs <;> omega

theorem toNat_onesAdd_r (p q : BitVec n) : (onesAdd p q).r.toNat = endAroundSum n p.toNat q.toNat :=
  (toNat_onesSum p q).trans (endAroundSum_eq p.isLt q.isLt).symm

theorem onesAdd_r_eq_allOnes_iff (hn : 0 < n) (p q : BitVec n) :
    (onesAdd p q).r = BitVec.allOnes n ↔ p = BitVec.allOnes n ∧ q = BitVec.allOnes n := by
  have hp := p.isLt
  have hq := q.isLt
  have htwo : 2 ^ (n - 1) * 2 = 2 ^ n := Nat.two_pow_pred_mul_two hn
  have hpos : 0 < 2 ^ (n - 1) := Nat.two_pow_pos _
  rw [allOnes_and_allOnes_iff, ← BitVec.toNat_inj, BitVec.toNat_allOnes]
  have hsum : (onesAdd p q).r.toNat = _ := toNat_onesSum p q
  rw [hsum]
  split_ifs <;> omega

/-! ### Carry and overflow (R222, R223) -/

theorem onesAdd_carry_iff (p q : BitVec n) : (onesAdd p q).carry = true ↔ 2 ^ n ≤ p.toNat + q.toNat := decide_eq_true_iff

theorem onesAdd_ovf_iff (p q : BitVec n) :
    (onesAdd p q).ovf = true ↔ p.msb = q.msb ∧ (onesAdd p q).r.msb ≠ p.msb := by
  simp [onesAdd]

/-- The value of a sum is that of its operands, or off by the whole range of signs, and then the signs say so. -/
theorem val_onesAdd_r_iff (hn : 0 < n) (p q : BitVec n) :
    val (onesAdd p q).r = val p + val q ↔ (onesAdd p q).ovf = false := by
  have hp := p.isLt
  have hq := q.isLt
  have htwo : 2 ^ (n - 1) * 2 = 2 ^ n := Nat.two_pow_pred_mul_two hn
  have htwoInt : (2 : Int) ^ n = ((2 ^ n : Nat) : Int) := by push_cast; rfl
  have hsum : (onesAdd p q).r.toNat = _ := toNat_onesSum p q
  rw [← Bool.not_eq_true, onesAdd_ovf_iff, val_eq_ite hn, val_eq_ite hn, val_eq_ite hn, htwoInt]
  simp only [BitVec.msb_eq_decide, ne_eq, decide_eq_decide, hsum]
  generalize 2 ^ (n - 1) = half at htwo
  generalize 2 ^ n = full at *
  split_ifs <;> omega

/-! ### The adder as an operation (R249) -/

theorem onesSum_comm (p q : BitVec n) : onesSum p q = onesSum q p :=
  BitVec.eq_of_toNat_eq (by rw [toNat_onesSum, toNat_onesSum, Nat.add_comm])

theorem onesAdd_comm (p q : BitVec n) : onesAdd p q = onesAdd q p := by
  have hmsb : (p.msb == q.msb && (onesSum q p).msb != p.msb) = (q.msb == p.msb && (onesSum q p).msb != q.msb) := by
    cases p.msb <;> cases q.msb <;> rfl
  rw [onesAdd, onesAdd, onesSum_comm p q, Nat.add_comm p.toNat, hmsb]

theorem onesAdd_not_self_r (p : BitVec n) : (onesAdd p (~~~p)).r = 0 := by
  have hp := p.isLt
  refine BitVec.eq_of_toNat_eq ((toNat_onesSum p (~~~p)).trans ?_)
  rw [BitVec.toNat_not, if_pos (by omega)]
  exact BitVec.toNat_zero.symm

theorem onesAdd_zero_r (p : BitVec n) : (onesAdd p 0).r = if p = BitVec.allOnes n then 0 else p := by
  have hp := p.isLt
  have hsum : (onesAdd p 0).r.toNat = _ := toNat_onesSum p 0
  rw [show (0 : BitVec n).toNat = 0 from BitVec.toNat_zero, Nat.add_zero] at hsum
  have hones : p = BitVec.allOnes n ↔ p.toNat = 2 ^ n - 1 := by rw [← BitVec.toNat_inj, BitVec.toNat_allOnes]
  split
  · next h => exact BitVec.eq_of_toNat_eq (hsum.trans (if_pos (hones.1 h)))
  · next h =>
    rw [if_neg (mt hones.2 h), if_neg (by omega)] at hsum
    exact BitVec.eq_of_toNat_eq hsum

/-! ### Values (R9) -/

theorem val_eq_of_getLsbD (hn : 0 < n) (p : BitVec n) :
    val p = if p.getLsbD (n - 1) then (p.toNat : Int) - (2 ^ n - 1) else p.toNat := by
  rw [val_eq_ite hn, ← BitVec.msb_eq_getLsbD_last, BitVec.msb_eq_decide]
  simp only [decide_eq_true_eq]

end

/-- Settles O29, from the laws of the adder at every width. -/
theorem adderLaws : Obligations.AdderLaws := by
  unfold Obligations.AdderLaws
  refine ⟨fun p q => ?_, fun p q => ?_⟩
  · exact ⟨toNat_onesAdd_r p q, onesAdd_ovf_iff p q, val_onesAdd_r_iff (by decide) p q, onesAdd_carry_iff p q,
      onesAdd_r_eq_allOnes_iff (by decide) p q, onesAdd_comm p q, onesAdd_not_self_r p, onesAdd_zero_r p,
      val_eq_of_getLsbD (by decide) p⟩
  · exact ⟨toNat_onesAdd_r p q, onesAdd_ovf_iff p q, val_onesAdd_r_iff (by decide) p q, onesAdd_carry_iff p q,
      onesAdd_r_eq_allOnes_iff (by decide) p q, val_eq_of_getLsbD (by decide) p⟩

end Sys2Proof
end

section
/-! Completions of arithmetic (spec/42_arithmetic.md R220, R221, R240; spec/40_cycle.md R165, R173): the pending writes of the DR
flags at Writeback and at a raise, and the end of an addition on each of its paths. -/

namespace Sys2Proof.Machine

/-! ### Masks and flags of the DR (R30, R221) -/

theorem getLsbD_foldl_or_one_shiftLeft (bits : List Nat) (d : Word) (k : Nat) :
    (bits.foldl (fun m b => m ||| (1#36 <<< b)) d).getLsbD k = (d.getLsbD k || decide (k < 36 ∧ k ∈ bits)) := by
  induction bits generalizing d with
  | nil => simp
  | cons b bits ih =>
    have hone : (1#36 <<< b).getLsbD k = decide (k < 36 ∧ k = b) := by
      rw [BitVec.getLsbD_shiftLeft, BitVec.getLsbD_one, Bool.eq_iff_iff]
      simp only [Bool.and_eq_true, Bool.not_eq_true', decide_eq_true_eq, decide_eq_false_iff_not]
      omega
    rw [List.foldl_cons, ih, BitVec.getLsbD_or, hone, Bool.or_assoc, ← Bool.decide_or]
    simp only [← and_or_left, List.mem_cons]

/-- A mask has the bits of its list. -/
theorem getLsbD_drMask (bits : List Nat) (k : Nat) : (drMask bits).getLsbD k = decide (k < 36 ∧ k ∈ bits) := by
  rw [drMask, getLsbD_foldl_or_one_shiftLeft]
  simp

/-- A pending write of the DR replaces the bits under its mask. -/
theorem getLsbD_applyDr (d mask v : Word) (survives : Bool) (k : Nat) :
    (applyDr d (.dr mask v survives)).getLsbD k = if mask.getLsbD k then v.getLsbD k else d.getLsbD k := by
  by_cases hk : k < 36
  · simp only [applyDr, BitVec.getLsbD_or, BitVec.getLsbD_and, BitVec.getLsbD_not, hk, decide_true, Bool.true_and]
    cases mask.getLsbD k <;> simp
  · simp [BitVec.getLsbD_of_ge _ k (Nat.le_of_not_lt hk)]

/-- The write of carry and overflow that an addition pends. -/
def flagWrite {n : Nat} (x : Sum n) (survives : Bool) : PendingWrite :=
  .dr (drMask [17, 16]) ((if x.carry then drMask [17] else 0) ||| (if x.ovf then drMask [16] else 0)) survives

theorem State.writeFlags_eq_pend {n : Nat} (s : State) (x : Sum n) (survives : Bool) :
    s.writeFlags x survives = s.pend (flagWrite x survives) := rfl

theorem flagsOf_applyDr {n : Nat} (d : Word) (x : Sum n) (survives : Bool) :
    FlagsOf d (applyDr d (flagWrite x survives)) x := by
  refine ⟨?_, ?_, fun k h17 h16 => ?_⟩
  · rw [flagWrite, getLsbD_applyDr, if_pos (by decide)]
    cases x.carry <;> cases x.ovf <;> rfl
  · rw [flagWrite, getLsbD_applyDr, if_pos (by decide)]
    cases x.carry <;> cases x.ovf <;> rfl
  · rw [flagWrite, getLsbD_applyDr, getLsbD_drMask, if_neg (by simp [h17, h16])]

/-- The write of divideCheck that a divide check pends. -/
def divideCheckWrite : PendingWrite := .dr (drMask [13]) (drMask [13]) true

theorem divideCheckOf_applyDr (d : Word) : DivideCheckOf d (applyDr d divideCheckWrite) true := by
  refine ⟨?_, fun k h13 => ?_⟩
  · rw [divideCheckWrite, getLsbD_applyDr, if_pos (by decide)]
    rfl
  · rw [divideCheckWrite, getLsbD_applyDr, getLsbD_drMask, if_neg (by simp [h13])]

/-! ### Writeback and raise with one more write of the DR (R165, R173) -/

section
variable (s : State) (mask v : Word) (survives : Bool)

theorem State.commit_pend_dr :
    (s.pend (.dr mask v survives)).commit = { s.commit with dr := applyDr s.commit.dr (.dr mask v survives) } := by
  simp [State.commit_eq, List.foldl_append, applyGrs, applyMem]

theorem State.keepSurvivors_pend_dr :
    (s.pend (.dr mask v true)).keepSurvivors = s.keepSurvivors.pend (.dr mask v true) := by
  simp [State.keepSurvivors, State.pend, PendingWrite.survives]

theorem State.writeback_pend_dr (act : Act) :
    (s.pend (.dr mask v survives)).writeback act =
      { s.writeback act with dr := applyDr s.commit.dr (.dr mask v survives) } := by
  rw [State.writeback, State.commit_pend_dr]
  rfl

end

/-- A raise after a resolution and a surviving write of the DR is taken on the state at Fetch with that write performed. -/
theorem Indexes.keepSurvivors_commit_pend_dr {s r : State} (h : Indexes s.discard r) (mask v : Word) :
    (r.pend (.dr mask v true)).keepSurvivors.commit =
      { s.discard with dr := applyDr s.dr (.dr mask v true) } := by
  rw [State.keepSurvivors_pend_dr, State.commit_pend_dr, h.keepSurvivors_commit, State.discard_dr]

/-! ### What an instruction leaves besides its flags -/

section
variable {s r : State} (h : Indexes s.discard r)
include h

theorem Indexes.params_eq : r.params = s.params := by
  obtain ⟨-, -, -, -, -, -, -, -, -, -, -, -, hparams⟩ := h.fields
  exact hparams

theorem Indexes.arithExceptionEnabled_eq : r.arithExceptionEnabled = s.arithExceptionEnabled := by
  obtain ⟨-, -, -, -, -, -, -, henabled⟩ := h.views
  exact henabled

end

/-- The state `u`, before Writeback of an instruction that started at `s`, has pended no write of the DR, and with Writeback `P`
holds, whatever the DR becomes. -/
structure Leaves (s u : State) (P : State → Prop) : Prop where
  pendsOnly : PendsOnly s u
  dr : u.commit.dr = s.dr
  holds : ∀ act d, P { u.writeback act with dr := d }

section
variable {s r : State} (h : Indexes s.discard r)
include h

/-- A resolution and one register write. -/
theorem Indexes.leaves_writeGrs (n : Fin 128) (v : Word) :
    Leaves s (r.writeGrs n v) fun t => Sets r t n v ∧ SameStorage s t where
  pendsOnly := h.pendsOnly.writeGrs n v
  dr := (r.commit_dr_writeGrs n v).trans h.commit_dr_eq
  holds act _ := ⟨sets_writeback r act n v,
    sameStorage_of_commit_memory (act := act) ((r.commit_memory_writeGrs n v).trans h.commit_memory_eq)⟩

/-- A resolution and the writes of two registers. -/
theorem Indexes.leaves_writeGrs_writeGrs {n k : Fin 128} (hne : k ≠ n) (v w : Word) :
    Leaves s ((r.writeGrs n v).writeGrs k w) fun t => SetsTwo r t n v k w ∧ SameStorage s t where
  pendsOnly := (h.pendsOnly.writeGrs n v).writeGrs k w
  dr := by rw [State.commit_dr_writeGrs, State.commit_dr_writeGrs, h.commit_dr_eq]
  holds act _ := ⟨setsTwo_writeback r act hne v w, sameStorage_of_commit_memory (act := act) (by
    rw [State.commit_memory_writeGrs, State.commit_memory_writeGrs, h.commit_memory_eq])⟩

/-- A resolution and the writes of the two registers of a pair. -/
theorem Indexes.leaves_writeA_writeA {a : BitVec 4} (ha : a ≠ 15) (v w : Word) :
    Leaves s ((r.writeA a v).writeA (a + 1) w) fun t =>
      SetsTwo r t (s.aCell a) v (s.aCell (a + 1)) w ∧ SameStorage s t := by
  rw [State.writeA, State.writeA, State.writeGrs_aCell, h.aCell_eq, h.aCell_eq]
  exact h.leaves_writeGrs_writeGrs (s.aCell_succ_ne a ha) v w

/-- A resolution and the write of a double word to a register pair. -/
theorem Indexes.leaves_writeAA {a : BitVec 4} (ha : a ≠ 15) (d : DWord) :
    Leaves s (r.writeAA a d) fun t =>
      SetsTwo r t (s.aCell a) (d.extractLsb' 36 36) (s.aCell (a + 1)) (d.extractLsb' 0 36) ∧ SameStorage s t :=
  h.leaves_writeA_writeA ha _ _

/-- A resolution and the write of a location. -/
theorem Indexes.leaves_writeLoc (hwf : s.memory.wf) (l : Loc) (v : Word) :
    Leaves s (r.writeLoc l v) fun t => SetsLoc s r t l v where
  pendsOnly := h.pendsOnly.writeLoc l v
  dr := (r.commit_dr_writeLoc l v).trans h.commit_dr_eq
  holds act _ := setsLoc_writeback (act := act) h hwf l v

end

theorem Completes.mono {i : Instr} {s : State} {act : Act} {P Q : State → Prop} (h : Completes i s act P)
    (hPQ : ∀ t, P t → Q t) : Completes i s act Q := by
  obtain ⟨t, hexec, hpar, hrest, hP⟩ := h
  exact ⟨t, hexec, hpar, hrest, hPQ t hP⟩

section
variable {i : Instr} {s r u : State} {act : Act} {P : State → Prop} (h : Leaves s u P) (hact : ∀ d, act ≠ .halt d)
  (hquiet : s.Quiet)
include h hact hquiet

/-- An instruction that writes no bit of the DR. -/
theorem Leaves.completes (hexec : exec i s = u.complete act) : Completes i s act fun t => P t ∧ t.dr = s.dr :=
  h.pendsOnly.completes_of_dr hexec hact hquiet h.dr ⟨h.holds act _, h.dr⟩

/-- An instruction that writes DR bits after its other writes, and not the bit that defers interrupts. -/
theorem Leaves.completes_pend_dr {mask v : Word} {survives : Bool} (hmask : mask.getLsbD 31 = false)
    (hexec : exec i s = (u.pend (.dr mask v survives)).complete act) :
    Completes i s act fun t => P t ∧ t.dr = applyDr s.dr (.dr mask v survives) := by
  have hdr : (u.pend (.dr mask v survives)).commit.dr = applyDr s.dr (.dr mask v survives) := by
    rw [State.commit_pend_dr, ← h.dr]
  have hdeferrable : (u.pend (.dr mask v survives)).commit.deferrableEnabled = s.deferrableEnabled := by
    rw [State.deferrableEnabled, hdr, getLsbD_applyDr, hmask]
    rfl
  refine (h.pendsOnly.pend _).completes hexec hact hquiet hdeferrable ⟨?_, hdr⟩
  rw [State.writeback_pend_dr]
  exact h.holds act _

end

/-! ### The end of an addition (R221, R240) -/

section
variable {n : Nat} (s : State) (x : Sum n) (write : State → BitVec n → State) (act : Act)

theorem State.addEnd_of_no_fault (h : s.params.overflowIsFault = false ∨ x.ovf = false) :
    s.addEnd x write act = .ok act ((write s x.r).writeFlags x false) := by
  unfold State.addEnd
  rw [if_neg (by rcases h with h | h <;> simp [h])]

theorem State.addEnd_of_fault (hfault : s.params.overflowIsFault = true) (hovf : x.ovf = true) :
    s.addEnd x write act =
      if s.arithExceptionEnabled then .raised .arithmeticException 3 (s.writeFlags x true)
      else .ok act ((write s 0).writeFlags x false) := by
  unfold State.addEnd
  rw [if_pos (by simp [hfault, hovf])]

end

section
variable {n : Nat} {i : Instr} {s r : State} {x : Sum n} {write : State → BitVec n → State} {act : Act}
  {P : State → Prop} (h : Indexes s.discard r) (hact : ∀ d, act ≠ .halt d)
  (hexec : exec i s = (r.addEnd x write act).finish)
include h hact hexec

/-- An addition that is no fault leaves its sum and its flags. -/
theorem completes_of_addEnd (hquiet : s.Quiet) (hok : s.params.overflowIsFault = false ∨ x.ovf = false)
    (hleaves : Leaves s (write r x.r) P) : Completes i s act fun t => P t ∧ FlagsOf s.dr t.dr x := by
  have hcomplete : exec i s = ((write r x.r).pend (flagWrite x false)).complete act := by
    rw [hexec, r.addEnd_of_no_fault x write act (by rwa [h.params_eq])]
    rfl
  refine (hleaves.completes_pend_dr hact hquiet (by decide) hcomplete).mono fun t ⟨hP, hdr⟩ => ⟨hP, ?_⟩
  rw [hdr]
  exact flagsOf_applyDr s.dr x false

/-- An addition that is a fault: the raise keeps the flags, and the completion leaves zero and the flags. -/
theorem overflows_of_addEnd (hleaves : Leaves s (write r 0) P) : Overflows i s x act P := by
  intro hfault hovf
  rw [r.addEnd_of_fault x write act (by rwa [h.params_eq]) hovf, h.arithExceptionEnabled_eq] at hexec
  refine ⟨fun hraise => ?_, fun hzero hquiet => ?_⟩
  · rw [if_pos hraise, Res.finish_raised, State.writeFlags_eq_pend, flagWrite, h.keepSurvivors_commit_pend_dr] at hexec
    exact ⟨_, flagsOf_applyDr s.dr x true, hexec⟩
  · rw [if_neg (Bool.eq_false_iff.1 hzero), Res.finish_ok, State.writeFlags_eq_pend, flagWrite] at hexec
    refine (hleaves.completes_pend_dr hact hquiet (by decide) hexec).mono fun t ⟨hP, hdr⟩ => ⟨hP, ?_⟩
    rw [hdr]
    exact flagsOf_applyDr s.dr x false

end

end Sys2Proof.Machine
end

section
/-! The statements about additions and the increment family (spec/42_arithmetic.md R221 to R233, R240 to R248): what each of these
instructions is after its resolution, and from that its completion and its overflow. -/

namespace Sys2Proof.Machine

/-! ### An instruction after its resolution -/

section
variable {α : Type} {s r : State} {x : Res α} {v : α} (h : x = .ok v r)
include h

theorem finish_bind_of_ok (f : α → State → Res Act) : (x.bind f).finish = (f v r).finish := by
  rw [h, Res.bind_ok]

/-- An instruction that checks its register pair right after its resolution. -/
theorem finish_bind_pair_of_ok {a : BitVec 4} (ha : a ≠ 15) (f : α → State → Res Act) :
    (x.bind fun v t => (t.pair a).bind fun _ t => f v t).finish = (f v r).finish := by
  rw [h, Res.bind_ok, r.pair_of_ne ha, Res.bind_ok]

end

/-! ### Additions to a register (R224 to R231) -/

/-- After its resolution, and where `ok` holds, the instruction is the addition of `p` and of `q` of its operand to the cell
`dest`, which is the same before and after the resolution. -/
structure EndsInAdd (i : Instr) (j : BitVec 4) (m : AddrSpec) (ok : Prop) (dest : State → Fin 128) (p : State → Word)
    (q : Word → Word) : Prop where
  exec_eq : ∀ s u r, ok → s.discard.operand j m = .ok u r →
    exec i s = (r.addEnd (add36 (p r) (q u)) (fun t v => t.writeGrs (dest t) v) .seq).finish
  dest_eq : ∀ s r, Indexes s.discard r → dest r = dest s

section
variable (j a : BitVec 4) (m : AddrSpec)

theorem endsInAdd_aa : EndsInAdd (.aa j a m) j m True (·.aCell a) (·.readA a) (fun u => u) where
  exec_eq _ _ _ _ h := finish_bind_of_ok h _
  dest_eq _ _ h := h.aCell_eq a

theorem endsInAdd_ana : EndsInAdd (.ana j a m) j m True (·.aCell a) (·.readA a) (fun u => ~~~u) where
  exec_eq _ _ _ _ h := finish_bind_of_ok h _
  dest_eq _ _ h := h.aCell_eq a

theorem endsInAdd_ama :
    EndsInAdd (.ama j a m) j m True (·.aCell a) (·.readA a) (fun u => if u.msb then ~~~u else u) where
  exec_eq _ _ _ _ h := finish_bind_of_ok h _
  dest_eq _ _ h := h.aCell_eq a

theorem endsInAdd_anma :
    EndsInAdd (.anma j a m) j m True (·.aCell a) (·.readA a) (fun u => if u.msb then u else ~~~u) where
  exec_eq _ _ _ _ h := finish_bind_of_ok h _
  dest_eq _ _ h := h.aCell_eq a

theorem endsInAdd_au : EndsInAdd (.au j a m) j m (a ≠ 15) (·.aCell (a + 1)) (·.readA a) (fun u => u) where
  exec_eq _ _ _ ha h := finish_bind_pair_of_ok h ha _
  dest_eq _ _ h := h.aCell_eq (a + 1)

theorem endsInAdd_anu : EndsInAdd (.anu j a m) j m (a ≠ 15) (·.aCell (a + 1)) (·.readA a) (fun u => ~~~u) where
  exec_eq _ _ _ ha h := finish_bind_pair_of_ok h ha _
  dest_eq _ _ h := h.aCell_eq (a + 1)

theorem endsInAdd_ax : EndsInAdd (.ax j a m) j m True (·.xCell a) (·.readX a) (fun u => u) where
  exec_eq _ _ _ _ h := finish_bind_of_ok h _
  dest_eq _ _ h := h.xCell_eq a

theorem endsInAdd_anx : EndsInAdd (.anx j a m) j m True (·.xCell a) (·.readX a) (fun u => ~~~u) where
  exec_eq _ _ _ _ h := finish_bind_of_ok h _
  dest_eq _ _ h := h.xCell_eq a

end

section
variable {i : Instr} {j : BitVec 4} {m : AddrSpec} {ok : Prop} {dest : State → Fin 128} {p : State → Word}
  {q : Word → Word} (h : EndsInAdd i j m ok dest p q)
include h

theorem EndsInAdd.leaves {s r : State} (hr : Indexes s.discard r) (v : Word) :
    Leaves s (r.writeGrs (dest r) v) fun t => Sets r t (dest s) v ∧ SameStorage s t := by
  rw [h.dest_eq s r hr]
  exact hr.leaves_writeGrs (dest s) v

theorem EndsInAdd.addsTo : AddsTo i j m ok dest p q := by
  intro s u r hquiet hok hoperand hnofault
  have hr : Indexes s.discard r := (bumps_operand _ j m).indexes hoperand
  exact (completes_of_addEnd hr seq_ne_halt (h.exec_eq s u r hok hoperand) hquiet hnofault (h.leaves hr _)).mono
    fun t ⟨⟨hsets, hstorage⟩, hflags⟩ => ⟨hsets, hflags, hstorage⟩

theorem EndsInAdd.overflowsTo : OverflowsTo i j m ok dest p q := by
  intro s u r hok hoperand
  have hr : Indexes s.discard r := (bumps_operand _ j m).indexes hoperand
  exact overflows_of_addEnd hr seq_ne_halt (h.exec_eq s u r hok hoperand) (h.leaves hr 0)

end

/-! ### Additions to a register pair (R232, R233) -/

/-- After its resolution the instruction is the addition of the pair and of `q` of its double word to the pair. -/
def EndsInPairAdd (i : Instr) (a : BitVec 4) (m : AddrSpec) (q : DWord → DWord) : Prop :=
  ∀ s l r, a ≠ 15 → s.discard.operandLocs Perms.read m = .ok l r →
    exec i s = (r.addEnd (add72 (pairOf r a) (q (wordsAt r l))) (fun t v => t.writeAA a v) .seq).finish

theorem State.operand2_of_operandLocs {s r : State} {m : AddrSpec} {l : Loc × Loc}
    (h : s.operandLocs Perms.read m = .ok l r) : s.operand2 m = .ok (r.readLoc l.1, r.readLoc l.2) r := by
  rw [State.operand2, h, Res.bind_ok]

theorem endsInPairAdd_da (a : BitVec 4) (m : AddrSpec) : EndsInPairAdd (.da a m) a m (fun w => w) :=
  fun _ _ _ ha h => finish_bind_pair_of_ok (State.operand2_of_operandLocs h) ha _

theorem endsInPairAdd_dan (a : BitVec 4) (m : AddrSpec) : EndsInPairAdd (.dan a m) a m (fun w => ~~~w) :=
  fun _ _ _ ha h => finish_bind_pair_of_ok (State.operand2_of_operandLocs h) ha _

section
variable {i : Instr} {a : BitVec 4} {m : AddrSpec} {q : DWord → DWord} (h : EndsInPairAdd i a m q)
include h

theorem EndsInPairAdd.pairAddsTo : PairAddsTo i a m q := by
  intro s l r hquiet ha hlocs hnofault
  have hr : Indexes s.discard r := (bumps_operandLocs _ _ m).indexes hlocs
  exact (completes_of_addEnd hr seq_ne_halt (h s l r ha hlocs) hquiet hnofault (hr.leaves_writeAA ha _)).mono
    fun t ⟨⟨hsets, hstorage⟩, hflags⟩ => ⟨⟨_, _, append_halves _, hsets⟩, hflags, hstorage⟩

theorem EndsInPairAdd.pairOverflowsTo : PairOverflowsTo i a m q := by
  intro s l r ha hlocs
  have hr : Indexes s.discard r := (bumps_operandLocs _ _ m).indexes hlocs
  exact overflows_of_addEnd hr seq_ne_halt (h s l r ha hlocs) (hr.leaves_writeAA ha 0)

end

/-! ### The increment family (R241 to R248) -/

theorem isZero_eq_zeroWord (v : Word) : isZero v = zeroWord v := rfl

theorem testEnd_ne_halt (c : Bool) (d : BitVec 18) : testEnd c ≠ .halt d := by
  cases c <;> exact Act.noConfusion

/-- The word that a location reads as through `j`, plus `k`. -/
def countSum (s r : State) (j : BitVec 4) (l : Loc) (k : Word) : Sum 36 :=
  add36 (readField s.quarterWord j (r.readLoc l)) k

section
variable {i : Instr} {j : BitVec 4} {m : AddrSpec} {k : Word}

/-- An instruction that stores its sum through `j` and writes no flag. -/
theorem countsBy_of_exec (hexec : ∀ s, exec i s = (s.discard.increase i j m k).finish) : CountsBy i j m k := by
  intro s l r hquiet hwf hfield hloc
  have hr : Indexes s.discard r := (bumps_operandLoc _ _ m).indexes hloc
  refine completes_of_writeLoc hr (testEnd_ne_halt _) hquiet hwf ?_
  rw [hexec, State.increase, if_pos hfield, hloc, Res.bind_ok, Res.finish_ok, State.storeField, hr.quarterWord_eq,
    isZero_eq_zeroWord, testEnd]

/-- After its resolution the instruction is the addition of `k` to the field of its location. -/
def EndsInCount (i : Instr) (j : BitVec 4) (m : AddrSpec) (k : Word) : Prop :=
  ∀ s l r, isFieldDesignator j = true → s.discard.operandLoc Perms.readWrite m = .ok l r →
    exec i s = (r.addEnd (countSum s r j l k) (fun t v => t.storeField l j v)
      (testEnd (s.params.add1Skips && zeroWord (countSum s r j l k).r))).finish

theorem endsInCount_of_exec (hexec : ∀ s, exec i s = (s.discard.increaseFlags i j m k).finish) : EndsInCount i j m k := by
  intro s l r hfield hloc
  have hr : Indexes s.discard r := (bumps_operandLoc _ _ m).indexes hloc
  rw [hexec, State.increaseFlags, if_pos hfield, hloc, Res.bind_ok, hr.quarterWord_eq, hr.params_eq]
  rfl

theorem endsInCount_add1 (j : BitVec 4) (m : AddrSpec) : EndsInCount (.add1 j m) j m 1 :=
  endsInCount_of_exec fun _ => rfl

theorem endsInCount_sub1 (j : BitVec 4) (m : AddrSpec) : EndsInCount (.sub1 j m) j m (~~~1) :=
  endsInCount_of_exec fun _ => rfl

theorem Indexes.leaves_storeField {s r : State} (h : Indexes s.discard r) (hwf : s.memory.wf) (l : Loc) (j : BitVec 4)
    (v : Word) :
    Leaves s (r.storeField l j v) fun t => SetsLoc s r t l (mergeField s.quarterWord j (r.readLoc l) v) := by
  rw [State.storeField, h.quarterWord_eq]
  exact h.leaves_writeLoc hwf l _

theorem EndsInCount.countsFlaggedBy (h : EndsInCount i j m k) : CountsFlaggedBy i j m k := by
  intro s l r hquiet hwf hfield hloc hnofault
  have hr : Indexes s.discard r := (bumps_operandLoc _ _ m).indexes hloc
  exact completes_of_addEnd hr (testEnd_ne_halt _) (h s l r hfield hloc) hquiet hnofault (hr.leaves_storeField hwf l j _)

theorem EndsInCount.countOverflows (h : EndsInCount i j m k) : CountOverflows i j m k := by
  intro s l r hwf hfield hloc
  have hr : Indexes s.discard r := (bumps_operandLoc _ _ m).indexes hloc
  exact overflows_of_addEnd hr (testEnd_ne_halt _) (h s l r hfield hloc) (hr.leaves_storeField hwf l j 0)

end

/-! ### The statements -/

/-- Settles O30: each addition ends in the one end of an addition, on its path without a fault. -/
theorem addResults : Obligations.AddResults := by
  unfold Obligations.AddResults
  intro j a m
  exact ⟨(endsInAdd_aa j a m).addsTo, (endsInAdd_ana j a m).addsTo, (endsInAdd_ama j a m).addsTo,
    (endsInAdd_anma j a m).addsTo, (endsInAdd_au j a m).addsTo, (endsInAdd_anu j a m).addsTo,
    (endsInAdd_ax j a m).addsTo, (endsInAdd_anx j a m).addsTo, (endsInPairAdd_da a m).pairAddsTo,
    (endsInPairAdd_dan a m).pairAddsTo⟩

/-- Settles O31: the same ends, on the two paths of an overflow that is a fault. -/
theorem overflowFaults : Obligations.OverflowFaults := by
  unfold Obligations.OverflowFaults
  intro j a m
  exact ⟨(endsInAdd_aa j a m).overflowsTo, (endsInAdd_ana j a m).overflowsTo, (endsInAdd_ama j a m).overflowsTo,
    (endsInAdd_anma j a m).overflowsTo, (endsInAdd_au j a m).overflowsTo, (endsInAdd_anu j a m).overflowsTo,
    (endsInAdd_ax j a m).overflowsTo, (endsInAdd_anx j a m).overflowsTo, (endsInPairAdd_da a m).pairOverflowsTo,
    (endsInPairAdd_dan a m).pairOverflowsTo, (endsInCount_add1 j m).countOverflows,
    (endsInCount_sub1 j m).countOverflows⟩

/-- Settles O35: each is a resolution and one write of the merged word, and the skip tests the whole sum. -/
theorem incrementResults : Obligations.IncrementResults := by
  unfold Obligations.IncrementResults
  intro j m
  exact ⟨countsBy_of_exec fun _ => rfl, countsBy_of_exec fun _ => rfl, countsBy_of_exec fun _ => rfl,
    countsBy_of_exec fun _ => rfl, countsBy_of_exec fun _ => rfl⟩

/-- Settles O36: ADD1 and SUB1 end as additions do, on the path without a fault. -/
theorem countedAddResults : Obligations.CountedAddResults := by
  unfold Obligations.CountedAddResults
  intro j m
  exact ⟨(endsInCount_add1 j m).countsFlaggedBy, (endsInCount_sub1 j m).countsFlaggedBy⟩

end Sys2Proof.Machine
end

section
/-! The statements about multiplication and division (spec/42_arithmetic.md R234 to R239, R250, R251): the product, the quotient and
the remainder as values, and the end of a divide on each of its paths. -/

namespace Sys2Proof

/-! ### Values (R9, R234, R235) -/

/-- A product of two words fits a double word. -/
theorem val_enc_mul (v w : Word) : val (enc 72 (val v * val w)) = val v * val w := by
  refine val_enc (by decide) ?_
  calc (val v * val w).natAbs
      = (val v).natAbs * (val w).natAbs := Int.natAbs_mul _ _
    _ < 2 ^ 35 * 2 ^ 35 := Nat.mul_lt_mul'' (natAbs_val_lt (by decide) v) (natAbs_val_lt (by decide) w)
    _ ≤ 2 ^ (72 - 1) := by decide

theorem tmod_mul_self_nonneg (d v : Int) : 0 ≤ d.tmod v * d := by
  rcases Int.le_total 0 d with hd | hd
  · exact mul_nonneg (d.tmod_nonneg v hd) hd
  · have hneg : d.tmod v ≤ 0 := by
      have hpos := Int.tmod_nonneg v (Int.neg_nonneg_of_nonpos hd)
      rw [Int.neg_tmod] at hpos
      omega
    exact mul_nonneg_of_nonpos_of_nonpos hneg hd

/-- A remainder is smaller than its divisor, and so it fits a word if the divisor does. -/
theorem natAbs_tmod_lt {d v : Int} (hv : v ≠ 0) : (d.tmod v).natAbs < v.natAbs := by
  rw [Int.natAbs_tmod]
  exact Nat.mod_lt _ (Int.natAbs_pos.2 hv)

end Sys2Proof

namespace Sys2Proof.Machine

/-! ### The end of a divide (R235 to R238) -/

section
variable (s : State) (d : Int) (u : Word) (a : BitVec 4) (write : State → (q r : Int) → State)

theorem State.divideEnd_of_check {kind : Word}
    (h : val u = 0 ∧ kind = 1 ∨ val u ≠ 0 ∧ 2 ^ 35 - 1 < (d.tdiv (val u)).natAbs ∧ kind = 2) :
    s.divideEnd d u a write = s.divideCheckEnd kind a := by
  rcases h with ⟨hzero, rfl⟩ | ⟨hne, hlarge, rfl⟩
  · exact if_pos hzero
  · rw [State.divideEnd, if_neg hne]
    exact if_pos hlarge

theorem State.divideEnd_of_quotient (hne : val u ≠ 0) (hfits : (d.tdiv (val u)).natAbs ≤ 2 ^ 35 - 1) :
    s.divideEnd d u a write = .ok .seq (write s (d.tdiv (val u)) (d.tmod (val u))) := by
  have hrem : d - d.tdiv (val u) * val u = d.tmod (val u) := by rw [Int.tmod_def, Int.mul_comm]
  rw [State.divideEnd, if_neg hne, hrem]
  exact if_neg (Nat.not_lt.2 hfits)

theorem State.divideCheckEnd_of_enabled {kind : Word} (h : s.arithExceptionEnabled = true) :
    s.divideCheckEnd kind a = .raised .arithmeticException kind (s.pend divideCheckWrite) := if_pos h

theorem State.divideCheckEnd_of_disabled {kind : Word} (h : s.arithExceptionEnabled = false) :
    s.divideCheckEnd kind a = .ok .seq (((s.pend divideCheckWrite).writeA a 0).writeA (a + 1) 0) :=
  if_neg (Bool.eq_false_iff.1 h)

end

/-- After its resolution the instruction is the divide of `d` by its operand. -/
def EndsInDivide (i : Instr) (j a : BitVec 4) (m : AddrSpec) (d : State → Int)
    (write : State → (q r : Int) → State) : Prop :=
  ∀ s u r, a ≠ 15 → s.discard.operand j m = .ok u r → exec i s = (r.divideEnd (d r) u a write).finish

/-- Quotient to A(a), remainder to A(a+1) (R235, R251). -/
def writeQuotientRemainder (a : BitVec 4) (s : State) (q r : Int) : State :=
  (s.writeA a (enc 36 q)).writeA (a + 1) (enc 36 r)

section
variable (j a : BitVec 4) (m : AddrSpec)

theorem endsInDivide_di :
    EndsInDivide (.di j a m) j a m (fun r => val (pairOf r a)) (writeQuotientRemainder a) :=
  fun _ _ _ ha h => finish_bind_pair_of_ok h ha _

theorem endsInDivide_df :
    EndsInDivide (.df j a m) j a m (fun r => (val (pairOf r a)).tdiv 2) (writeQuotientRemainder a) :=
  fun _ _ _ ha h => finish_bind_pair_of_ok h ha _

theorem endsInDivide_dsf :
    EndsInDivide (.dsf j a m) j a m (fun r => val (r.readA a) * 2 ^ 35) (fun s q _ => s.writeA (a + 1) (enc 36 q)) :=
  fun _ _ _ ha h => finish_bind_pair_of_ok h ha _

end

/-- Zero to both registers after the write of divideCheck, which no cell and no storage word sees (R236). -/
theorem completes_of_divideCheck {i : Instr} {s r : State} {a : BitVec 4} (hr : Indexes s.discard r) (hquiet : s.Quiet)
    (ha : a ≠ 15) (hexec : exec i s = (((r.pend divideCheckWrite).writeA a 0).writeA (a + 1) 0).complete .seq) :
    Completes i s .seq fun t =>
      SetsTwo r t (s.aCell a) 0 (s.aCell (a + 1)) 0 ∧ DivideCheckOf s.dr t.dr true ∧ SameStorage s t := by
  rw [State.writeA, State.writeA, State.writeGrs_aCell, State.pend_aCell, State.pend_aCell, hr.aCell_eq,
    hr.aCell_eq] at hexec
  have hdr : (((r.pend divideCheckWrite).writeGrs (s.aCell a) 0).writeGrs (s.aCell (a + 1)) 0).commit.dr =
      applyDr s.dr divideCheckWrite := by
    rw [State.commit_dr_writeGrs, State.commit_dr_writeGrs, divideCheckWrite, State.commit_pend_dr, hr.commit_dr_eq]
  have hmemory : (((r.pend divideCheckWrite).writeGrs (s.aCell a) 0).writeGrs (s.aCell (a + 1)) 0).commit.memory =
      s.memory := by
    rw [State.commit_memory_writeGrs, State.commit_memory_writeGrs, divideCheckWrite, State.commit_pend_dr,
      hr.commit_memory_eq]
  have hcheck : DivideCheckOf s.dr (applyDr s.dr divideCheckWrite) true := divideCheckOf_applyDr s.dr
  have hsees (c : Fin 128) : (r.pend divideCheckWrite).readGrs c = r.readGrs c := r.readGrs_pend_dr c _ _ _
  obtain ⟨hn, hk, hother⟩ := setsTwo_writeback (r.pend divideCheckWrite) .seq (s.aCell_succ_ne a ha) 0 0
  refine (((hr.pendsOnly.pend _).writeGrs _ _).writeGrs _ _).completes hexec seq_ne_halt hquiet ?_
    ⟨⟨hn, hk, fun c hc hd => (hother c hc hd).trans (hsees c)⟩, ?_, sameStorage_of_commit_memory hmemory⟩
  · rw [State.deferrableEnabled, hdr]
    exact hcheck.2 31 (by decide)
  · rw [State.writeback_dr, hdr]
    exact hcheck

section
variable {i : Instr} {j a : BitVec 4} {m : AddrSpec} {d : State → Int}

theorem EndsInDivide.divideChecks {write : State → (q r : Int) → State} (h : EndsInDivide i j a m d write) :
    DivideChecks i j a m d := by
  intro s u r kind ha hoperand hkind
  have hr : Indexes s.discard r := (bumps_operand _ j m).indexes hoperand
  have hexec := h s u r ha hoperand
  rw [r.divideEnd_of_check (d r) u a write hkind] at hexec
  refine ⟨fun hraise => ?_, fun hzero hquiet => ?_⟩
  · rw [r.divideCheckEnd_of_enabled a (hr.arithExceptionEnabled_eq.trans hraise), Res.finish_raised, divideCheckWrite,
      hr.keepSurvivors_commit_pend_dr] at hexec
    exact ⟨_, divideCheckOf_applyDr s.dr, hexec⟩
  · rw [r.divideCheckEnd_of_disabled a (hr.arithExceptionEnabled_eq.trans hzero), Res.finish_ok] at hexec
    exact completes_of_divideCheck hr hquiet ha hexec

theorem EndsInDivide.dividesTo (h : EndsInDivide i j a m d (writeQuotientRemainder a)) : DividesTo i j a m d := by
  intro s u r hquiet ha hoperand hne hfits
  have hr : Indexes s.discard r := (bumps_operand _ j m).indexes hoperand
  have hexec := h s u r ha hoperand
  rw [r.divideEnd_of_quotient (d r) u a _ hne hfits, Res.finish_ok] at hexec
  have hdivisor : (val u).natAbs < 2 ^ 35 := natAbs_val_lt (by decide) u
  have hsmall : ((d r).tmod (val u)).natAbs < (val u).natAbs := natAbs_tmod_lt hne
  have hq : ((d r).tdiv (val u)).natAbs < 2 ^ (36 - 1) := by omega
  have he : ((d r).tmod (val u)).natAbs < 2 ^ (36 - 1) := by omega
  have hleaves := hr.leaves_writeA_writeA ha (enc 36 ((d r).tdiv (val u))) (enc 36 ((d r).tmod (val u)))
  refine (hleaves.completes seq_ne_halt hquiet hexec).mono fun t ⟨⟨hsets, hstorage⟩, hdr⟩ => ⟨_, _, hsets, ?_⟩
  rw [val_enc (by decide) hq, val_enc (by decide) he]
  exact ⟨(Int.tdiv_mul_add_tmod _ _).symm, hsmall, tmod_mul_self_nonneg _ _, enc_ne_allOnes (by decide) hq,
    enc_ne_allOnes (by decide) he, hdr, hstorage⟩

end

/-! ### The statements -/

/-- Settles O32: the product fits the pair, and the encoding of 0 is +0. -/
theorem multiplyResult : Obligations.MultiplyResult := by
  unfold Obligations.MultiplyResult
  intro j a m s r u hquiet ha hoperand
  have hr : Indexes s.discard r := (bumps_operand _ j m).indexes hoperand
  have hexec : exec (.mi j a m) s = (r.writeAA a (enc 72 (val (r.readA a) * val u))).complete .seq :=
    finish_bind_pair_of_ok hoperand ha _
  refine ((hr.leaves_writeAA ha _).completes seq_ne_halt hquiet hexec).mono
    fun t ⟨⟨hsets, hstorage⟩, hdr⟩ => ⟨_, _, hsets, ?_, fun hzero => ?_, hdr, hstorage⟩
  · rw [append_halves, val_enc_mul]
  · rw [hzero]
    exact ⟨rfl, rfl⟩

/-- Settles O33: the ends of DI and DF, and that of DSF, which writes one register. -/
theorem divideResults : Obligations.DivideResults := by
  unfold Obligations.DivideResults
  intro j a m
  refine ⟨(endsInDivide_di j a m).dividesTo, (endsInDivide_df j a m).dividesTo, ?dsf⟩
  intro s r u hquiet ha hoperand hne hfits
  have hr : Indexes s.discard r := (bumps_operand _ j m).indexes hoperand
  have hexec := endsInDivide_dsf j a m s u r ha hoperand
  rw [r.divideEnd_of_quotient _ u a _ hne hfits, Res.finish_ok, State.writeA, hr.aCell_eq] at hexec
  have hq : ((val (r.readA a) * 2 ^ 35).tdiv (val u)).natAbs < 2 ^ (36 - 1) := by omega
  exact (completes_of_writeGrs hr seq_ne_halt hquiet hexec).mono fun t ⟨hsets, hdr, hstorage⟩ =>
    ⟨_, hsets, val_enc (by decide) hq, enc_ne_allOnes (by decide) hq, hdr, hstorage⟩

/-- Settles O34: each divide ends in the one end of a divide, on the two paths of its check. -/
theorem divideCheckPaths : Obligations.DivideCheckPaths := by
  unfold Obligations.DivideCheckPaths
  intro j a m
  exact ⟨(endsInDivide_di j a m).divideChecks, (endsInDivide_df j a m).divideChecks, (endsInDivide_dsf j a m).divideChecks⟩

end Sys2Proof.Machine
end

section
/-! The statements about logical and shift instructions (spec/43_logical_shift.md R270 to R285): each shift as a rotation or
a shift of bit vectors, from that its bits, and the completion of the instructions. -/

namespace Sys2Proof.Machine

/-! ### The shifts as operations on bit vectors (R276 to R285) -/

section
variable {n : Nat} (v : BitVec n) (k : Nat)

theorem circularRight_eq_rotateRight : circularRight v k = v.rotateRight k := rfl

theorem circularLeft_eq_rotateLeft : circularLeft v k = v.rotateLeft k := rfl

theorem logicalRight_eq_ushiftRight : logicalRight v k = v >>> k :=
  ite_eq_right_iff.2 fun h => (BitVec.ushiftRight_eq_zero h).symm

theorem logicalLeft_eq_shiftLeft : logicalLeft v k = v <<< k :=
  ite_eq_right_iff.2 fun h => (BitVec.shiftLeft_eq_zero h).symm

/-- The signs that fill stand in the places that the shift leaves free, also where it leaves all of them free. -/
theorem getLsbD_algebraicRight {b : Nat} (hb : b < n) :
    (algebraicRight v k).getLsbD b = if b + k < n then v.getLsbD (b + k) else v.msb := by
  have hfill (i : Nat) : (if v.msb then BitVec.allOnes n else 0).getLsbD i = (decide (i < n) && v.msb) := by
    cases v.msb <;> simp
  rw [algebraicRight]
  by_cases hk : n ≤ k
  · have hout : ¬b + k < n := by omega
    rw [if_pos hk, if_neg hout, hfill, decide_eq_true hb, Bool.true_and]
  · rw [if_neg hk, BitVec.getLsbD_or, BitVec.getLsbD_ushiftRight, BitVec.getLsbD_shiftLeft, hfill, Nat.add_comm k b]
    by_cases hin : b + k < n
    · have hfree : b < n - k := by omega
      simp [hin, hfree]
    · have hfree : ¬b < n - k := by omega
      have hout : v.getLsbD (b + k) = false := v.getLsbD_of_ge _ (by omega)
      have hfit : b - (n - k) < n := by omega
      simp [hin, hb, hfree, hout, hfit]

/-! ### The bits of a circular shift (R276, R277, R282, R283) -/

/-- Where a bit goes in a circular shift: it wraps at most once. -/
theorem add_mod_of_lt {b : Nat} (hb : b < n) :
    (b + k) % n = if b < n - k % n then k % n + b else b - (n - k % n) := by
  have hlt : k % n < n := Nat.mod_lt _ (by omega)
  rw [Nat.add_mod_eq_ite, Nat.mod_eq_of_lt hb]
  split <;> split <;> omega

theorem getLsbD_circularRight {b : Nat} (hb : b < n) : (circularRight v k).getLsbD b = v.getLsbD ((b + k) % n) := by
  rw [circularRight_eq_rotateRight, BitVec.getLsbD_rotateRight, add_mod_of_lt k hb]
  by_cases hstay : b < n - k % n
  · rw [if_pos hstay, decide_eq_true hstay, cond_true]
  · rw [if_neg hstay, decide_eq_false hstay, cond_false, decide_eq_true hb, Bool.true_and]

theorem getLsbD_circularLeft {b : Nat} (hb : b < n) : (circularLeft v k).getLsbD ((b + k) % n) = v.getLsbD b := by
  have hlt : k % n < n := Nat.mod_lt _ (by omega)
  rw [circularLeft_eq_rotateLeft, BitVec.getLsbD_rotateLeft, add_mod_of_lt k hb]
  by_cases hstay : b < n - k % n
  · have hplace : ¬k % n + b < k % n := by omega
    have hin : k % n + b < n := by omega
    rw [if_pos hstay, decide_eq_false hplace, cond_false, decide_eq_true hin, Bool.true_and, Nat.add_sub_cancel_left]
  · have hplace : b - (n - k % n) < k % n := by omega
    rw [if_neg hstay, decide_eq_true hplace, cond_true, Nat.add_sub_cancel' (Nat.not_lt.1 hstay)]

end

/-- Settles O39: at every width, through the rotations and shifts of bit vectors. -/
theorem shiftBits : Obligations.ShiftBits := by
  unfold Obligations.ShiftBits
  intro n _ v k b hb
  refine ⟨getLsbD_circularRight v k hb, getLsbD_circularLeft v k hb, ?logicalRight, ?logicalLeft,
    getLsbD_algebraicRight v k hb⟩
  case logicalRight => rw [logicalRight_eq_ushiftRight, BitVec.getLsbD_ushiftRight, Nat.add_comm]
  case logicalLeft =>
    rw [logicalLeft_eq_shiftLeft, BitVec.getLsbD_shiftLeft, decide_eq_true hb, Bool.true_and, ← decide_not,
      decide_eq_decide.2 Nat.not_lt]

/-! ### Logical instructions (R270 to R274) -/

/-- An instruction that resolves its operand, checks its register pair and writes A(a+1). -/
theorem combinesTo_of_exec {i : Instr} {j a : BitVec 4} {m : AddrSpec} {f : State → Word → Word → Word}
    (hexec : ∀ s, exec i s = (s.discard.logical j a m f).finish) : CombinesTo i j a m f := by
  intro s u r hquiet ha hoperand
  have hr : Indexes s.discard r := (bumps_operand _ j m).indexes hoperand
  refine completes_of_writeGrs hr seq_ne_halt hquiet ?_
  rw [hexec, State.logical, finish_bind_pair_of_ok hoperand ha, Res.finish_ok, State.writeA, hr.aCell_eq]

/-- Settles O37: the four instructions differ in the function only. -/
theorem logicalResults : Obligations.LogicalResults := by
  unfold Obligations.LogicalResults
  intro j a m
  exact ⟨combinesTo_of_exec fun _ => rfl, combinesTo_of_exec fun _ => rfl, combinesTo_of_exec fun _ => rfl,
    combinesTo_of_exec fun _ => rfl⟩

/-! ### Shift instructions (R275 to R285) -/

/-- The low seven bits of the target are its remainder by 128 (R275). -/
theorem shiftCount_eq_mod (t : BitVec 18) : shiftCount t = t.toNat % 128 := by
  rw [shiftCount, BitVec.extractLsb'_toNat, Nat.shiftRight_zero]

theorem shiftsTo_of_exec {i : Instr} {a : BitVec 4} {m : AddrSpec} {f : Word → Nat → Word}
    (hexec : ∀ s, exec i s = (s.discard.shiftA a m f).finish) : ShiftsTo i a m f := by
  intro s n r hquiet htarget
  have hr : Indexes s.discard r := (bumps_target _ m).indexes htarget
  refine completes_of_writeGrs hr seq_ne_halt hquiet ?_
  rw [hexec, State.shiftA, finish_bind_of_ok htarget, Res.finish_ok, State.writeA, hr.aCell_eq, shiftCount_eq_mod]

theorem pairShiftsTo_of_exec {i : Instr} {a : BitVec 4} {m : AddrSpec} {f : DWord → Nat → DWord}
    (hexec : ∀ s, exec i s = (s.discard.shiftAA a m f).finish) : PairShiftsTo i a m f := by
  intro s n r hquiet ha htarget
  have hr : Indexes s.discard r := (bumps_target _ m).indexes htarget
  have hend : exec i s = (r.writeAA a (f (pairOf r a) (n.toNat % 128))).complete .seq := by
    rw [hexec, State.shiftAA, finish_bind_pair_of_ok htarget ha, Res.finish_ok, shiftCount_eq_mod, State.readAA, pairOf]
  exact ((hr.leaves_writeAA ha _).completes seq_ne_halt hquiet hend).mono
    fun t ⟨⟨hsets, hstorage⟩, hdr⟩ => ⟨⟨_, _, append_halves _, hsets⟩, hdr, hstorage⟩

/-- Settles O38: the ten instructions differ in the shift and in the width only. -/
theorem shiftResults : Obligations.ShiftResults := by
  unfold Obligations.ShiftResults
  intro a m
  exact ⟨shiftsTo_of_exec fun _ => rfl, pairShiftsTo_of_exec fun _ => rfl,
    shiftsTo_of_exec fun _ => rfl, pairShiftsTo_of_exec fun _ => rfl,
    shiftsTo_of_exec fun _ => rfl, pairShiftsTo_of_exec fun _ => rfl,
    shiftsTo_of_exec fun _ => rfl, pairShiftsTo_of_exec fun _ => rfl,
    shiftsTo_of_exec fun _ => rfl, pairShiftsTo_of_exec fun _ => rfl⟩

end Sys2Proof.Machine
end

section
/-! The statements about tests (spec/44_test_jump.md R300 to R327): a resolution without a write, which ends in one of two ways,
and the class of a word that the extended-mode tests look up in their masks. -/

namespace Sys2Proof

/-! ### Conditions on a word (R9, R300, R311) -/

theorem isZero_iff (u : Word) : isZero u = true ↔ u = 0 ∨ u = 0o777777777777 := by
  rw [isZero, Bool.or_eq_true, beq_iff_eq, beq_iff_eq]
  rfl

theorem not_isZero_iff (u : Word) : (!isZero u) = true ↔ ¬(u = 0 ∨ u = 0o777777777777) := by
  rw [Bool.not_eq_true', ← Bool.not_eq_true, isZero_iff]

theorem isNeg_eq_getLsbD (u : Word) : isNeg u = u.getLsbD 35 := BitVec.msb_eq_getLsbD_last u

theorem isNeg_iff (u : Word) : isNeg u = true ↔ u.getLsbD 35 = true := by rw [isNeg_eq_getLsbD]

theorem not_isNeg_iff (u : Word) : (!isNeg u) = true ↔ u.getLsbD 35 = false := by
  rw [isNeg_eq_getLsbD, Bool.not_eq_true']

/-! The class of a word says what the conditions of the extended-mode tests ask of it (R311). -/

theorem testClass_lt (u : Word) : testClass u < 4 := by
  unfold testClass
  repeat' split
  all_goals decide

theorem eq_zero_iff_testClass (u : Word) : u = 0 ↔ testClass u = 1 := by
  by_cases hzero : u = 0
  · subst hzero
    decide
  · refine iff_of_false hzero ?_
    rw [testClass, if_neg hzero]
    repeat' split
    all_goals decide

theorem eq_negZero_iff_testClass (u : Word) : u = 0o777777777777 ↔ testClass u = 2 := by
  by_cases hnegZero : u = 0o777777777777
  · subst hnegZero
    decide
  · refine iff_of_false hnegZero ?_
    have hne : ¬u = negZero := hnegZero
    rw [testClass, if_neg hne]
    repeat' split
    all_goals decide

theorem negative_iff_testClass (u : Word) : u.getLsbD 35 = true ↔ 2 ≤ testClass u := by
  by_cases hzero : u = 0
  · subst hzero
    decide
  · by_cases hnegZero : u = negZero
    · subst hnegZero
      decide
    · rw [testClass, if_neg hzero, if_neg hnegZero, isNeg_eq_getLsbD]
      cases u.getLsbD 35 <;> decide

theorem positive_iff_testClass (u : Word) : u.getLsbD 35 = false ↔ testClass u < 2 := by
  rw [← Bool.not_eq_true, negative_iff_testClass, Nat.not_le]

end Sys2Proof

namespace Sys2Proof.Machine

/-! ### A resolution that is all that an instruction does (R300, R330) -/

section
variable {s r : State} (h : Indexes s.discard r)
include h

/-- A resolution and no other write. -/
theorem Indexes.leaves : Leaves s r fun t => SetsNone r t ∧ SameStorage s t where
  pendsOnly := h.pendsOnly
  dr := h.commit_dr_eq
  holds act _ := ⟨r.writeback_grs_getElem act, sameStorage_of_commit_memory (act := act) h.commit_memory_eq⟩

/-- A resolution after which the instruction chooses its end by a condition. -/
theorem Indexes.completes_by {i : Instr} {yes no : Act} {c : Bool} {p : Prop} (hyes : ∀ d, yes ≠ .halt d)
    (hno : ∀ d, no ≠ .halt d) (hquiet : s.Quiet) (hexec : exec i s = r.complete (if c then yes else no))
    (hc : c = true ↔ p) :
    (p → Completes i s yes fun t => SetsNone r t ∧ t.dr = s.dr ∧ SameStorage s t) ∧
    (¬p → Completes i s no fun t => SetsNone r t ∧ t.dr = s.dr ∧ SameStorage s t) := by
  have hcompletes {act : Act} (hact : ∀ d, act ≠ .halt d) (hend : exec i s = r.complete act) :
      Completes i s act fun t => SetsNone r t ∧ t.dr = s.dr ∧ SameStorage s t :=
    (h.leaves.completes hact hquiet hend).mono fun t ⟨⟨hsets, hstorage⟩, hdr⟩ => ⟨hsets, hdr, hstorage⟩
  refine ⟨fun hp => hcompletes hyes ?_, fun hp => hcompletes hno ?_⟩
  · rw [hexec, if_pos (hc.2 hp)]
  · rw [hexec, if_neg fun htrue => hp (hc.1 htrue)]

end

theorem skip_ne_halt (d : BitVec 18) : Act.skip ≠ .halt d := Act.noConfusion

/-! ### Tests (R300 to R310) -/

/-- An instruction that resolves its operand and then skips by the condition `c`. -/
theorem testsFor_of_exec {i : Instr} {j : BitVec 4} {m : AddrSpec} {ok : Prop} {c : State → Word → Bool}
    {cond : State → Word → Prop}
    (hexec : ∀ s u r, ok → s.discard.operand j m = .ok u r → exec i s = r.complete (testEnd (c r u)))
    (hcond : ∀ r u, c r u = true ↔ cond r u) : TestsFor i j m ok cond := by
  intro s u r hquiet hok hoperand
  have hr : Indexes s.discard r := (bumps_operand _ j m).indexes hoperand
  exact hr.completes_by skip_ne_halt seq_ne_halt hquiet (hexec s u r hok hoperand) (hcond r u)

/-- A test of the operand against A(a). -/
theorem testsFor_of_testA {i : Instr} {j a : BitVec 4} {m : AddrSpec} {c : Int → Int → Bool} {p : Int → Int → Prop}
    (hexec : ∀ s, exec i s = (s.discard.testA j a m c).finish) (hcond : ∀ u v, c u v = true ↔ p u v) :
    TestsFor i j m True fun r u => p (val u) (val (r.readA a)) :=
  testsFor_of_exec (fun s _ _ _ h => (hexec s).trans (finish_bind_of_ok h _)) fun _ _ => hcond _ _

/-- A test of the operand against the range from A(a) to A(a+1). -/
theorem testsFor_of_testRange {i : Instr} {j a : BitVec 4} {m : AddrSpec} {c : Int → Int → Int → Bool}
    {p : Int → Int → Int → Prop} (hexec : ∀ s, exec i s = (s.discard.testRange j a m c).finish)
    (hcond : ∀ u v w, c u v w = true ↔ p u v w) :
    TestsFor i j m (a ≠ 15) fun r u => p (val u) (val (r.readA a)) (val (r.readA (a + 1))) :=
  testsFor_of_exec (fun s _ _ ha h => (hexec s).trans (finish_bind_pair_of_ok h ha _)) fun _ _ => hcond _ _ _

/-- A test of the operand alone. -/
theorem testsFor_of_test {i : Instr} {j : BitVec 4} {m : AddrSpec} {c : Word → Bool} {p : Word → Prop}
    (hexec : ∀ s, exec i s = (s.discard.test j m c).finish) (hcond : ∀ u, c u = true ↔ p u) :
    TestsFor i j m True fun _ u => p u :=
  testsFor_of_exec (fun s _ _ _ h => (hexec s).trans (finish_bind_of_ok h _)) fun _ u => hcond u

theorem within_iff (u v w : Int) : (decide (v < u) && decide (u ≤ w)) = true ↔ v < u ∧ u ≤ w := by
  rw [Bool.and_eq_true, decide_eq_true_eq, decide_eq_true_eq]

theorem not_within_iff (u v w : Int) : (!(decide (v < u) && decide (u ≤ w))) = true ↔ ¬(v < u ∧ u ≤ w) := by
  rw [Bool.not_eq_true', ← Bool.not_eq_true, within_iff]

/-- Settles O40: the comparisons are of the values of the operand and of A(a), or of A(a) and A(a+1). -/
theorem compareTests : Obligations.CompareTests := by
  unfold Obligations.CompareTests
  intro j a m
  exact ⟨testsFor_of_testA (p := fun u v => u = v) (fun _ => rfl) fun u v => beq_iff_eq,
    testsFor_of_testA (p := fun u v => u ≠ v) (fun _ => rfl) fun u v => bne_iff_ne,
    testsFor_of_testA (p := fun u v => u ≤ v) (fun _ => rfl) fun u v => decide_eq_true_iff,
    testsFor_of_testA (p := fun u v => u > v) (fun _ => rfl) fun u v => decide_eq_true_iff,
    testsFor_of_testRange (p := fun u v w => v < u ∧ u ≤ w) (fun _ => rfl) within_iff,
    testsFor_of_testRange (p := fun u v w => ¬(v < u ∧ u ≤ w)) (fun _ => rfl) not_within_iff⟩

/-- Settles O41: either zero, and the sign bit. -/
theorem basicTests : Obligations.BasicTests := by
  unfold Obligations.BasicTests
  intro j m
  exact ⟨testsFor_of_test (fun _ => rfl) isZero_iff, testsFor_of_test (fun _ => rfl) not_isZero_iff,
    testsFor_of_test (fun _ => rfl) not_isNeg_iff, testsFor_of_test (fun _ => rfl) isNeg_iff⟩

/-! ### The extended-mode tests (R311 to R327) -/

/-- A test by a mask has the condition that holds of the classes whose bits the mask has. -/
theorem testsFor_of_testMask {i : Instr} {j : BitVec 4} {m : AddrSpec} {mask : BitVec 4} (p : Nat → Prop)
    (hexec : ∀ s, exec i s = (s.discard.testMask j m mask).finish)
    (hmask : ∀ c < 4, mask.getLsbD c = true ↔ p c) : TestsFor i j m True fun _ u => p (testClass u) :=
  testsFor_of_test hexec fun u => hmask _ (testClass_lt u)

/-- Settles O42: each condition holds of exactly the classes in the mask of its test. -/
theorem maskTests : Obligations.MaskTests := by
  unfold Obligations.MaskTests
  intro j m
  simp only [ne_eq, eq_zero_iff_testClass, eq_negZero_iff_testClass, negative_iff_testClass, positive_iff_testClass]
  exact ⟨testsFor_of_testMask (fun _ => False) (fun _ => rfl) (by decide),
    testsFor_of_testMask (fun c => c < 2 ∧ ¬c = 1) (fun _ => rfl) (by decide),
    testsFor_of_testMask (fun c => c = 1) (fun _ => rfl) (by decide),
    testsFor_of_testMask (fun c => c < 2) (fun _ => rfl) (by decide),
    testsFor_of_testMask (fun c => c = 2) (fun _ => rfl) (by decide),
    testsFor_of_testMask (fun c => c = 2 ∨ c < 2 ∧ ¬c = 1) (fun _ => rfl) (by decide),
    testsFor_of_testMask (fun c => c = 1 ∨ c = 2) (fun _ => rfl) (by decide),
    testsFor_of_testMask (fun c => ¬(2 ≤ c ∧ ¬c = 2)) (fun _ => rfl) (by decide),
    testsFor_of_testMask (fun c => 2 ≤ c ∧ ¬c = 2) (fun _ => rfl) (by decide),
    testsFor_of_testMask (fun c => ¬(c = 1 ∨ c = 2)) (fun _ => rfl) (by decide),
    testsFor_of_testMask (fun c => c = 1 ∨ 2 ≤ c ∧ ¬c = 2) (fun _ => rfl) (by decide),
    testsFor_of_testMask (fun c => ¬c = 2) (fun _ => rfl) (by decide),
    testsFor_of_testMask (fun c => 2 ≤ c) (fun _ => rfl) (by decide),
    testsFor_of_testMask (fun c => ¬c = 1) (fun _ => rfl) (by decide),
    testsFor_of_testMask (fun c => ¬(c < 2 ∧ ¬c = 1)) (fun _ => rfl) (by decide),
    testsFor_of_testMask (fun _ => True) (fun _ => rfl) (by decide)⟩

end Sys2Proof.Machine
end

section
/-! The statements about jumps (spec/44_test_jump.md R330 to R347): jumps that write nothing, jumps that write divideCheck, an
index register or a cell, and the location that SLJ stores into. -/

namespace Sys2Proof.Machine

/-! ### Jumps that write nothing (R330 to R336, R341 to R345) -/

theorem jump_ne_halt (n d : BitVec 18) : Act.jump n ≠ .halt d := Act.noConfusion

theorem jumpEnd_ne_halt (c : Bool) (n d : BitVec 18) : jumpEnd c n ≠ .halt d := by
  cases c <;> exact Act.noConfusion

/-- An instruction that resolves its target and then jumps by the condition `c`. -/
theorem jumpsIf_of_exec {i : Instr} {m : AddrSpec} {ok : Prop} {c : State → Bool} {cond : State → Prop}
    (hexec : ∀ s n r, ok → s.discard.target m = .ok n r → exec i s = r.complete (jumpEnd (c r) n))
    (hcond : ∀ r, c r = true ↔ cond r) : JumpsIf i m ok cond := by
  intro s n r hquiet hok htarget
  have hr : Indexes s.discard r := (bumps_target _ m).indexes htarget
  exact hr.completes_by (jump_ne_halt n) seq_ne_halt hquiet (hexec s n r hok htarget) (hcond r)

theorem jumpsIf_of_jumpIf {i : Instr} {m : AddrSpec} {c : State → Bool} {cond : State → Prop}
    (hexec : ∀ s, exec i s = (s.discard.jumpIf m c).finish) (hcond : ∀ r, c r = true ↔ cond r) : JumpsIf i m True cond :=
  jumpsIf_of_exec (fun s _ _ _ h => (hexec s).trans (finish_bind_of_ok h _)) hcond

theorem append_eq_append_iff {v u v' u' : Word} : v ++ u = v' ++ u' ↔ v = v' ∧ u = u' := by
  refine ⟨fun h => ?_, fun ⟨hv, hu⟩ => by rw [hv, hu]⟩
  have hhigh := congrArg (BitVec.extractLsb' 36 36) h
  have hlow := congrArg (BitVec.extractLsb' 0 36) h
  rw [BitVec.extractLsb'_append_eq_left, BitVec.extractLsb'_append_eq_left] at hhigh
  rw [BitVec.extractLsb'_append_eq_right, BitVec.extractLsb'_append_eq_right] at hlow
  exact ⟨hhigh, hlow⟩

/-- The 72-bit zeros are the pairs of two equal 36-bit zeros (R341). -/
theorem pairZero_iff (v u : Word) :
    (v ++ u == (0 : DWord) || v ++ u == BitVec.allOnes 72) = true ↔
      v = 0 ∧ u = 0 ∨ v = 0o777777777777 ∧ u = 0o777777777777 := by
  have hzero : (0 : DWord) = (0 : Word) ++ (0 : Word) := by decide
  have hones : BitVec.allOnes 72 = (0o777777777777 : Word) ++ (0o777777777777 : Word) := by decide
  rw [Bool.or_eq_true, beq_iff_eq, beq_iff_eq, hzero, hones, append_eq_append_iff, append_eq_append_iff]

/-- Settles O43: each is a resolution and a condition; DJZ checks its register pair between them. -/
theorem jumpResults : Obligations.JumpResults := by
  unfold Obligations.JumpResults
  intro a m
  exact ⟨jumpsIf_of_jumpIf (fun _ => rfl) fun r => isZero_iff _,
    jumpsIf_of_jumpIf (fun _ => rfl) fun r => not_isZero_iff _,
    jumpsIf_of_jumpIf (fun _ => rfl) fun r => not_isNeg_iff _,
    jumpsIf_of_jumpIf (fun _ => rfl) fun r => isNeg_iff _,
    jumpsIf_of_exec (fun _ _ _ ha h => finish_bind_pair_of_ok h ha _) fun r => pairZero_iff _ _,
    jumpsIf_of_jumpIf (fun _ => rfl) fun r => iff_of_true rfl trivial,
    jumpsIf_of_jumpIf (fun _ => rfl) fun r => iff_of_false Bool.false_ne_true id,
    jumpsIf_of_jumpIf (fun _ => rfl) fun r => Iff.rfl,
    jumpsIf_of_jumpIf (fun _ => rfl) fun r => iff_of_eq (Bool.not_eq_true' _),
    jumpsIf_of_jumpIf (fun _ => rfl) fun r => Iff.rfl,
    jumpsIf_of_jumpIf (fun _ => rfl) fun r => iff_of_eq (Bool.not_eq_true' _)⟩

/-! ### JDF and JNDF (R346, R347) -/

section
variable {s r : State} (h : Indexes s.discard r)
include h

theorem Indexes.dr_eq : r.dr = s.dr := by
  obtain ⟨-, hdr, -⟩ := h.fields
  exact hdr

theorem Indexes.divideCheck_eq : r.divideCheck = s.dr.getLsbD 13 := by rw [State.divideCheck, h.dr_eq]

theorem Indexes.nextOffset_eq : r.nextOffset = s.par.extractLsb' 0 18 + 1 := by
  obtain ⟨-, -, hpar, -⟩ := h.fields
  rw [State.nextOffset, hpar]
  rfl

end

/-- The write of divideCheck that the two jumps pend. -/
theorem divideCheckOf_applyDr_clear (d : Word) : DivideCheckOf d (applyDr d (.dr (drMask [13]) 0 false)) false := by
  refine ⟨?_, fun k h13 => ?_⟩
  · rw [getLsbD_applyDr, if_pos (by decide)]
    rfl
  · rw [getLsbD_applyDr, getLsbD_drMask, if_neg (by simp [h13])]

/-- A resolution after which divideCheck is cleared. -/
theorem Indexes.completes_clearing {i : Instr} {s r : State} {act : Act} (h : Indexes s.discard r)
    (hact : ∀ d, act ≠ .halt d) (hquiet : s.Quiet)
    (hexec : exec i s = (r.writeDivideCheck false false).complete act) :
    Completes i s act fun t => SetsNone r t ∧ DivideCheckOf s.dr t.dr false ∧ SameStorage s t := by
  refine (h.leaves.completes_pend_dr hact hquiet (by decide) hexec).mono fun t ⟨⟨hsets, hstorage⟩, hdr⟩ =>
    ⟨hsets, ?_, hstorage⟩
  rw [hdr]
  exact divideCheckOf_applyDr_clear s.dr

/-- Settles O44: the jump reads divideCheck before its pending write clears it. -/
theorem divideFaultJumps : Obligations.DivideFaultJumps := by
  unfold Obligations.DivideFaultJumps
  intro m s r n hquiet htarget
  have hr : Indexes s.discard r := (bumps_target _ m).indexes htarget
  have hjdf : exec (.jdf m) s = (r.writeDivideCheck false false).complete (jumpEnd r.divideCheck n) :=
    finish_bind_of_ok htarget _
  have hjndf : exec (.jndf m) s = (r.writeDivideCheck false false).complete (jumpEnd (!r.divideCheck) n) :=
    finish_bind_of_ok htarget _
  rw [hr.divideCheck_eq] at hjdf hjndf
  have hnot : jumpEnd (!s.dr.getLsbD 13) n = if s.dr.getLsbD 13 then .seq else .jump n := by
    cases s.dr.getLsbD 13 <;> rfl
  rw [hnot] at hjndf
  refine ⟨hr.completes_clearing (jumpEnd_ne_halt _ n) hquiet hjdf, hr.completes_clearing ?_ hquiet hjndf⟩
  exact hnot ▸ jumpEnd_ne_halt _ n

/-! ### JMGI and LMJ (R337, R339) -/

section
variable {s r : State} (h : Indexes s.discard r)
include h

theorem Indexes.incremented_eq (v : Word) : r.incremented v = s.incremented v := by
  obtain ⟨l, rfl, -⟩ := h
  rfl

theorem Indexes.modifierPositive_iff (v : Word) :
    r.modifierPositive v = true ↔ 0 < r.modifier v ∧ r.modifier v < 2 ^ (if s.dr.getLsbD 33 then 23 else 17) := by
  have hwidth : r.indexWidth - 1 = if s.dr.getLsbD 33 then 23 else 17 := by
    rw [State.indexWidth, State.ix24, h.dr_eq]
    cases s.dr.getLsbD 33 <;> rfl
  rw [State.modifierPositive, Bool.and_eq_true, decide_eq_true_eq, decide_eq_true_eq, hwidth]

end

/-- Settles O45: JMGI reads X(a) before its increment, and LMJ writes the next offset into it. -/
theorem indexJumps : Obligations.IndexJumps := by
  unfold Obligations.IndexJumps
  intro a m s r n hquiet htarget
  have hr : Indexes s.discard r := (bumps_target _ m).indexes htarget
  refine ⟨⟨r.modifierPositive (r.readX a), hr.modifierPositive_iff _, ?jmgi⟩, ?lmj⟩
  case jmgi =>
    have hexec : exec (.jmgi a m) s = (r.bump a).complete (jumpEnd (r.modifierPositive (r.readX a)) n) :=
      finish_bind_of_ok htarget _
    rw [State.bump, State.writeX, hr.xCell_eq, hr.incremented_eq] at hexec
    exact completes_of_writeGrs hr (jumpEnd_ne_halt _ n) hquiet hexec
  case lmj =>
    have hexec : exec (.lmj a m) s = (r.writeX a (withLow18 (r.readX a) r.nextOffset)).complete (.jump n) :=
      finish_bind_of_ok htarget _
    rw [State.writeX, hr.xCell_eq, hr.nextOffset_eq] at hexec
    exact completes_of_writeGrs hr (jump_ne_halt n) hquiet hexec

/-! ### JGD (R338) -/

theorem jgdCell_val {j a : BitVec 4} (h : j.toNat < 8) : (jgdCell j a).val = 16 * j.toNat + a.toNat := by
  have ha := a.isLt
  rw [jgdCell, if_pos h]
  exact Nat.mod_eq_of_lt (by omega)

/-- After its target JGD names its cell. -/
theorem exec_jgd_of_target {s r : State} {j a : BitVec 4} {m : AddrSpec} {n : BitVec 18}
    (htarget : s.discard.target m = .ok n r) :
    exec (.jgd j a m) s = ((r.grsPlace (jgdCell j a)).bind fun _ t =>
      .ok (jumpEnd (decide (0 < val (t.readGrs (jgdCell j a)))) n)
        (t.writeGrs (jgdCell j a) (add36 (t.readGrs (jgdCell j a)) (~~~1)).r)).finish :=
  finish_bind_of_ok htarget _

/-- Settles O46: the privilege decides whether JGD may have its cell, which it then reads and writes. -/
theorem countJump : Obligations.CountJump := by
  unfold Obligations.CountJump
  intro j a m s r n htarget
  have hr : Indexes s.discard r := (bumps_target _ m).indexes htarget
  obtain ⟨-, -, -, hpp, -⟩ := hr.views
  have hexec := exec_jgd_of_target (j := j) (a := a) htarget
  refine ⟨jgdCell_val, fun hne hcell => ?_, fun hquiet hallowed => ?_⟩
  · rw [hexec, r.grsPlace_of_refused (hpp ▸ hne) hcell, Res.bind_refused, Res.finish_refused]
  · rw [r.grsPlace_of_allowed (hpp ▸ hallowed), Res.bind_ok, Res.finish_ok] at hexec
    have hend : jumpEnd (decide (0 < val (r.readGrs (jgdCell j a)))) n =
        if 0 < val (r.readGrs (jgdCell j a)) then .jump n else .seq := by
      simp only [jumpEnd, decide_eq_true_eq]
    rw [hend] at hexec
    exact completes_of_writeGrs hr (hend ▸ jumpEnd_ne_halt _ n) hquiet hexec

/-! ### SLJ (R340) -/

/-- A store into H2 keeps the upper half of the word (spec/00_scope.md R11). -/
theorem mergeField_h2 (qw : Bool) (v : Word) (n : BitVec 18) :
    mergeField qw 1 v (n.setWidth 36) = v.extractLsb' 18 18 ++ n := by
  have hput : mergeField qw 1 v (n.setWidth 36) = Overlay.h2.put v (n.setWidth 36) := rfl
  rw [hput]
  apply BitVec.eq_of_getLsbD_eq
  intro k hk
  rw [Overlay.getLsbD_put, BitVec.getLsbD_append, BitVec.getLsbD_setWidth, BitVec.getLsbD_extractLsb']
  by_cases hlow : k < 18
  · simp [Overlay.lo, Overlay.width, hlow, hk]
  · have hhigh : k - 18 < 18 := by omega
    have hplace : 18 + (k - 18) = k := by omega
    simp [Overlay.lo, Overlay.width, hlow, hhigh, hplace]

section
variable {s : State} {n : BitVec 18} {acc : Perms}

theorem State.locate_of_cell {c : Fin 128} (h : c.val = n.toNat) :
    s.locate n acc = (s.grsPlace c).bind fun p t => t.check acc p := by
  rw [State.locate, ← h, s.basicPlace_of_cell c]

theorem State.locate_of_slot (h : 0o200 ≤ n.toNat) {k : BasicSlot} (hk : s.basicBankSelect n.toNat = some k) :
    s.locate n acc = s.check acc (.mem k.number n.toNat) := by
  rw [State.locate, State.basicPlace, if_neg (Nat.not_lt.2 h), hk, Res.bind_ok]

theorem State.locate_of_none (h : 0o200 ≤ n.toNat) (hk : s.basicBankSelect n.toNat = none) :
    s.locate n acc = .raised .referenceViolation (BitVec.ofNat 36 n.toNat) s := by
  rw [State.locate, State.basicPlace, if_neg (Nat.not_lt.2 h), hk, Res.bind_raised]

end

theorem cellNamed_locate (s : State) (n : BitVec 18) (acc : Perms) : CellNamed s n.toNat (s.locate n acc) .grs := by
  intro c hc
  rw [State.locate_of_cell hc]
  refine ⟨fun hallowed => ?_, fun hpp hexec => ?_⟩
  · rw [s.grsPlace_of_allowed (hc.symm ▸ hallowed), Res.bind_ok, State.check_grs]
  · rw [s.grsPlace_of_refused hpp (hc.symm ▸ hexec), Res.bind_refused]

/-- SLJ once its target and the location there are found. -/
theorem exec_slj_of_locate {s q r : State} {m : AddrSpec} {n : BitVec 18} {l : Loc}
    (htarget : s.discard.target m = .ok n q) (hloc : q.locate n Perms.readWrite = .ok l r) :
    exec (.slj m) s = (r.storeField l 1 (r.nextOffset.setWidth 36)).complete (.jump (n + 1)) := by
  have hexec : exec (.slj m) s = ((q.locate n Perms.readWrite).bind fun l t =>
      .ok (.jump (n + 1)) (t.storeField l 1 (t.nextOffset.setWidth 36))).finish := finish_bind_of_ok htarget _
  rw [hexec, hloc, Res.bind_ok, Res.finish_ok]

/-- Settles O47: SLJ is a resolution and one write of the merged word; its location is the place at the target, checked. -/
theorem storeLocationJump : Obligations.StoreLocationJump := by
  unfold Obligations.StoreLocationJump
  refine ⟨fun m s q r n l hquiet hwf htarget hloc => ?_, fun s n acc => ⟨fun _ => cellNamed_locate s n acc,
    fun hn hk => State.locate_of_none hn hk, fun hn k hk => ?_⟩⟩
  · obtain rfl : r = q := (stays_locate q n _).of_eq_ok hloc
    have hr : Indexes s.discard r := (bumps_target _ m).indexes htarget
    have hexec := exec_slj_of_locate htarget hloc
    rw [State.storeField, mergeField_h2, hr.nextOffset_eq] at hexec
    exact completes_of_writeLoc hr (jump_ne_halt _) hquiet hwf hexec
  · rw [State.locate_of_slot hn hk]
    exact bankChecks_check s acc k.number n.toNat

end Sys2Proof.Machine
end

section
/-! The statements about test-and-set, HALT and designator-register access (spec/45_system.md R360 to R367): the privilege check,
the access to a location in one indivisible read and write, and the completion of an instruction that replaces the DR. -/

namespace Sys2Proof.Machine

/-! ### The privilege check (R360) -/

section
variable {s : State} (f : Unit → State → Res Act)

theorem finish_privileged_bind (h : s.pp = 0) : (s.privileged.bind f).finish = (f () s).finish := by
  rw [State.privileged, if_pos h, Res.bind_ok]

theorem finish_privileged_bind_of_ne (h : s.pp ≠ 0) :
    (s.privileged.bind f).finish = .refused .privilegedInstruction := by
  rw [State.privileged, if_neg h, Res.bind_refused, Res.finish_refused]

end

theorem Indexes.pp_eq {s r : State} (h : Indexes s.discard r) : r.pp = s.pp := by
  obtain ⟨-, -, -, hpp, -⟩ := h.views
  exact hpp

theorem Indexes.basicMode_eq {s r : State} (h : Indexes s.discard r) : r.basicMode = s.basicMode := by
  obtain ⟨-, -, -, -, hmode, -⟩ := h.views
  exact hmode

/-! ### Test-and-set (R361 to R364) -/

/-- How an instruction ends depends on the state that its Writeback leaves. -/
theorem State.complete_congr {s t : State} {act : Act} (h : s.writeback act = t.writeback act) :
    s.complete act = t.complete act := by
  cases act with
  | halt d => simp only [State.complete, h]
  | _ => exact congrArg State.interruptCheck h

section
variable {s r : State} (h : Indexes s.discard r)
include h

/-- After a resolution, a read and write of a location at once ends as a read and a pending write of it do
(notes/assumptions/25.md). -/
theorem Indexes.complete_modifyLoc (l : Loc) (f : Word → Word) (act : Act) :
    (r.modifyLoc l f).complete act = (r.writeLoc l (f (r.readLoc l))).complete act := by
  cases l with
  | grs n => rfl
  | mem slot rel abs =>
    apply State.complete_congr
    simp [State.writeback, State.modifyLoc, State.writeLoc, State.readLoc, State.commit_eq, List.foldl_append, applyGrs,
      applyMem, applyDr, h.foldl_applyMem]

/-- To set a bit that is set stores the word that is there, so a raise finds the state as it was at Fetch (R361, R364). -/
theorem Indexes.keepSurvivors_commit_modifyLoc (hwf : s.memory.wf) {l : Loc} {f : Word → Word}
    (hsame : f (r.readLoc l) = r.readLoc l) : (r.modifyLoc l f).keepSurvivors.commit = s.discard := by
  have hkeeps : (r.modifyLoc l f).keepSurvivors = r.keepSurvivors := by
    cases l with
    | grs n => simp [State.modifyLoc, State.writeGrs, State.pend, State.keepSurvivors, PendingWrite.survives]
    | mem slot rel abs =>
      obtain ⟨-, -, -, -, -, -, -, -, -, -, -, hmemory, -⟩ := h.fields
      have hwrite : r.memory.write abs (f (r.memory.read abs)) = r.memory :=
        (congrArg (r.memory.write abs) hsame).trans (Memory.write_read_self (hmemory ▸ hwf) abs)
      rw [State.modifyLoc, hwrite]
  rw [hkeeps, h.keepSurvivors_commit]

end

theorem or_lockBit_of_set {v : Word} (h : v.getLsbD 30 = true) : v ||| lockBit = v := by
  apply BitVec.eq_of_getLsbD_eq
  intro k hk
  have hbit : lockBit.getLsbD k = decide (k = 30) := by
    rw [lockBit, BitVec.getLsbD_shiftLeft, BitVec.getLsbD_one, Bool.eq_iff_iff]
    simp only [Bool.and_eq_true, Bool.not_eq_true', decide_eq_true_eq, decide_eq_false_iff_not]
    omega
  rw [BitVec.getLsbD_or, hbit]
  by_cases h30 : k = 30
  · simp [h30, h]
  · simp [h30]

/-- A test-and-set instruction that does not raise is a resolution and one write of its location. -/
theorem completes_of_modifyLoc {i : Instr} {s r : State} {l : Loc} {f : Word → Word} {act : Act}
    (h : Indexes s.discard r) (hwf : s.memory.wf) (hact : ∀ d, act ≠ .halt d) (hquiet : s.Quiet)
    (hexec : exec i s = (r.modifyLoc l f).complete act) :
    Completes i s act fun t => SetsLoc s r t l (f (r.readLoc l)) ∧ t.dr = s.dr :=
  completes_of_writeLoc h hact hquiet hwf (hexec.trans (h.complete_modifyLoc l f act))

/-- TS after its resolution. -/
theorem exec_ts_of_operandLoc {s r : State} {m : AddrSpec} {l : Loc}
    (hloc : s.discard.operandLoc Perms.readWrite m = .ok l r) :
    exec (.ts m) s =
      (if (r.readLoc l).getLsbD 30 then .raised .testAndSet (locDetail l) (r.modifyLoc l (· ||| lockBit))
        else .ok .seq (r.modifyLoc l (· ||| lockBit)) : Res Act).finish :=
  finish_bind_of_ok hloc _

/-- Settles O48: the three instructions are one read and write of a location; TS on a set bit writes nothing new. -/
theorem testAndSetResults : Obligations.TestAndSetResults := by
  unfold Obligations.TestAndSetResults
  intro m s r l hwf hloc
  have hr : Indexes s.discard r := (bumps_operandLoc _ _ m).indexes hloc
  refine ⟨fun hset => ?_, fun hquiet hclear => ?_, fun hquiet => ?_, fun hquiet => ?_, ?_⟩
  · rw [exec_ts_of_operandLoc hloc, if_pos hset, Res.finish_raised,
      hr.keepSurvivors_commit_modifyLoc hwf (or_lockBit_of_set hset)]
  · refine completes_of_modifyLoc (f := (· ||| lockBit)) hr hwf seq_ne_halt hquiet ?_
    rw [exec_ts_of_operandLoc hloc, hclear]
    rfl
  · have hend : testEnd (!(r.readLoc l).getLsbD 30) = if (r.readLoc l).getLsbD 30 then .seq else .skip := by
      cases (r.readLoc l).getLsbD 30 <;> rfl
    rw [← hend]
    exact completes_of_modifyLoc (f := (· ||| lockBit)) hr hwf (testEnd_ne_halt _) hquiet (finish_bind_of_ok hloc _)
  · exact completes_of_modifyLoc (f := (· &&& ~~~lockBit)) hr hwf (testEnd_ne_halt _) hquiet (finish_bind_of_ok hloc _)
  · cases l <;> rfl

/-! ### HALT (R365) -/

/-- Settles O49: HALT checks the privilege and ends; with no pending write, Writeback moves the PAR alone. -/
theorem haltResult : Obligations.HaltResult := by
  unfold Obligations.HaltResult
  exact fun d s => ⟨fun hpp => finish_privileged_bind (s := s.discard) _ hpp,
    fun hpp => finish_privileged_bind_of_ne (s := s.discard) _ hpp⟩

/-! ### LD and SD (R366, R367) -/

/-- With nothing pending no interrupt is due, whatever the DR is. -/
theorem State.quiet_of_idle {s : State} (hpending : s.pending = []) (hstop : s.stopRequested = false) : s.Quiet :=
  ⟨by rw [State.dueInterrupt, hpending]; rfl, hstop⟩

/-- With nothing pending, an instruction that has only formed pending writes completes even where these replace the DR bit that
defers interrupts. -/
theorem PendsOnly.completes_of_idle {i : Instr} {s u : State} {act : Act} {P : State → Prop} (h : PendsOnly s u)
    (hexec : exec i s = u.complete act) (hact : ∀ d, act ≠ .halt d) (hpending : s.pending = [])
    (hstop : s.stopRequested = false) (hP : P (u.writeback act)) : Completes i s act P := by
  have hrest := h.keepsRest act
  have hafter : (u.writeback act).Quiet :=
    State.quiet_of_idle (hrest.pending.trans hpending) (hrest.stopRequested.trans hstop)
  have hpar : u.par = s.par := by
    obtain ⟨l, rfl⟩ := h
    rfl
  refine ⟨u.writeback act, ?_, ?_, hrest, hP⟩
  · rw [hexec, u.complete_of_quiet act hact hafter]
  · rw [State.writeback_par, hpar]
    exact parAfter_nextPar s.par act

/-- A write under the full mask replaces the DR. -/
theorem applyDr_allOnes (d v : Word) (survives : Bool) : applyDr d (.dr (BitVec.allOnes 36) v survives) = v := by
  rw [applyDr, BitVec.not_allOnes, BitVec.and_zero, BitVec.zero_or, BitVec.and_allOnes]

/-- A resolution and a write of the whole DR leave the word written in it, and nothing else but the increments. -/
theorem Indexes.writeback_pend_allOnes {s r : State} (h : Indexes s.discard r) (v : Word) (act : Act) :
    SetsNone r ((r.pend (.dr (BitVec.allOnes 36) v false)).writeback act) ∧
      ((r.pend (.dr (BitVec.allOnes 36) v false)).writeback act).dr = v ∧
      SameStorage s ((r.pend (.dr (BitVec.allOnes 36) v false)).writeback act) := by
  rw [State.writeback_pend_dr, applyDr_allOnes]
  obtain ⟨hsets, hstorage⟩ := h.leaves.holds act v
  exact ⟨hsets, rfl, hstorage⟩

/-- LD after its resolution and its privilege check. -/
theorem exec_ld_of_operandLoc {s r : State} {m : AddrSpec} {l : Loc}
    (hloc : s.discard.operandLoc Perms.read m = .ok l r) (hpp : r.pp = 0) :
    exec (.ld m) s =
      (if (r.readLoc l).getLsbD 19 != r.basicMode then .refused .modeChangeByLD
        else .ok .seq (r.pend (.dr (BitVec.allOnes 36) (r.readLoc l) false)) : Res Act).finish :=
  (finish_bind_of_ok hloc _).trans (finish_privileged_bind _ hpp)

/-- Settles O50: both check the privilege after the resolution; LD then compares the modes and replaces the DR, and SD writes the
DR to its location. -/
theorem designatorAccess : Obligations.DesignatorAccess := by
  unfold Obligations.DesignatorAccess
  intro m s r l
  refine ⟨fun hloc => ?_, fun hloc => ?_⟩
  all_goals have hr : Indexes s.discard r := (bumps_operandLoc _ _ m).indexes hloc
  · refine ⟨fun hpp => ?_, fun hpp hmode => ?_, fun hpp hmode hpending hstop => ?_⟩
    · exact (finish_bind_of_ok hloc _).trans (finish_privileged_bind_of_ne _ (hr.pp_eq.symm ▸ hpp))
    · rw [exec_ld_of_operandLoc hloc (hr.pp_eq.trans hpp), hr.basicMode_eq, if_pos (bne_iff_ne.2 hmode),
        Res.finish_refused]
    · refine (hr.pendsOnly.pend _).completes_of_idle ?_ seq_ne_halt hpending hstop
        (hr.writeback_pend_allOnes (r.readLoc l) .seq)
      rw [exec_ld_of_operandLoc hloc (hr.pp_eq.trans hpp), hr.basicMode_eq, hmode, bne_self_eq_false,
        if_neg Bool.false_ne_true, Res.finish_ok]
  · refine ⟨fun hpp => ?_, fun hpp hquiet hwf => ?_⟩
    · exact (finish_bind_of_ok hloc _).trans (finish_privileged_bind_of_ne _ (hr.pp_eq.symm ▸ hpp))
    · refine completes_of_writeLoc hr seq_ne_halt hquiet hwf ?_
      rw [← hr.dr_eq]
      exact (finish_bind_of_ok hloc _).trans (finish_privileged_bind _ (hr.pp_eq.trans hpp))

end Sys2Proof.Machine
end

section
/-! The statements about UR (spec/45_system.md R368; spec/60_exceptions.md R394): the check of a frame in the ICS bank, the fatal
stops of a return in their order, and the state after a return. -/

namespace Sys2Proof.Machine

/-! ### The processor's own accesses to storage (R394, R397) -/

theorem permits_read_iff (p : Perms) : Permits p Perms.read ↔ p.r = true := by
  simp [Permits, Perms.read]

section
variable {s : State} {p n : Nat} {acc : Perms}

/-- Words of the ICS that one of the checks of R394 denies. -/
theorem State.checkICS_of_denied (h : s.br[s.params.icsSlot].isVoid = true ∨ p < s.br[s.params.icsSlot].lower ∨
      s.br[s.params.icsSlot].upper + 1 < p + n ∨ ¬Permits (granted s.br[s.params.icsSlot] s.key) acc) :
    s.checkICS p n acc = .fails .icsAccessFault := by
  refine if_pos ?_
  have hsubset : acc.subset (s.br[s.params.icsSlot].permissions s.key) = true ↔
      Permits (granted s.br[s.params.icsSlot] s.key) acc := Perms.subset_eq_true_iff _ _
  simpa only [Bool.or_eq_true, decide_eq_true_eq, Bool.not_eq_true', ← Bool.not_eq_true, or_assoc, ← hsubset] using h

/-- Words of the ICS that pass the checks of R394. -/
theorem State.checkICS_of_permitted (hvoid : s.br[s.params.icsSlot].isVoid = false) (hlo : s.br[s.params.icsSlot].lower ≤ p)
    (hhi : p + n ≤ s.br[s.params.icsSlot].upper + 1) (hperm : Permits (granted s.br[s.params.icsSlot] s.key) acc) :
    s.checkICS p n acc = .ok (s.br[s.params.icsSlot].base + p) := by
  have hsubset : acc.subset (s.br[s.params.icsSlot].permissions s.key) = true := (Perms.subset_eq_true_iff _ _).2 hperm
  simp only [State.checkICS, hvoid, hsubset, decide_eq_false (Nat.not_lt.2 hlo), decide_eq_false (Nat.not_lt.2 hhi),
    Bool.or_false, Bool.not_true, Bool.false_eq_true, if_false]

theorem State.probeWord_of_lt {a : Nat} (h : a < s.params.storageSize) : s.probeWord a = .ok (s.memory.read a) := if_pos h

theorem State.bankFor_of_basic {dr : Word} (par : Word) (h : dr.getLsbD 19 = true) : s.bankFor dr par = .ok none := if_pos h

theorem State.bankFor_of_extended {dr : Word} (par : Word) (h : dr.getLsbD 19 = false) :
    s.bankFor dr par = (s.loadPB par).bind fun b => .ok (some b) := if_neg (Bool.eq_false_iff.1 h)

end

/-! ### A return up to the reload of PB (R368) -/

/-- A return before Writeback: PB replaced, and the writes of the ICS pointer and of the DR pending. -/
def State.popping (s : State) (p : Nat) (pb : BaseRegister) (dr : Word) : State :=
  (({ s with pb := pb }).writeGrs s.params.icsPointer (s.withIcsPointer p)).pend (.dr (BitVec.allOnes 36) dr false)

section
variable {s : State}

theorem State.returnFromInterrupt_of_underflow (h : s.icsPointer.toNat < s.params.icsFrameSize) :
    s.returnFromInterrupt = .fatal .icsUnderflow 0 s := if_pos h

section
variable {p : Nat} (hpop : p + s.params.icsFrameSize = s.icsPointer.toNat)
include hpop

theorem State.returnFromInterrupt_of_denied
    (h : s.br[s.params.icsSlot].isVoid = true ∨ p < s.br[s.params.icsSlot].lower ∨ s.br[s.params.icsSlot].upper < p + 1 ∨
      (granted s.br[s.params.icsSlot] s.key).r = false) :
    s.returnFromInterrupt = .fatal .icsAccessFault 0 s := by
  have hcheck : s.checkICS p 2 Perms.read = .fails .icsAccessFault := by
    refine State.checkICS_of_denied ?_
    rw [permits_read_iff, Bool.not_eq_true]
    exact h.imp_right (Or.imp_right (Or.imp_left Nat.succ_lt_succ))
  rw [State.returnFromInterrupt, ← hpop, if_neg (Nat.not_lt.2 (Nat.le_add_left _ _)), Nat.add_sub_cancel, hcheck]
  rfl

/-- With the frame in the ICS bank and in storage, the reload of PB is all that can fail. -/
theorem State.returnFromInterrupt_of_frame {a : Nat} (ha : a = s.br[s.params.icsSlot].base + p)
    (hvoid : s.br[s.params.icsSlot].isVoid = false) (hlo : s.br[s.params.icsSlot].lower ≤ p)
    (hhi : p + 1 ≤ s.br[s.params.icsSlot].upper) (hread : (granted s.br[s.params.icsSlot] s.key).r = true)
    (hend : a + 1 < s.params.storageSize) :
    s.returnFromInterrupt =
      (s.probed (s.bankFor (s.memory.read (a + 1)) (s.memory.read a))).bind fun bank t =>
        .ok (.jumpPar (s.memory.read a)) (t.popping p (bank.getD t.pb) (s.memory.read (a + 1))) := by
  have hcheck : s.checkICS p 2 Perms.read = .ok a :=
    ha ▸ State.checkICS_of_permitted hvoid hlo (Nat.succ_le_succ hhi) ((permits_read_iff _).2 hread)
  rw [State.returnFromInterrupt, ← hpop, if_neg (Nat.not_lt.2 (Nat.le_add_left _ _)), Nat.add_sub_cancel, hcheck]
  simp only [State.probed, Res.bind_ok, State.probeWord_of_lt hend, State.probeWord_of_lt (Nat.lt_of_succ_lt hend)]
  rfl

end

/-- What PB becomes at a return: it stays for a basic-mode DR, and else it is the bank that the PAR names. -/
theorem State.bankFor_getD_of_reload {dr par : Word} {pb : BaseRegister}
    (h : if dr.getLsbD 19 then pb = s.pb else s.loadPB par = .ok pb) :
    ∃ bank, s.bankFor dr par = .ok bank ∧ bank.getD s.pb = pb := by
  cases hmode : dr.getLsbD 19 with
  | true =>
    rw [if_pos hmode] at h
    exact ⟨none, State.bankFor_of_basic par hmode, h.symm⟩
  | false =>
    rw [if_neg (Bool.eq_false_iff.1 hmode)] at h
    rw [State.bankFor_of_extended par hmode, h]
    exact ⟨some pb, rfl, rfl⟩

/-- Writeback of a return out of a state without pending writes. -/
theorem State.writeback_popping (hpw : s.pw = []) (p : Nat) (pb : BaseRegister) (dr par : Word) :
    (s.popping p pb dr).writeback (.jumpPar par) =
      { s with
        par := par, dr := dr, pb := pb, pw := [], grs := s.grs.set s.params.icsPointer (s.withIcsPointer p) } := by
  rw [State.popping, State.writeback_pend_dr, applyDr_allOnes]
  simp [State.writeback, State.commit_eq, hpw, applyGrs, applyMem, nextPar]

/-- A return completes where InterruptCheck has nothing to do after it. -/
theorem State.complete_popping (hpw : s.pw = []) (hpending : s.pending = []) (hstop : s.stopRequested = false) (p : Nat)
    (pb : BaseRegister) (dr par : Word) :
    (s.popping p pb dr).complete (.jumpPar par) = .next
      { s with
        par := par, dr := dr, pb := pb, pw := [], grs := s.grs.set s.params.icsPointer (s.withIcsPointer p) } := by
  rw [State.complete_of_quiet _ _ (fun _ => Act.noConfusion), State.writeback_popping hpw]
  rw [State.writeback_popping hpw]
  exact State.quiet_of_idle hpending hstop

end

/-! ### UR (R368) -/

theorem exec_ur_of_privileged {s : State} (hpp : s.pp = 0) : exec .ur s = s.discard.returnFromInterrupt.finish :=
  finish_privileged_bind (s := s.discard) _ hpp

/-- Settles O51: the frame is in the ICS bank and in storage, and PB can be reloaded, so the return reaches its Writeback. -/
theorem returnResult : Obligations.ReturnResult := by
  unfold Obligations.ReturnResult
  intro s
  refine ⟨fun hpp => finish_privileged_bind_of_ne (s := s.discard) _ hpp, ?_⟩
  rintro b pb q p a rfl rfl hpop ha hpp hpending hstop hvoid hlo hhi hread hend hreload
  obtain ⟨bank, hbank, rfl⟩ := State.bankFor_getD_of_reload (s := s.discard) hreload
  rw [exec_ur_of_privileged hpp, State.returnFromInterrupt_of_frame (s := s.discard) hpop ha hvoid hlo hhi hread hend,
    State.discard_memory, hbank, State.probed, Res.bind_ok, Res.finish_ok,
    State.complete_popping s.discard_pw hpending hstop]
  rfl

/-- Settles O52: each failure ends the return in a fatal stop, which drops the pending writes and leaves the rest as at Fetch. -/
theorem returnStops : Obligations.ReturnStops := by
  unfold Obligations.ReturnStops
  rintro s b q rfl rfl hpp
  rw [exec_ur_of_privileged hpp]
  refine ⟨fun hunder => ?_, fun p a hpop ha => ⟨fun hdenied => ?_, fun hvoid hlo hhi hread hend hmode hreload => ?_⟩⟩
  · rw [State.returnFromInterrupt_of_underflow (s := s.discard) hunder]
    rfl
  · rw [State.returnFromInterrupt_of_denied (s := s.discard) hpop hdenied]
    rfl
  · have hbank : s.discard.bankFor (s.memory.read (a + 1)) (s.memory.read a) = .fails .vectorFault := by
      rw [State.bankFor_of_extended _ hmode]
      exact congrArg (Probe.bind · _) hreload
    rw [State.returnFromInterrupt_of_frame (s := s.discard) hpop ha hvoid hlo hhi hread hend, State.discard_memory, hbank]
    rfl

end Sys2Proof.Machine
end

section
/-! The statements about host calls (spec/60_exceptions.md R384, R424, R425; spec/70_reset_and_hazards.md R440): which calls may be
made, what each writes, what a post or a raise makes pending, and the external stop. -/

namespace Sys2Proof.Machine

/-! ### Calls while the IP runs and while it is stopped (R440) -/

section
variable {s : State} {c : HostCall}

theorem hostCall_of_stopped (h : s.running = false) : hostCall c s = s.hostEffect c := by
  rw [hostCall, h, Bool.false_and, if_neg Bool.false_ne_true]

theorem hostCall_of_whileRunning (h : c.whileRunning = true) : hostCall c s = s.hostEffect c := by
  rw [hostCall, h, Bool.not_true, Bool.and_false, if_neg Bool.false_ne_true]

theorem hostCall_of_running (h : s.running = true) (hc : c.whileRunning = false) :
    hostCall c s = .refused .hostCallWhileRunning := by
  rw [hostCall, h, hc, Bool.not_false, Bool.and_true, if_pos rfl]

end

/-- Only `stop` and `post` may be made while the IP runs. -/
theorem HostCall.whileRunning_of_ne {c : HostCall} (hstop : c ≠ .stop) (hpost : ∀ n d, c ≠ .post n d) :
    c.whileRunning = false := by
  cases c with
  | stop => exact absurd rfl hstop
  | post n d => exact absurd rfl (hpost n d)
  | _ => rfl

/-! ### Banks that the host hands over (R36, R37) -/

theorem limitsOrdered_iff (b : BaseRegister) : b.limitsOrdered = true ↔ b.isVoid = true ∨ b.lower ≤ b.upper := by
  simp [BaseRegister.limitsOrdered]

theorem baseFits_iff (b : BaseRegister) (bits : Nat) : b.baseFits bits = true ↔ b.base < 2 ^ bits := by
  simp [BaseRegister.baseFits]

section
variable {s : State} {b : BaseRegister} (t : State)

theorem State.acceptBank_of_legal (hlimits : b.isVoid = true ∨ b.lower ≤ b.upper)
    (hbase : b.base < 2 ^ s.params.absAddrBits) : s.acceptBank b t = .next t := by
  simp [State.acceptBank, (limitsOrdered_iff b).2 hlimits, (baseFits_iff b _).2 hbase]

theorem State.acceptBank_of_misordered (hvoid : b.isVoid = false) (hlimits : b.upper < b.lower) :
    s.acceptBank b t = .refused .misorderedLimits := by
  have hordered : ¬b.limitsOrdered = true := by simp [limitsOrdered_iff, hvoid, hlimits]
  simp [State.acceptBank, hordered]

theorem State.acceptBank_of_wide (hlimits : b.isVoid = true ∨ b.lower ≤ b.upper)
    (hbase : 2 ^ s.params.absAddrBits ≤ b.base) : s.acceptBank b t = .refused .wideBase := by
  have hfits : ¬b.baseFits s.params.absAddrBits = true := by simp [baseFits_iff, hbase]
  simp [State.acceptBank, (limitsOrdered_iff b).2 hlimits, hfits]

end

/-! ### Host calls keep soundness (R424) -/

/-- A legal bank in a slot keeps the banks legal. -/
theorem State.Sound.withBank {s : State} (h : s.Sound) {b : BaseRegister} (hb : b.legal s.params.absAddrBits = true)
    (slot : Fin 16) : ({ s with br := s.br.set slot b } : State).Sound where
  memory := h.memory
  pending := h.pending
  writes := h.writes
  params := h.params
  banks := by
    refine ⟨fun k => ?_, h.banks.2⟩
    by_cases hk : slot.val = k.val
    · simpa [← hk] using hb
    · simpa [hk] using h.banks.1 k

theorem State.Sound.hostEffect {s t : State} {c : HostCall} (hs : s.Sound) (h : s.hostEffect c = .next t) : t.Sound := by
  cases c with
  | stop =>
    cases h
    split
    · exact ⟨hs.memory, hs.pending, hs.banks, hs.writes, hs.params⟩
    · exact hs
  | installBaseRegister slot b =>
    obtain ⟨rfl, hlegal⟩ := State.acceptBank_eq_next h
    exact hs.withBank hlegal slot
  | setProgramBank b =>
    obtain ⟨rfl, hlegal⟩ := State.acceptBank_eq_next h
    exact ⟨hs.memory, hs.pending, ⟨hs.banks.1, hlegal⟩, hs.writes, hs.params⟩
  | post n d =>
    obtain ⟨c, rfl⟩ := State.post_eq_next h
    exact hs.addPending _
  | load n ws =>
    obtain rfl := State.load_eq_next h
    exact ⟨Memory.wf_writeList hs.memory n ws, hs.pending, hs.banks, hs.writes, hs.params⟩
  | _ => cases h; exact ⟨hs.memory, hs.pending, hs.banks, hs.writes, hs.params⟩

/-! ### Loads and register names (R21, R70) -/

/-- A load that fits into storage writes its words at consecutive addresses and nothing else. -/
theorem hostCall_load_of_fits {s : State} {offset : Nat} {words : List Word} (hstopped : s.running = false)
    (hwf : s.memory.wf) (hfits : offset + words.length ≤ s.params.storageSize) :
    ∃ t, hostCall (.load offset words) s = .next t ∧ t = { s with memory := t.memory } ∧
      (∀ k (h : k < words.length), t.memory.read (offset + k) = words[k]) ∧
      ∀ a, a < offset ∨ offset + words.length ≤ a → t.memory.read a = s.memory.read a :=
  ⟨{ s with memory := s.memory.writeList offset words }, (hostCall_of_stopped hstopped).trans (if_pos hfits), rfl,
    fun _ hk => Memory.read_writeList hwf offset words hk,
    fun _ ha => Memory.read_writeList_of_not_mem s.memory offset words ha⟩

/-- The setter of a general register writes the cell that its name denotes and nothing else. -/
theorem hostCall_setGeneralRegister {s : State} (hstopped : s.running = false) (name : GrsName) (v : Word) :
    ∃ t, hostCall (.setGeneralRegister name v) s = .next t ∧ t = { s with grs := t.grs } ∧ t.grs[name.toCell] = v ∧
      ∀ k : Fin 128, k ≠ name.toCell → t.grs[k] = s.grs[k] := by
  refine ⟨{ s with grs := s.grs.set name.toCell v }, hostCall_of_stopped hstopped, rfl, ?_, fun k hk => ?_⟩
  · exact Vector.getElem_set_self _
  · exact Vector.getElem_set_ne name.toCell.isLt k.isLt fun h => hk (Fin.ext h.symm)

/-- The cells of the names of R21, none of which is past the GRS. -/
theorem toCell_val (n : Fin 16) : (GrsName.x n).toCell.val = n.val ∧ (GrsName.a n).toCell.val = 12 + n.val ∧
    (GrsName.r n).toCell.val = 64 + n.val ∧ (GrsName.er n).toCell.val = 80 + n.val ∧
    (GrsName.ex n).toCell.val = 96 + n.val ∧ (GrsName.ea n).toCell.val = 108 + n.val := by
  have hn := n.isLt
  refine ⟨?_, ?_, ?_, ?_, ?_, ?_⟩
  all_goals exact Nat.mod_eq_of_lt (by omega)

/-- Settles O9: each call is its effect, which is a record update that keeps the invariant, or a bank's acceptance. -/
theorem hostCallKeepsSound : Obligations.HostCallKeepsSound := by
  unfold Obligations.HostCallKeepsSound
  refine ⟨fun c s t hs h => hs.hostEffect (hostEffect_of_hostCall h), fun s hstopped => ?_, toCell_val⟩
  have heffect (c : HostCall) : hostCall c s = s.hostEffect c := hostCall_of_stopped hstopped
  refine ⟨heffect _, fun _ => heffect _, fun _ => heffect _, fun _ => heffect _, hostCall_setGeneralRegister hstopped,
    fun slot b hlimits hbase => ?legal, fun slot b hvoid hlimits => ?misordered, fun slot b hlimits hbase => ?wide,
    fun offset words hwf hfits => hostCall_load_of_fits hstopped hwf hfits⟩
  case legal =>
    exact ⟨(heffect _).trans (State.acceptBank_of_legal _ hlimits hbase),
      (heffect _).trans (State.acceptBank_of_legal _ hlimits hbase)⟩
  case misordered =>
    exact ⟨(heffect _).trans (State.acceptBank_of_misordered _ hvoid hlimits),
      (heffect _).trans (State.acceptBank_of_misordered _ hvoid hlimits)⟩
  case wide =>
    exact ⟨(heffect _).trans (State.acceptBank_of_wide _ hlimits hbase),
      (heffect _).trans (State.acceptBank_of_wide _ hlimits hbase)⟩

/-! ### What becomes pending (R380, R384, R173) -/

theorem ofNumber_eq_some {n : Nat} {c : IntClass} (h : IntClass.ofNumber n = some c) : c.number = n := by
  unfold IntClass.ofNumber at h
  split at h <;> cases h <;> rfl

theorem isSync_iff (c : IntClass) : c.isSync = true ↔ 8 ≤ c.number ∧ c.number ≤ 19 := by
  simp [IntClass.isSync]

section
variable {s : State} {n : Nat} {c : IntClass}

theorem State.post_of_unused (d : Word) (h : IntClass.ofNumber n = none) : s.post n d = .refused .unpostableClass := by
  simp only [State.post, h]

theorem State.post_of_sync (d : Word) (h : IntClass.ofNumber n = some c) (hsync : c.isSync = true) :
    s.post n d = .refused .unpostableClass := by
  simp only [State.post, h, hsync, if_true]

theorem State.post_of_async (d : Word) (h : IntClass.ofNumber n = some c) (hsync : ¬c.isSync = true) :
    s.post n d = .next (s.addPending (PendingInt.mk c d none)) := by
  simp only [State.post, h, hsync, if_false, Bool.false_eq_true]

end

/-- Settles O59: a post and a raise add one entry to the pending interrupts, of which `mem_insertPending_iff` says what is in
them. -/
theorem postResults : Obligations.PostResults := by
  unfold Obligations.PostResults
  intro s n d hsorted
  have hpost : hostCall (.post n d) s = s.post n d := hostCall_of_whileRunning rfl
  rw [hpost]
  refine ⟨State.post_of_unused d, fun c hc => ?_, fun c => ?_⟩
  · obtain rfl := ofNumber_eq_some hc
    refine ⟨rfl, fun hlo hhi => State.post_of_sync d hc ((isSync_iff c).2 ⟨hlo, hhi⟩), fun hasync => ?_⟩
    have hsync : ¬c.isSync = true := by rw [isSync_iff]; omega
    exact ⟨_, State.post_of_async d hc hsync, fun q => mem_insertPending_iff hsorted, rfl⟩
  · exact ⟨s.addPending (PendingInt.mk c d (some s.par)), rfl, rfl, pairwise_insertPending _ hsorted,
      fun q => mem_insertPending_iff hsorted⟩

/-! ### InterruptCheck and the external stop (R167, R425) -/

section
variable {s : State}

theorem State.honourStop_of_requested (hrun : s.running = true) (hstop : s.stopRequested = true) :
    s.honourStop =
      { s with stopRequested := false, running := false, stopReason := .externalStop, stopDetail := 0 } := by
  rw [State.honourStop, hrun, hstop]
  rfl

theorem State.interruptCheck_of_none (h : s.dueInterrupt = none) : s.interruptCheck = .next s.honourStop := by
  rw [State.interruptCheck, h]

theorem State.enter_of_ok {p : PendingInt} {e : Entry} (h : (s.removePending p.cls).entryChecks p.cls = .ok e) :
    s.enter p = .next ((s.removePending p.cls).applyEntry p e) := by
  simp only [State.enter, h]

theorem State.enter_of_fails {p : PendingInt} {r : StopReason}
    (h : (s.removePending p.cls).entryChecks p.cls = .fails r) :
    s.enter p = .next ((s.removePending p.cls).stopEntry p r) := by
  simp only [State.enter, h]

theorem State.interruptCheck_of_ok {p : PendingInt} {e : Entry} (hdue : s.dueInterrupt = some p)
    (h : (s.removePending p.cls).entryChecks p.cls = .ok e) :
    s.interruptCheck = .next ((s.removePending p.cls).applyEntry p e).honourStop := by
  simp only [State.interruptCheck, hdue, State.enter_of_ok h]

end

/-- Settles O60: the request is one field, which InterruptCheck acts on after an entry, and every other call is refused. -/
theorem hostStop : Obligations.HostStop := by
  unfold Obligations.HostStop
  have heffect (s : State) : hostCall .stop s = s.hostEffect .stop := hostCall_of_whileRunning rfl
  refine ⟨fun s hrun => ?_, fun s hstopped => ?_, fun s hrun hstop hdue => ?_, ?_, fun c s hrun hne hpost => ?_⟩
  · rw [heffect, State.hostEffect, if_pos hrun]
  · rw [heffect, State.hostEffect, if_neg (Bool.eq_false_iff.1 hstopped)]
  · rw [State.interruptCheck_of_none hdue, State.honourStop_of_requested hrun hstop]
  · rintro s t p hrun hstop hdue ⟨e, he⟩ h
    have hentered : ((s.removePending p.cls).applyEntry p e).honourStop = _ := State.honourStop_of_requested hrun hstop
    rw [State.interruptCheck_of_ok hdue he, hentered] at h
    cases h
    exact ⟨rfl, rfl, rfl, rfl⟩
  · exact hostCall_of_running hrun (HostCall.whileRunning_of_ne hne hpost)

end Sys2Proof.Machine
end

section
/-! Who changes the privilege level (spec/60_exceptions.md R406): the privilege bits of the DR lie outside what every
instruction but LD and UR writes, and these two are refused at a privilege other than 0. -/

namespace Sys2Proof.Machine

/-! ### The privilege bits of the DR (R31) -/

/-- The bits `D` are none of the two that hold the privilege. -/
def sparesPrivilege (D : Word) : Prop := D.getLsbD 20 = false ∧ D.getLsbD 21 = false

theorem sparesPrivilege_zero : sparesPrivilege 0 := ⟨rfl, rfl⟩

/-- DRs that differ within such bits only have the same privilege. -/
theorem ppOf_eq_of_sparesPrivilege {D d e : Word} (hD : sparesPrivilege D) (h : d &&& ~~~D = e &&& ~~~D) :
    ppOf d = ppOf e := by
  obtain ⟨hlow, hhigh⟩ := hD
  have hkept {k : Nat} (hk : k < 36) (hspared : D.getLsbD k = false) : d.getLsbD k = e.getLsbD k := by
    simpa only [BitVec.getLsbD_and, BitVec.getLsbD_not, hspared, hk, decide_true, Bool.not_false, Bool.and_true]
      using congrArg (·.getLsbD k) h
  refine congrArg BitVec.toFin (BitVec.eq_of_getLsbD_eq fun k hk => ?_)
  simp only [BitVec.getLsbD_extractLsb', hk, decide_true, Bool.true_and]
  obtain rfl | rfl : k = 0 ∨ k = 1 := by omega
  · exact hkept (by decide) hlow
  · exact hkept (by decide) hhigh

/-- The bits that an instruction's own rule writes: all of them for LD and UR only (R29). -/
theorem drBits_cases (i : Instr) :
    ((∃ m, i = .ld m) ∨ i = .ur) ∨ drBits i = drMask [17, 16] ∨ drBits i = drMask [13] ∨ drBits i = 0 := by
  cases i with
  | ld m => exact .inl (.inl ⟨m, rfl⟩)
  | ur => exact .inl (.inr rfl)
  | aa | ana | ama | anma | au | anu | ax | anx | da | dan | add1 | sub1 => exact .inr (.inl rfl)
  | di | dsf | df | jdf | jndf => exact .inr (.inr (.inl rfl))
  | _ => exact .inr (.inr (.inr rfl))

theorem sparesPrivilege_drBits {i : Instr} (hi : ¬((∃ m, i = .ld m) ∨ i = .ur)) : sparesPrivilege (drBits i) := by
  obtain hbits | hbits | hbits := (drBits_cases i).resolve_left hi
  all_goals
    rw [hbits]
    exact ⟨by decide, by decide⟩

/-! ### LD and UR at a privilege other than 0 (R360) -/

theorem grown_privileged_bind_of_ne {β : Type} {s t : State} (D : Word) (f : Unit → State → Res β) (h : t.pp ≠ 0) :
    (t.privileged.bind f).Grown D s := by
  rw [State.privileged, if_neg h]
  trivial

/-- LD and UR at a privilege other than 0 end before they write the DR. -/
theorem exec_eq_finish_of_unprivileged {i : Instr} {s : State} (hi : (∃ m, i = .ld m) ∨ i = .ur) (hpp : s.pp ≠ 0) :
    ∃ x : Res Act, exec i s = x.finish ∧ x.Grown 0 s.discard := by
  rcases hi with ⟨m, rfl⟩ | rfl
  · exact ⟨_, rfl, Res.Holds.bind (resolves_operandLoc s.discard _ m) (fun _ h => Grows.of_indexes 0 h)
      fun l t ht => grown_privileged_bind_of_ne 0 _ (ht.pp_eq ▸ hpp)⟩
  · exact ⟨_, rfl, grown_privileged_bind_of_ne 0 _ hpp⟩

/-- Every instruction writes bits of the DR that spare the privilege, but for LD and UR at privilege 0. -/
theorem exec_eq_finish_sparing (i : Instr) (s : State) :
    ∃ (D : Word) (x : Res Act), exec i s = x.finish ∧ x.Grown D s.discard ∧
      (sparesPrivilege D ∨ s.pp = 0 ∧ ((∃ m, i = .ld m) ∨ i = .ur)) := by
  by_cases hi : (∃ m, i = .ld m) ∨ i = .ur
  · by_cases hpp : s.pp = 0
    · obtain ⟨x, hx, hgrown⟩ := exec_eq_finish i s
      exact ⟨drBits i, x, hx, hgrown, .inr ⟨hpp, hi⟩⟩
    · obtain ⟨x, hx, hgrown⟩ := exec_eq_finish_of_unprivileged hi hpp
      exact ⟨0, x, hx, hgrown, .inl sparesPrivilege_zero⟩
  · obtain ⟨x, hx, hgrown⟩ := exec_eq_finish i s
    exact ⟨drBits i, x, hx, hgrown, .inl (sparesPrivilege_drBits hi)⟩

/-! ### Steps and host calls -/

/-- The end of a step, with the privilege as it is at the InterruptCheck or at the stop in its place. -/
theorem step_ends_privilege {s t : State} (h : step s = .next t) :
    t = s ∨ ∃ D u, ReachesCheck D s u ∧ (step s = u.interruptCheck ∨ ∃ r d, t = u.stopWith r d) ∧
      (u.pp = s.pp ∨ s.pp = 0 ∧ RunsLdOrUr s) := by
  rcases step_cases h with ⟨-, hstay⟩ | ⟨c, d, hsync⟩ | ⟨w, r, i, hfetch, hdecode, hexec⟩
  · exact .inl hstay
  · obtain ⟨u, hu, hcheck⟩ := Grows.takeSync (Grows.refl 0 s.discard) c d
    exact .inr ⟨0, u, hu, .inl (hsync.trans hcheck), .inl (ppOf_eq_of_sparesPrivilege sparesPrivilege_zero hu.dr)⟩
  · obtain ⟨D, x, hx, hgrown, hprivilege⟩ := exec_eq_finish_sparing i s
    have hfinish : step s = x.finish := hexec.trans hx
    rw [hfinish] at h ⊢
    obtain ⟨u, hu, hend⟩ := Res.finish_cases hgrown h
    exact .inr ⟨D, u, hu, hend, hprivilege.imp (fun hD => ppOf_eq_of_sparesPrivilege hD hu.dr)
      fun ⟨hpp, hi⟩ => ⟨hpp, w, r, i, hfetch, hdecode, hi⟩⟩

/-- The one host call that writes the DR. -/
theorem State.hostEffect_dr {s t : State} {c : HostCall} (h : s.hostEffect c = .next t) :
    t.dr = s.dr ∨ ∃ v, c = .setDR v := by
  cases c with
  | setDR v => exact .inr ⟨v, rfl⟩
  | installBaseRegister slot b =>
    obtain ⟨rfl, -⟩ := State.acceptBank_eq_next h
    exact .inl rfl
  | setProgramBank b =>
    obtain ⟨rfl, -⟩ := State.acceptBank_eq_next h
    exact .inl rfl
  | post n d =>
    obtain ⟨c, rfl⟩ := State.post_eq_next h
    exact .inl rfl
  | load n ws =>
    obtain rfl := State.load_eq_next h
    exact .inl rfl
  | stop =>
    cases h
    split <;> exact .inl rfl
  | _ => cases h; exact .inl rfl

/-- Settles O11: up to the InterruptCheck only LD and UR at privilege 0 reach the privilege bits, and then only an entry does. -/
theorem privilegeChanges : Obligations.PrivilegeChanges := by
  unfold Obligations.PrivilegeChanges
  refine ⟨fun s t h hne => ?_, fun c s t h hne => ?_⟩
  · rcases step_ends_privilege h with rfl | ⟨D, u, hu, hcheck | ⟨r, d, rfl⟩, hprivilege⟩
    · exact absurd rfl hne
    · rcases hu.keeps_or_enters hcheck h with ⟨hdr, -⟩ | ⟨p, henters, -⟩
      · exact .inl (hprivilege.resolve_left fun hpp => hne ((congrArg ppOf hdr).trans hpp))
      · exact .inr ⟨u, p, henters, hprivilege⟩
    · exact .inl (hprivilege.resolve_left hne)
  · exact (State.hostEffect_dr (hostEffect_of_hostCall h)).resolve_left fun hdr => hne (congrArg ppOf hdr)

end Sys2Proof.Machine
end

section
/-! The statements about what InterruptCheck enters, and with which DR and key (spec/60_exceptions.md R385, R386, R400;
spec/40_cycle.md R167). -/

namespace Sys2Proof.Machine

/-! ### The class that is due (R385, R386) -/

section
variable {s : State} {p : PendingInt}

theorem State.isDeferred_eq_false_iff (c : IntClass) :
    s.isDeferred c = false ↔ c.number < 20 ∨ s.dr.getLsbD 31 = true := by
  rw [State.isDeferred, IntClass.isDeferrable, State.deferrableEnabled, Bool.and_eq_false_iff, decide_eq_false_iff_not,
    Nat.not_le, Bool.not_eq_false']

/-- In sorted pending interrupts a class has one entry. -/
theorem State.pendingSorted.eq_of_number {q : PendingInt} (h : s.pendingSorted) (hp : p ∈ s.pending) (hq : q ∈ s.pending)
    (hnumber : p.cls.number = q.cls.number) : p = q := by
  have hnodup : (s.pending.map fun r => r.cls.number).Nodup := List.pairwise_map.2 (h.imp Nat.ne_of_lt)
  exact List.inj_on_of_nodup_map hnodup hp hq hnumber

/-- The candidates of InterruptCheck. -/
theorem State.mem_candidates_iff :
    p ∈ s.pending.filter (fun q => !s.isDeferred q.cls) ↔
      p ∈ s.pending ∧ (p.cls.number < 20 ∨ s.dr.getLsbD 31 = true) := by
  rw [List.mem_filter, Bool.not_eq_true', State.isDeferred_eq_false_iff]

theorem State.dueInterrupt_eq_some_iff (h : s.pendingSorted) :
    s.dueInterrupt = some p ↔ p ∈ s.pending ∧ (p.cls.number < 20 ∨ s.dr.getLsbD 31 = true) ∧
      ∀ q ∈ s.pending, (q.cls.number < 20 ∨ s.dr.getLsbD 31 = true) → p.cls.number ≤ q.cls.number := by
  constructor
  · intro hdue
    obtain ⟨hmem, hleast⟩ := highestPriority_eq_some hdue
    obtain ⟨hpending, henabled⟩ := State.mem_candidates_iff.1 hmem
    exact ⟨hpending, henabled, fun q hq hqenabled => hleast q (State.mem_candidates_iff.2 ⟨hq, hqenabled⟩)⟩
  · rintro ⟨hpending, henabled, hleast⟩
    have hcandidate := State.mem_candidates_iff.2 ⟨hpending, henabled⟩
    cases hdue : s.dueInterrupt with
    | none =>
      rw [highestPriority_eq_none.1 hdue] at hcandidate
      exact absurd hcandidate List.not_mem_nil
    | some q =>
      obtain ⟨hmem, hqleast⟩ := highestPriority_eq_some hdue
      obtain ⟨hq, hqenabled⟩ := State.mem_candidates_iff.1 hmem
      have hnumber := Nat.le_antisymm (hqleast p hcandidate) (hleast q hq hqenabled)
      rw [h.eq_of_number hq hpending hnumber]

end

theorem State.honourStop_pending (s : State) : s.honourStop.pending = s.pending := by
  rcases s.honourStop_cases with h | ⟨-, -, h⟩ <;> rw [h]

/-- Settles O54: the due class is the least of the candidates, and an entry or its fatal stop removes just that class. -/
theorem priorityAndDeferral : Obligations.PriorityAndDeferral := by
  unfold Obligations.PriorityAndDeferral
  intro s p hsorted
  refine ⟨State.dueInterrupt_eq_some_iff hsorted, fun hdue t ht => ?_, fun hnone => ?_⟩
  · rcases State.interruptCheck_cases ht with ⟨hnone, -⟩ | ⟨q, hq, hend⟩
    · rw [hnone] at hdue
      cases hdue
    · obtain rfl : q = p := Option.some.inj (hq.symm.trans hdue)
      rcases hend with ⟨e, -, rfl⟩ | ⟨r, -, rfl⟩ <;> exact State.honourStop_pending _
  · exact ⟨State.interruptCheck_of_none hnone, s.honourStop_pending⟩

/-! ### The handler's DR and key (R400) -/

section
variable {α β : Type} {f : α → Bool} {l : List α} {g : α → β}

/-- A look-up in a graph whose matching pairs agree. -/
theorem getD_map_find?_of_agree {v : β} (d : β) (hsome : ∃ e ∈ l, f e = true) (hagree : ∀ e ∈ l, f e = true → g e = v) :
    ((l.find? f).map g).getD d = v := by
  obtain ⟨e, he⟩ := Option.isSome_iff_exists.1 (List.find?_isSome.2 hsome)
  rw [he, Option.map_some, Option.getD_some]
  exact hagree e (List.mem_of_find?_eq_some he) (List.find?_some he)

/-- A look-up in a graph without a matching pair. -/
theorem getD_map_find?_of_none (d : β) (hnone : ∀ e ∈ l, ¬f e = true) : ((l.find? f).map g).getD d = d := by
  rw [List.find?_eq_none.2 hnone]
  rfl

end

section
variable (s : State) (c : IntClass)

theorem State.entryKey_eq :
    s.entryKey c = ((s.params.entryKeys.find? fun e => e.before == s.key && e.cls == c).map (·.after)).getD s.key := by
  unfold State.entryKey
  split
  · next e he => rw [he]; rfl
  · next hnone => rw [hnone]; rfl

theorem State.entryDR_eq :
    s.entryDR c =
      ((s.params.entryDRs.find? fun e => e.before == s.dr && e.cls == c).map (·.after)).getD (defaultEntryDR s.dr c) := by
  unfold State.entryDR
  split
  · next e he => rw [he]; rfl
  · next hnone => rw [hnone]; rfl

end

/-- Every bit of the default DR at entry. -/
theorem getLsbD_defaultEntryDR (d : Word) (c : IntClass) (k : Nat) :
    (defaultEntryDR d c).getLsbD k =
      (d.getLsbD k && !decide (k ∈ [19, 20, 21, 31]) || decide (k = 18) || decide (k = 34) && c.isSync) := by
  by_cases hk : k < 36
  · unfold defaultEntryDR
    split
    all_goals simp_all only [BitVec.getLsbD_or, BitVec.getLsbD_and, BitVec.getLsbD_not, getLsbD_drMask, List.mem_singleton,
      decide_true, true_and, Bool.true_and, Bool.and_true, Bool.and_false, Bool.or_false, Bool.not_eq_true]
  · rw [BitVec.getLsbD_of_ge _ k (Nat.le_of_not_lt hk), BitVec.getLsbD_of_ge _ k (Nat.le_of_not_lt hk),
      decide_eq_false (show k ≠ 18 by omega), decide_eq_false (show k ≠ 34 by omega)]
    rfl

/-- Settles O56: the graphs of the parameters are looked up, and where they have no pair the default of R400 applies bit by bit. -/
theorem entryDesignator : Obligations.EntryDesignator := by
  unfold Obligations.EntryDesignator
  intro s c
  simp only [State.entryKey_eq, State.entryDR_eq]
  refine ⟨fun k hsome hagree => ?_, fun d hsome hagree => ?_, fun hnone => ?_, fun hnone => ?_⟩
  · exact getD_map_find?_of_agree _ (by simpa using hsome) (by simpa using hagree)
  · exact getD_map_find?_of_agree _ (by simpa using hsome) (by simpa using hagree)
  · exact getD_map_find?_of_none _ (by simpa using hnone)
  · rw [getD_map_find?_of_none _ (by simpa using hnone)]
    simp only [getLsbD_defaultEntryDR, IntClass.isSync]
    refine ⟨by simp, by simp, by simp, by simp, by simp, ?_, fun k hk => ?_⟩
    · simp [Bool.or_comm]
    · simp only [List.mem_cons, List.not_mem_nil, or_false, not_or] at hk
      simp [hk]

end Sys2Proof.Machine
end

section
/-! The statement about an entry whose checks pass (spec/60_exceptions.md R392 to R399): what the checks find, and the frame, the
pointer and the registers that the entry writes. -/

namespace Sys2Proof.Machine

/-! ### The checks of an entry that pass (R394, R396) -/

section
variable {s : State}

/-- The vector of a class outside the table in B0. -/
theorem State.readVector_of_outside {c : IntClass}
    (h : s.br[0].isVoid = true ∨ c.number < s.br[0].lower ∨ s.br[0].upper < c.number) :
    s.readVector c = .fails .vectorFault := by
  refine if_pos ?_
  rwa [BaseRegister.holds, Bool.or_eq_true, Bool.not_eq_true', Bool.and_eq_false_iff, decide_eq_false_iff_not,
    decide_eq_false_iff_not, Nat.not_le, Nat.not_le]

/-- The vector of a class inside it is a word of storage. -/
theorem State.readVector_of_inside {c : IntClass} (hvoid : s.br[0].isVoid = false) (hlo : s.br[0].lower ≤ c.number)
    (hhi : c.number ≤ s.br[0].upper) : s.readVector c = s.probeWord (s.br[0].base + c.number) := by
  refine if_neg ?_
  simp [BaseRegister.holds, hvoid, hlo, hhi]

theorem State.probeWord_eq_ok {a : Nat} {v : Word} (h : s.probeWord a = .ok v) : v = s.memory.read a := by
  unfold State.probeWord at h
  split at h
  · exact (Probe.ok.inj h).symm
  · cases h

theorem State.readVector_eq_ok {c : IntClass} {v : Word} (h : s.readVector c = .ok v) :
    v = s.memory.read (s.br[0].base + c.number) := by
  unfold State.readVector at h
  simp only at h
  split at h
  · cases h
  · exact State.probeWord_eq_ok h

/-- Words that pass the ICS check pass each part of it. -/
theorem State.checkICS_eq_ok {p n a : Nat} {acc : Perms} (h : s.checkICS p n acc = .ok a) :
    a = s.br[s.params.icsSlot].base + p ∧ s.br[s.params.icsSlot].isVoid = false ∧ s.br[s.params.icsSlot].lower ≤ p ∧
      p + n ≤ s.br[s.params.icsSlot].upper + 1 := by
  have hallowed : ¬(s.br[s.params.icsSlot].isVoid = true ∨ p < s.br[s.params.icsSlot].lower ∨
      s.br[s.params.icsSlot].upper + 1 < p + n ∨ ¬Permits (granted s.br[s.params.icsSlot] s.key) acc) := fun hdenied => by
    rw [State.checkICS_of_denied hdenied] at h
    cases h
  simp only [not_or, Bool.not_eq_true, Nat.not_lt, not_not] at hallowed
  obtain ⟨hvoid, hlo, hhi, hperm⟩ := hallowed
  rw [State.checkICS_of_permitted hvoid hlo hhi hperm] at h
  exact ⟨(Probe.ok.inj h).symm, hvoid, hlo, hhi⟩

/-- The bank of the handler: none in basic mode, and else the one that the vector's PAR reloads. -/
theorem State.bankFor_eq_ok {dr par : Word} {bank : Option BaseRegister} (h : s.bankFor dr par = .ok bank) :
    if dr.getLsbD 19 then bank = none else ∃ b, bank = some b ∧ s.loadPB par = .ok b := by
  unfold State.bankFor at h
  split at h
  · next hmode => rw [if_pos hmode, ← Probe.ok.inj h]
  · next hmode =>
    obtain ⟨b, hb, hbank⟩ := Probe.bind_eq_ok.1 h
    rw [if_neg hmode]
    exact ⟨b, (Probe.ok.inj hbank).symm, hb⟩

end

/-! ### The ICS pointer (R394, R398) -/

section
variable (s : State) (p : Nat)

theorem State.withIcsPointer_low : (s.withIcsPointer p).extractLsb' 0 18 = BitVec.ofNat 18 p := by
  unfold State.withIcsPointer
  exact BitVec.extractLsb'_append_eq_right

theorem State.withIcsPointer_high :
    (s.withIcsPointer p).extractLsb' 18 18 = s.grs[s.params.icsPointer].extractLsb' 18 18 := by
  unfold State.withIcsPointer
  exact BitVec.extractLsb'_append_eq_left

end

/-! ### What an entry writes (R392, R398, R399) -/

/-- A frame has room for the four words that an entry saves. -/
theorem State.Sound.frameSize_le {s : State} (h : s.Sound) : 4 ≤ s.params.icsFrameSize := by
  obtain ⟨-, hsize, -⟩ := h.params
  exact hsize

section
variable {s : State} {p : PendingInt} {e : Entry}

theorem State.applyEntry_grs_pointer : (s.applyEntry p e).grs[s.params.icsPointer] =
    s.withIcsPointer (s.icsPointer.toNat + s.params.icsFrameSize) :=
  Vector.getElem_set_self s.params.icsPointer.isLt

theorem State.applyEntry_grs_of_ne {k : Fin 128} (h : k ≠ s.params.icsPointer) : (s.applyEntry p e).grs[k] = s.grs[k] :=
  Vector.getElem_set_ne s.params.icsPointer.isLt k.isLt fun heq => h (Fin.ext heq.symm)

/-- The pointer after an entry, which the checks keep within 18 bits. -/
theorem State.applyEntry_icsPointer (hs : s.Sound) (h : s.entryChecks p.cls = .ok e) :
    (s.applyEntry p e).icsPointer.toNat = s.icsPointer.toNat + s.params.icsFrameSize := by
  have hlow : (s.applyEntry p e).icsPointer = BitVec.ofNat 18 (s.icsPointer.toNat + s.params.icsFrameSize) :=
    (congrArg (·.extractLsb' 0 18) State.applyEntry_grs_pointer).trans (s.withIcsPointer_low _)
  rw [hlow, BitVec.toNat_ofNat, Nat.mod_eq_of_lt (State.entryChecks_pointer_lt hs h)]

/-- The words of the frame (R399). -/
theorem State.applyEntry_read_frame (hwf : s.memory.wf) (hsize : 4 ≤ s.params.icsFrameSize) {k : Nat}
    (hk : k < s.params.icsFrameSize) :
    some ((s.applyEntry p e).memory.read (e.frameAt + k)) =
      ([p.saved.getD s.par, s.dr, p.cls.word, p.detail] ++ List.replicate (s.params.icsFrameSize - 4) 0)[k]? := by
  rw [← frameWords_eq hsize, List.getElem?_eq_getElem (by rwa [length_frameWords hsize])]
  exact congrArg some (Memory.read_writeList hwf e.frameAt _ _)

/-- The first four of them. -/
theorem State.applyEntry_read_words (hwf : s.memory.wf) (hsize : 4 ≤ s.params.icsFrameSize) :
    (s.applyEntry p e).memory.read e.frameAt = p.saved.getD s.par ∧
      (s.applyEntry p e).memory.read (e.frameAt + 1) = s.dr ∧
      (s.applyEntry p e).memory.read (e.frameAt + 2) = p.cls.word ∧
      (s.applyEntry p e).memory.read (e.frameAt + 3) = p.detail := by
  have hword {k : Nat} (hk : k < 4) :=
    State.applyEntry_read_frame (p := p) (e := e) hwf hsize (Nat.lt_of_lt_of_le hk hsize)
  exact ⟨Option.some.inj (hword (k := 0) (by decide)), Option.some.inj (hword (k := 1) (by decide)),
    Option.some.inj (hword (k := 2) (by decide)), Option.some.inj (hword (k := 3) (by decide))⟩

/-- The words after these are zeros. -/
theorem State.applyEntry_read_zeros (hwf : s.memory.wf) (hsize : 4 ≤ s.params.icsFrameSize) {k : Nat} (hlo : 4 ≤ k)
    (hk : k < s.params.icsFrameSize) : (s.applyEntry p e).memory.read (e.frameAt + k) = 0 := by
  refine Option.some.inj ((State.applyEntry_read_frame hwf hsize hk).trans ?_)
  rw [List.getElem?_append_right hlo, List.getElem?_replicate, if_pos]
  exact Nat.sub_lt_sub_right hlo hk

theorem State.applyEntry_read_outside (hsize : 4 ≤ s.params.icsFrameSize) {b : Nat}
    (hb : b < e.frameAt ∨ e.frameAt + s.params.icsFrameSize ≤ b) :
    (s.applyEntry p e).memory.read b = s.memory.read b :=
  Memory.read_writeList_of_not_mem s.memory e.frameAt _ (by rwa [length_frameWords hsize])

end

/-- Settles O55: InterruptCheck answers the state that the entry's writes make, which leave the frame and the pointer as said. -/
theorem entryEffect : Obligations.EntryEffect := by
  unfold Obligations.EntryEffect
  intro s p e hs hstop hdue he
  obtain ⟨-, hvector, -, hics, hbank, -⟩ := State.entryChecks_eq_ok he
  obtain ⟨hframe, -⟩ := State.checkICS_eq_ok hics
  have hcheck : s.interruptCheck = .next ((s.removePending p.cls).applyEntry p e) :=
    (State.interruptCheck_of_ok hdue he).trans (congrArg Host.Outcome.next (State.honourStop_of_not_requested _ hstop))
  have hu := hs.removePending p.cls
  have hsize := hs.frameSize_le
  obtain ⟨hpar, hdr, hclass, hdetail⟩ := State.applyEntry_read_words (p := p) (e := e) hu.memory hsize
  refine ⟨hframe, State.readVector_eq_ok hvector, hbank, State.bankFor_eq_ok hbank, rfl, _, hcheck,
    hpar, hdr, hclass, hdetail, fun k hlo hk => State.applyEntry_read_zeros hu.memory hsize hlo hk,
    fun b hb => State.applyEntry_read_outside (s := s.removePending p.cls) hsize hb,
    State.applyEntry_icsPointer hu he, ?_, fun k hk => State.applyEntry_grs_of_ne (s := s.removePending p.cls) hk,
    rfl, rfl, rfl, rfl, rfl, rfl, rfl, rfl, rfl, rfl, rfl, rfl, rfl⟩
  exact (congrArg (·.extractLsb' 18 18) State.applyEntry_grs_pointer).trans ((s.removePending p.cls).withIcsPointer_high _)

end Sys2Proof.Machine
end

section
/-! The statement about the fatal stops of an entry (spec/60_exceptions.md R392 to R397, R403): the checks of an entry in their
order, and what the reload of PB comes to. -/

namespace Sys2Proof.Machine

/-! ### The bank descriptor table of a level (R39, R397) -/

section
variable (s : State) {level : BitVec 3}

theorem State.bdtSlot_zero : s.bdtSlot 0 = 0 := if_pos rfl

theorem State.bdtSlot_of_toNat {n : Fin 7} (h : level.toNat = n.val + 1) : s.bdtSlot level = s.params.bdtSlots[n] := by
  have hne : level ≠ 0 := by
    rintro rfl
    exact absurd h (Nat.succ_ne_zero _).symm
  rw [State.bdtSlot, if_neg hne, h, Nat.add_sub_cancel, Vector.getElem?_eq_getElem n.isLt]
  rfl

/-- A slot that is B0 for level 0 and the parameter's for each other level is the one of the level. -/
theorem State.bdtSlot_eq {slot : Fin 16} (hzero : level = 0 → slot = 0)
    (hlevel : ∀ n : Fin 7, level.toNat = n.val + 1 → slot = s.params.bdtSlots[n]) : s.bdtSlot level = slot := by
  by_cases h : level = 0
  · rw [h, State.bdtSlot_zero, hzero h]
  · have hpos : level.toNat ≠ 0 := fun h0 => h (BitVec.eq_of_toNat_eq h0)
    have hlt := level.isLt
    have hn : level.toNat = (⟨level.toNat - 1, by omega⟩ : Fin 7).val + 1 := (Nat.succ_pred hpos).symm
    rw [s.bdtSlot_of_toNat hn, hlevel _ hn]

end

/-! ### The reload of PB (R397) -/

section
variable {s : State} {w : Word} {t : BaseRegister} {k : Nat} (ht : t = s.br[s.bdtSlot (parLevel w)])
  (hk : k = 8 * (parBDI w).toNat)
include ht hk

/-- A descriptor outside its table. -/
theorem State.loadPB_of_outside (h : t.isVoid = true ∨ k < t.lower ∨ t.upper < k + 7) :
    s.loadPB w = .fails .vectorFault := by
  subst ht hk
  refine if_pos ?_
  simpa only [Bool.or_eq_true, decide_eq_true_eq, or_assoc] using h

/-- A descriptor inside its table is the bank that eight words of storage denote, if they denote one. -/
theorem State.loadPB_of_inside (hvoid : t.isVoid = false) (hlo : t.lower ≤ k) (hhi : k + 7 ≤ t.upper) :
    s.loadPB w = (s.probeWords (t.base + k) 8).bind fun ws =>
      (s.decodeBankDescriptor ws).elim (.fails .vectorFault) .ok := by
  subst ht hk
  refine (if_neg ?_).trans (congrArg (Probe.bind _) (funext fun ws => ?_))
  · simpa [and_assoc] using And.intro hvoid (And.intro hlo hhi)
  · cases s.decodeBankDescriptor ws <;> rfl

end

/-! ### The checks of an entry in their order (R392, R393, R395) -/

section
variable {s : State} {c : IntClass}

theorem State.entryChecks_of_stopOnInterrupt (h : c ∈ s.params.stopOnInterrupt) :
    s.entryChecks c = .fails .interruptStop := if_pos h

section
variable (hc : c ∉ s.params.stopOnInterrupt)
include hc

theorem State.entryChecks_of_no_vector {r : StopReason} (hvector : s.readVector c = .fails r) :
    s.entryChecks c = .fails r := by
  rw [State.entryChecks, if_neg hc, hvector]
  rfl

section
variable {v : Word} (hvector : s.readVector c = .ok v)
include hvector

theorem State.entryChecks_of_overflow
    (h : s.params.icsMaxEntries * s.params.icsFrameSize < s.icsPointer.toNat + s.params.icsFrameSize) :
    s.entryChecks c = .fails .icsOverflow := by
  rw [State.entryChecks, if_neg hc, hvector]
  exact if_pos h

/-- With a vector and room in the stack, the ICS check, the reload of PB and the end of storage are left. -/
theorem State.entryChecks_of_room
    (h : s.icsPointer.toNat + s.params.icsFrameSize ≤ s.params.icsMaxEntries * s.params.icsFrameSize) :
    s.entryChecks c =
      (s.checkICS s.icsPointer.toNat s.params.icsFrameSize Perms.write).bind fun a =>
        (s.bankFor (s.entryDR c) v).bind fun bank => (s.probeFrame a).bind fun a => .ok (Entry.mk v a bank) := by
  rw [State.entryChecks, if_neg hc, hvector]
  exact if_neg (Nat.not_lt.2 h)

end

end

end

theorem permits_write_iff (p : Perms) : Permits p Perms.write ↔ p.w = true := by
  simp [Permits, Perms.write]

/-! ### The statement -/

/-- The checks of an entry, each with what comes before it passed. -/
theorem entryChecks_stops {s : State} {c : IntClass} (hc : c ∉ s.params.stopOnInterrupt) :
    (s.br[0].isVoid = true ∨ c.number < s.br[0].lower ∨ s.br[0].upper < c.number →
      s.entryChecks c = .fails .vectorFault) ∧
    ∀ v, s.readVector c = .ok v →
      (s.params.icsMaxEntries * s.params.icsFrameSize < s.icsPointer.toNat + s.params.icsFrameSize →
        s.entryChecks c = .fails .icsOverflow) ∧
      (s.icsPointer.toNat + s.params.icsFrameSize ≤ s.params.icsMaxEntries * s.params.icsFrameSize →
        (s.br[s.params.icsSlot].isVoid = true ∨ s.icsPointer.toNat < s.br[s.params.icsSlot].lower ∨
          s.br[s.params.icsSlot].upper + 1 < s.icsPointer.toNat + s.params.icsFrameSize ∨
          (granted s.br[s.params.icsSlot] s.key).w = false) →
        s.entryChecks c = .fails .icsAccessFault) ∧
      ∀ a, s.icsPointer.toNat + s.params.icsFrameSize ≤ s.params.icsMaxEntries * s.params.icsFrameSize →
        s.checkICS s.icsPointer.toNat s.params.icsFrameSize Perms.write = .ok a →
        (s.entryDR c).getLsbD 19 = false → s.loadPB v = .fails .vectorFault → s.entryChecks c = .fails .vectorFault := by
  refine ⟨fun h => State.entryChecks_of_no_vector hc (State.readVector_of_outside h), fun v hv =>
    ⟨State.entryChecks_of_overflow hc hv, fun hroom hdenied => ?_, fun a hroom ha hmode hload => ?_⟩⟩
  · rw [← Bool.not_eq_true, ← permits_write_iff] at hdenied
    rw [State.entryChecks_of_room hc hv hroom, State.checkICS_of_denied hdenied]
    rfl
  · rw [State.entryChecks_of_room hc hv hroom, ha, State.bankFor_of_extended v hmode, hload]
    rfl

/-- The outcomes of a reload of PB (R397). -/
theorem loadPB_outcomes {s : State} {w : Word} {t : BaseRegister} {k : Nat} (ht : t = s.br[s.bdtSlot (parLevel w)])
    (hk : k = 8 * (parBDI w).toNat) :
    (t.isVoid = true ∨ k < t.lower ∨ t.upper < k + 7 → s.loadPB w = .fails .vectorFault) ∧
    (t.isVoid = false → t.lower ≤ k → k + 7 ≤ t.upper →
      (s.params.storageSize ≤ t.base + k + 7 → ∃ a, s.loadPB w = .stuck (.absentStorage a)) ∧
      ∀ ws : Vector Word 8, (∀ n : Fin 8, ws[n] = s.memory.read (t.base + k + n.val)) →
        t.base + k + 7 < s.params.storageSize →
          (s.decodeBankDescriptor ws = none → s.loadPB w = .fails .vectorFault) ∧
          ∀ c, s.decodeBankDescriptor ws = some c → s.loadPB w = .ok c) := by
  refine ⟨State.loadPB_of_outside ht hk, fun hvoid hlo hhi => ?_⟩
  rw [State.loadPB_of_inside ht hk hvoid hlo hhi]
  refine ⟨fun habsent => ?_, fun ws hws hpresent => ?_⟩
  · obtain ⟨a, ha⟩ := State.probeWords_of_lt (s := s) (a := t.base + k) (n := 7) (Nat.lt_succ_of_le habsent)
    exact ⟨a, by rw [ha]; rfl⟩
  · have hwords : (Vector.ofFn fun n : Fin 8 => s.memory.read (t.base + k + n)) = ws :=
      Vector.ext fun n hn => (Vector.getElem_ofFn hn).trans (hws ⟨n, hn⟩).symm
    rw [State.probeWords_of_le (Nat.succ_le_of_lt hpresent), hwords]
    exact ⟨fun hnone => by rw [Probe.bind, hnone]; rfl, fun c hc => by rw [Probe.bind, hc]; rfl⟩

/-- Settles O57: the checks come one after another, a failing one is the stop of the entry, and the reads of the vector and of a
descriptor and the ICS check are each decided by the bank that they go through. -/
theorem entryStops : Obligations.EntryStops := by
  unfold Obligations.EntryStops
  refine ⟨fun s p => ⟨fun r hr => State.enter_of_fails hr, State.entryChecks_of_stopOnInterrupt, entryChecks_stops⟩,
    ?reload, fun s c hvoid hlo hhi => ?vector, ?ics⟩
  case reload =>
    rintro s w slot t k hzero hlevel rfl rfl
    obtain rfl : s.bdtSlot (parLevel w) = slot := s.bdtSlot_eq hzero hlevel
    exact loadPB_outcomes rfl rfl
  case vector =>
    rw [State.readVector_of_inside hvoid hlo hhi]
    exact ⟨fun habsent => if_neg (Nat.not_lt.2 habsent), State.probeWord_of_lt⟩
  case ics =>
    rintro s t p n acc rfl hvoid hlo hhi hperm
    exact State.checkICS_of_permitted hvoid hlo hhi hperm

end Sys2Proof.Machine
end

section
/-! The statement about an entry and the UR after it (spec/60_exceptions.md R392, R398, R399, R401; spec/45_system.md R368): the
return pops the frame that the entry pushed. -/

namespace Sys2Proof.Machine

section
variable {s : State} {p : PendingInt} {e : Entry}

/-- The cell of the ICS pointer is its upper half and the pointer (R394). -/
theorem State.icsPointer_cell (s : State) :
    s.grs[s.params.icsPointer].extractLsb' 18 18 ++ BitVec.ofNat 18 s.icsPointer.toNat = s.grs[s.params.icsPointer] := by
  rw [BitVec.ofNat_toNat, BitVec.setWidth_eq, State.icsPointer,
    BitVec.extractLsb'_append_extractLsb'_eq_extractLsb' (Nat.zero_add 18).symm]
  exact BitVec.extractLsb'_eq_self

/-- To put the pointer back after an entry restores the GRS. -/
theorem State.applyEntry_grs_restored :
    (s.applyEntry p e).grs.set s.params.icsPointer
      ((s.applyEntry p e).grs[s.params.icsPointer].extractLsb' 18 18 ++ BitVec.ofNat 18 s.icsPointer.toNat) = s.grs := by
  rw [State.applyEntry_grs_pointer, State.withIcsPointer_high, State.icsPointer_cell]
  refine Vector.ext fun k hk => ?_
  by_cases h : s.params.icsPointer.val = k
  · subst h
    exact Vector.getElem_set_self hk
  · rw [Vector.getElem_set_ne _ _ h]
    exact State.applyEntry_grs_of_ne (k := ⟨k, hk⟩) fun heq => h (congrArg Fin.val heq).symm

end

/-- Settles O58: the frame passed the checks of the entry, so that UR pops it, and O51 says what the return then leaves. -/
theorem entryThenReturn : Obligations.EntryThenReturn := by
  unfold Obligations.EntryThenReturn
  intro s p e pb hs he hpp hpending hstop hread hreload
  obtain ⟨-, -, -, hics, -, hend⟩ := State.entryChecks_eq_ok he
  obtain ⟨hframe, hvoid, hlo, hhi⟩ := State.checkICS_eq_ok hics
  have hsize := hs.frameSize_le
  obtain ⟨hpar, hdr, -, -⟩ := State.applyEntry_read_words (p := p) (e := e) hs.memory hsize
  obtain ⟨-, hreturn⟩ := returnResult (s.applyEntry p e)
  have hpop : s.icsPointer.toNat + s.params.icsFrameSize = (s.applyEntry p e).icsPointer.toNat :=
    (State.applyEntry_icsPointer hs he).symm
  have hur := hreturn s.br[s.params.icsSlot] pb _ s.icsPointer.toNat e.frameAt rfl rfl hpop hframe hpp hpending hstop hvoid hlo
    (by omega) hread (show e.frameAt + 1 < s.params.storageSize by omega) (by rw [hpar, hdr]; exact hreload)
  refine ⟨_, hur, hpar, hdr, State.applyEntry_grs_restored, rfl, rfl, rfl, hpending, fun b hb => ?_⟩
  exact State.applyEntry_read_outside hsize hb

end Sys2Proof.Machine
end

section
/-! The state after reset (spec/70_reset_and_hazards.md R430) satisfies the invariant that every step keeps. -/

namespace Sys2Proof.Machine

/-- The limits 0 and 0 are in order, and the base 0 is an address of every width (R36, R37). -/
theorem zeroBank_legal (bits : Nat) : zeroBank.legal bits = true := by
  have hordered : zeroBank.limitsOrdered = true := (limitsOrdered_iff _).2 (.inr (Nat.le_refl 0))
  have hfits : zeroBank.baseFits bits = true := (baseFits_iff _ _).2 (Nat.two_pow_pos bits)
  exact Bool.and_eq_true_iff.2 ⟨hordered, hfits⟩

/-- The numbers chosen for reset are within the bounds of R7 (spec/00_scope.md), and no descriptor is listed. -/
theorem resetParams_admissible : resetParams.admissible :=
  ⟨by decide, by decide, by decide, by decide, by decide, by decide, List.forall_mem_nil _⟩

/-- Every slot and PB holds the zero bank. -/
theorem State.reset_banksLegal : State.reset.banksLegal := by
  refine ⟨fun k => ?_, zeroBank_legal _⟩
  have hslot : State.reset.br[k] = zeroBank := Vector.getElem_replicate k.isLt
  rw [hslot]
  exact zeroBank_legal _

/-- Settles O8: nothing is listed, pending or about to be written, every bank is the zero bank, and the parameters are
admissible. -/
theorem resetSound : Obligations.ResetSound := by
  unfold Obligations.ResetSound
  exact {
    memory := reset_memory_wf
    pending := List.Pairwise.nil
    banks := State.reset_banksLegal
    writes := rfl
    params := resetParams_admissible }

end Sys2Proof.Machine
end
